-- ==== Sys2Proof/Word.lean ====
section
/-!
DEFINITION. The data types of the block (00_scope.md R8, R9; the data model of the glossary, R12): a Bit, a
BitSequence, and the one multi-bit value, the 16-bit Checksum.
-/

namespace Sys2Proof

/-- A Bit, "a single boolean value" (R8, R12): `false` is written 0 and `true` is written 1. -/
abbrev Bit := Bool

/-- A BitSequence, "an ordered, finite sequence of Bit, index 0 = first bit transmitted/produced" (R9). -/
abbrev BitSeq := List Bit

/-- A Checksum, a 16-bit unsigned value; bit 0 is the least significant (R8, R12). -/
abbrev Checksum := BitVec 16

/-- The slice `s[a:b]` of R9: indices `a` to `b - 1`, empty when `a >= b`. -/
def slice (s : BitSeq) (a b : Nat) : BitSeq := (s.drop a).take (b - a)

end Sys2Proof
end

