-- ==== Sys2Proof/Config.lean ====
section
/-!
DEFINITION. The constants the source fixes (00_scope.md R6), hard-wired, and the parameters it leaves to the
implementation (R7): widths and capacities. No value of the block is left undefined after an event that completes, so
there is no free value here.
-/

namespace Sys2Proof.Config

/-- `CRC_POLY` of R6: the value XORed into the checksum register. -/
def crcPoly : Checksum := 0x1021#16

/-- `CRC_INIT` of R6: the initial register value. -/
def crcStart : Checksum := 0xFFFF#16

/-- `CRC_FLUSH` of R6: the number of zero-flush steps after the last input bit. -/
def crcFlushSteps : Nat := 16

/-- `FLAG` of R6 and R91: 0,1,1,1,1,1,1,0, index 0 first. -/
def flag : BitSeq := [false, true, true, true, true, true, true, false]

/-- The stuffed zero (R90: width 1; R93): the inserted 0 alone. -/
def stuffedZero : BitSeq := [false]

/-- What stands on the wire before a stuffed zero (R93: "Pattern: `11111` then `0`"). -/
def stuffedZeroBefore : BitSeq := [true, true, true, true, true]

/-- `FLAG_LEN` of R6. -/
@[simp] def flagLen : Nat := 8

/-- `MIN_PAYLOAD` of R6: the least number of destuffed payload bits the deframer will process. -/
@[simp] def minPayload : Nat := 16

/-- `DEFAULT_CHUNK` of R6: the default chunk size in bits. -/
@[simp] def defaultChunk : Nat := 80

/-- The open parameters of R7 that the implementation sets (decisions D5, D6; entry U4): capacities in bits of the four
bit containers, the width of the frame counters, and the width of the cursors and of container lengths. `none` is
"unbounded", the value the spec gives its model. -/
structure Params where
  srcCap : Option Nat := none
  txCap  : Option Nat := none
  rxCap  : Option Nat := none
  outCap : Option Nat := none
  cntW   : Option Nat := none
  idxW   : Option Nat := none
  deriving DecidableEq, Repr

/-- Every capacity and every width infinite (R7: "the model uses unbounded lists", "unbounded naturals"). -/
def unbounded : Params := {}

/-- A container of `len` bits stays within a capacity. -/
def within (cap : Option Nat) (len : Nat) : Bool :=
  match cap with
  | none => true
  | some c => decide (len ≤ c)

/-- A natural number is representable in a register of the given width (R8: `0 .. 2^N - 1`). -/
def inWidth (width : Option Nat) (n : Nat) : Bool :=
  match width with
  | none => true
  | some w => decide (n < 2 ^ w)

/-- The index width can hold the reset value 80 of `fr.chunk_size` (R43); a build that could not would have no reset
state. -/
def Params.legal (p : Params) : Bool := inWidth p.idxW defaultChunk

end Sys2Proof.Config
end

