-- ==== Sys2Proof/Machine/Codec.lean ====
section
/-!
DEFINITION. The pure functions the units compute, bit by bit: the checksum step (40_crc16.md R122), one iteration of the
stuffer and of the destuffer (R142, R157), the scans built on them, and the layout of a Frame (30_encoding.md R92).
-/

namespace Sys2Proof.Codec

/-! ## The checksum -/

/-- One step of the checksum register (R122): `msb` is read before the shift, the XOR is applied after it. -/
def crcShift (r : Checksum) (b : Bit) : Checksum :=
  let msb := r.getLsbD 15
  let shifted := r <<< 1
  if Bool.xor b msb then shifted ^^^ Config.crcPoly else shifted

/-- The zero-flush (R124): sixteen steps with input bit 0. -/
def crcFlush (r : Checksum) : Checksum :=
  (List.replicate Config.crcFlushSteps false).foldl crcShift r

/-- `crc16(bits)` (R126): initialise, one step per bit, index 0 first, then the flush. -/
def crc16 (bits : BitSeq) : Checksum := crcFlush (bits.foldl crcShift Config.crcStart)

/-! ## Scans with a run counter -/

/-- Run a per-bit unit over a sequence, index 0 first: what it emits in all, and the counter it is left with. -/
def scan {n : Nat} (unit : Fin n → Bit → BitSeq × Fin n) : Fin n → BitSeq → BitSeq × Fin n
  | ones, [] => ([], ones)
  | ones, b :: bits =>
    let now := unit ones b
    let later := scan unit now.2 bits
    (now.1 ++ later.1, later.2)

/-- One `STUFF.BIT` (R142): the bits emitted and the counter after. The counter never rests at 5 (R23). -/
def stuffStep (ones : Fin 5) (b : Bit) : BitSeq × Fin 5 :=
  if b then
    if h : ones.val + 1 < 5 then ([true], ⟨ones.val + 1, h⟩) else ([true, false], 0)
  else ([false], 0)

/-- One `DESTUFF.BIT` (R157): the counter value 5 means that this bit is the one to be inspected. -/
def destuffStep (ones : Fin 6) (b : Bit) : BitSeq × Fin 6 :=
  if h : ones.val < 5 then
    if b then ([true], ⟨ones.val + 1, by omega⟩) else ([false], 0)
  else
    if b then ([true], 1) else ([], 0)

/-- `stuff(bits)` with the counter it ends on (R145). -/
def stuffScan (bits : BitSeq) : BitSeq × Fin 5 := scan stuffStep 0 bits

/-- `stuff(bits)` (R145). -/
def stuff (bits : BitSeq) : BitSeq := (stuffScan bits).1

/-- `destuff(bits)` with the counter before the end of the input is signalled (R161). -/
def destuffScan (bits : BitSeq) : BitSeq × Fin 6 := scan destuffStep 0 bits

/-- `destuff(bits)` (R161). -/
def destuff (bits : BitSeq) : BitSeq := (destuffScan bits).1

/-- A 0 that comes next after these bits follows five consecutive 1 bits, as the counters count them: it is a stuffed zero
(R93), the one the destuffer drops. Every 0 restarts the count, so only the run of 1 bits at the end matters. -/
def zeroIsStuffed (before : BitSeq) : Bool := decide ((destuffScan before).2 = 5)

/-! ## Serialising the Checksum, and the Frame -/

/-- `bits16(v)` (R11, R66): bit 15 first. -/
def bits16 (v : Checksum) : BitSeq := (List.range 16).map fun k => v.getLsbD (15 - k)

/-- The number a BitSequence spells with its first bit the most significant. -/
def bitsToNat (s : BitSeq) : Nat := s.foldl (fun n b => 2 * n + b.toNat) 0

/-- `int16(s)` (R11, R66): the first bit is the most significant. -/
def int16 (s : BitSeq) : Checksum := BitVec.ofNat 16 (bitsToNat s)

/-- The body of a Frame before stuffing (R92): the raw chunk, then its Checksum. -/
def frameBody (chunk : BitSeq) : BitSeq := chunk ++ bits16 (crc16 chunk)

/-- A Frame (R92): `Flag ++ stuff(chunkData ++ checksumBits) ++ Flag`. -/
def frameBits (chunk : BitSeq) : BitSeq := Config.flag ++ stuff (frameBody chunk) ++ Config.flag

end Sys2Proof.Codec
end

