-- ==== Sys2Proof/Syntax.lean ====
section
/-!
DEFINITION. The operations of the block: one constructor for each row of spec/opcode_table.json, in the table's order
(00_scope.md R3; formats of 30_encoding.md R90).
-/

namespace Sys2Proof

/-- The 25 rows of the opcode table: 12 command words (format K), 4 phase-selected steps (S), 5 whole-sequence
operations (P) and 4 wire items (W). -/
inductive Instr where
  /-- `CRC.INIT` (R121). -/
  | crcInit
  /-- `CRC.SHIFT b` (R122). -/
  | crcShift (b : Bit)
  /-- `CRC.FLUSH` (R124). -/
  | crcFlush
  /-- `CRC.READ` (R125). -/
  | crcRead
  /-- `STUFF.RST` (R141). -/
  | stuffRst
  /-- `STUFF.BIT b` (R142). -/
  | stuffBit (b : Bit)
  /-- `DESTUFF.RST` (R156). -/
  | destuffRst
  /-- `DESTUFF.BIT b` (R157). -/
  | destuffBit (b : Bit)
  /-- `DESTUFF.END` (R158). -/
  | destuffEnd
  /-- `FR.START` (R172). -/
  | frStart
  /-- `DF.START` (R192). -/
  | dfStart
  /-- `RST` (R250). -/
  | rst
  /-- `FR.FRAME` (R174), selected by `fr.phase` = RUN. -/
  | frFrame
  /-- `DF.HUNT` (R193), selected by `df.phase` = HUNT. -/
  | dfHunt
  /-- `DF.SEEK` (R194), selected by `df.phase` = SEEK. -/
  | dfSeek
  /-- `DF.CHECK` (R196, R197, R198), selected by `df.phase` = CHECK. -/
  | dfCheck
  /-- `crc16(bits)` (R126). -/
  | crc16 (bits : BitSeq)
  /-- `stuff(bits)` (R145). -/
  | stuff (bits : BitSeq)
  /-- `destuff(bits)` (R161). -/
  | destuff (bits : BitSeq)
  /-- `encode(bits, chunkSize)` (R175). -/
  | encode (bits : BitSeq) (chunkSize : Nat)
  /-- `decode(bits)` (R200). -/
  | decode (bits : BitSeq)
  /-- The wire item `FLAG` (R91). -/
  | flag
  /-- The wire item `FRAME` carrying `chunkData` (R92). -/
  | frame (chunkData : BitSeq)
  /-- The wire item `CHECKSUM_FIELD` holding a 16-bit value (R97, R66). -/
  | checksumField (c : Checksum)
  /-- The wire item `STUFFED_ZERO` (R93), one bit wide (R90). -/
  | stuffedZero
  deriving DecidableEq, Repr

end Sys2Proof
end

