-- ==== Sys2Proof/WellFormed.lean ====
section
/-!
DEFINITION. Which terms of `Instr` stand for operations the spec gives operands to. Bits, BitSequences and 16-bit values
are legal at every value; the one reserved operand value is a chunk size of 0 (00_scope.md R7, 30_encoding.md R105).
-/

namespace Sys2Proof

/-- A chunk size is legal when it is at least 1; with an empty source it is never looked at (R105, R229). -/
def chunkSizeLegal (bits : BitSeq) (chunkSize : Nat) : Bool := bits.isEmpty || decide (1 ≤ chunkSize)

/-- The operands of an instruction are values the spec gives it. -/
def wellFormed : Instr → Bool
  | .crcInit => true
  | .crcShift _ => true
  | .crcFlush => true
  | .crcRead => true
  | .stuffRst => true
  | .stuffBit _ => true
  | .destuffRst => true
  | .destuffBit _ => true
  | .destuffEnd => true
  | .frStart => true
  | .dfStart => true
  | .rst => true
  | .frFrame => true
  | .dfHunt => true
  | .dfSeek => true
  | .dfCheck => true
  | .crc16 _ => true
  | .stuff _ => true
  | .destuff _ => true
  | .encode bits chunkSize => chunkSizeLegal bits chunkSize
  | .decode _ => true
  | .flag => true
  | .frame _ => true
  | .checksumField _ => true
  | .stuffedZero => true

end Sys2Proof
end

