-- ==== Sys2Proof/Decode.lean ====
section
/-!
DEFINITION. The four formats of 30_encoding.md R90 and their decoder and encoder. The formats are four separate code spaces
(a command word `000001` and the phase code `01` are the same number), so an encoding carries its format. The decoder is
total: whatever names no row is rejected by name.
-/

namespace Sys2Proof

/-- The two units that take steps of their own (R100). -/
inductive Sequencer where
  | framer
  | deframer
  deriving DecidableEq, Repr

/-- One element of the expansion of a whole-sequence operation (R102): a command word, a host write, or "repeated while the
unit is busy". -/
inductive Action where
  /-- The host issues a command word (format K). -/
  | word (w : BitVec 6)
  /-- The host writes `SRC`. -/
  | loadSrc (bits : BitSeq)
  /-- The host writes `fr.chunk_size`. -/
  | loadChunkSize (n : Nat)
  /-- The host writes `RX`. -/
  | loadRx (bits : BitSeq)
  /-- The phase-selected steps of a unit, repeated while it is busy. -/
  | run (u : Sequencer)
  deriving DecidableEq, Repr

/-- An encoded operation, with its format (R90). -/
inductive Encoding where
  /-- Format K: a 6-bit command word (R98). -/
  | command (w : BitVec 6)
  /-- Format S: the framer's phase code (R31, R100). -/
  | framerPhase (code : BitVec 2)
  /-- Format S: the deframer's phase code (R37, R100). -/
  | deframerPhase (code : BitVec 3)
  /-- Format P: an expansion (R102). -/
  | expansion (actions : List Action)
  /-- Format W: bits on the wire, index 0 first (R91 to R93, R97), with the bits that stand on the wire before them: a stuffed
  zero is told from a body bit by what it follows (R93). -/
  | wire (before bits : BitSeq)
  deriving DecidableEq, Repr

/-- The four formats of R90. -/
inductive Format where
  | k
  | s
  | p
  | w
  deriving DecidableEq, Repr

/-- The format of an encoding. -/
def Encoding.format : Encoding → Format
  | .command _ => .k
  | .framerPhase _ => .s
  | .deframerPhase _ => .s
  | .expansion _ => .p
  | .wire _ _ => .w

/-- The width of an encoding in bits (R90); a format P encoding is a sequence of other encodings and has none. What stands
before a wire item is no part of it. -/
def Encoding.width : Encoding → Option Nat
  | .command _ => some 6
  | .framerPhase _ => some 2
  | .deframerPhase _ => some 3
  | .expansion _ => none
  | .wire _ bits => some bits.length

/-- The format the opcode table gives an operation's row. -/
def Instr.format : Instr → Format
  | .crcInit => .k
  | .crcShift _ => .k
  | .crcFlush => .k
  | .crcRead => .k
  | .stuffRst => .k
  | .stuffBit _ => .k
  | .destuffRst => .k
  | .destuffBit _ => .k
  | .destuffEnd => .k
  | .frStart => .k
  | .dfStart => .k
  | .rst => .k
  | .frFrame => .s
  | .dfHunt => .s
  | .dfSeek => .s
  | .dfCheck => .s
  | .crc16 _ => .p
  | .stuff _ => .p
  | .destuff _ => .p
  | .encode _ _ => .p
  | .decode _ => .p
  | .flag => .w
  | .frame _ => .w
  | .checksumField _ => .w
  | .stuffedZero => .w

/-- Why an encoding names no operation. -/
inductive Reject where
  /-- One of the 49 command words of R103. -/
  | reservedCommand (w : BitVec 6)
  /-- A phase of the framer in which it takes no step (R100). -/
  | noFramerStep (code : BitVec 2)
  /-- A phase of the deframer in which it takes no step (R100), or an unused code (U6). -/
  | noDeframerStep (code : BitVec 3)
  /-- A list of actions that is not the expansion of any whole-sequence operation (R102). -/
  | notAnExpansion
  /-- Bits that are none of the four wire items. -/
  | notAWireItem
  deriving DecidableEq, Repr

/-! ## Format K -/

/-- A command word from its fields `u`, `op` and `d` (R98). -/
def commandWord (u : BitVec 3) (op : BitVec 2) (d : Bit) : BitVec 6 := u ++ op ++ BitVec.ofBool d

/-- Decoding of a command word by its fields (R98, R99); every word of no row is reserved (R103). -/
def decodeCommand (w : BitVec 6) : Except Reject Instr :=
  match (w.extractLsb' 3 3).toNat, (w.extractLsb' 1 2).toNat, w.getLsbD 0 with
  | 0, 0, false => .ok .crcInit
  | 0, 1, b => .ok (.crcShift b)
  | 0, 2, false => .ok .crcFlush
  | 0, 3, false => .ok .crcRead
  | 1, 0, false => .ok .stuffRst
  | 1, 1, b => .ok (.stuffBit b)
  | 2, 0, false => .ok .destuffRst
  | 2, 1, b => .ok (.destuffBit b)
  | 2, 2, false => .ok .destuffEnd
  | 3, 0, false => .ok .frStart
  | 4, 0, false => .ok .dfStart
  | 7, 3, true => .ok .rst
  | _, _, _ => .error (.reservedCommand w)

/-! ## Format S -/

/-- The step a framer's phase code selects (R100). -/
def decodeFramerPhase (code : BitVec 2) : Except Reject Instr :=
  if code = 0b01#2 then .ok .frFrame else .error (.noFramerStep code)

/-- The step a deframer's phase code selects (R100). -/
def decodeDeframerPhase (code : BitVec 3) : Except Reject Instr :=
  if code = 0b001#3 then .ok .dfHunt
  else if code = 0b010#3 then .ok .dfSeek
  else if code = 0b011#3 then .ok .dfCheck
  else .error (.noDeframerStep code)

/-! ## Format W -/

/-- The chunk a Frame would carry if these bits were one: the destuffed payload less its last 16 bits (R92, R95). -/
def frameChunk (bits : BitSeq) : BitSeq :=
  let p := Codec.destuff (slice bits 8 (bits.length - 8))
  slice p 0 (p.length - 16)

/-- Which wire item a bit sequence is, by what stands before it. The lengths 1, 8, 16 and 32 or more (R90) tell the items
apart; a single 0 that no five 1 bits precede is a body bit and no item. -/
def decodeWire (before bits : BitSeq) : Except Reject Instr :=
  if bits = Config.flag then .ok .flag
  else if bits = Config.stuffedZero then
    if Codec.zeroIsStuffed before then .ok .stuffedZero else .error .notAWireItem
  else if bits.length = 16 then .ok (.checksumField (Codec.int16 bits))
  else if Codec.frameBits (frameChunk bits) = bits then .ok (.frame (frameChunk bits))
  else .error .notAWireItem

/-! ## Format P -/

/-- The expansions of R102, with the command words of R99. -/
def crc16Expansion (bits : BitSeq) : List Action :=
  [.word 0b000000#6] ++ bits.map (fun b => .word (commandWord 0b000#3 0b01#2 b)) ++ [.word 0b000100#6, .word 0b000110#6]

/-- `stuff(bits)` (R102). -/
def stuffExpansion (bits : BitSeq) : List Action :=
  [.word 0b001000#6] ++ bits.map (fun b => .word (commandWord 0b001#3 0b01#2 b))

/-- `destuff(bits)` (R102). -/
def destuffExpansion (bits : BitSeq) : List Action :=
  [.word 0b010000#6] ++ bits.map (fun b => .word (commandWord 0b010#3 0b01#2 b)) ++ [.word 0b010100#6]

/-- `encode(bits, chunkSize)` (R102). -/
def encodeExpansion (bits : BitSeq) (chunkSize : Nat) : List Action :=
  [.loadSrc bits, .loadChunkSize chunkSize, .word 0b011000#6, .run .framer]

/-- `decode(bits)` (R102). -/
def decodeExpansion (bits : BitSeq) : List Action := [.loadRx bits, .word 0b100000#6, .run .deframer]

/-- The data bit `d` of a command word (R98); an action that is no command word carries none. -/
def Action.dataBit : Action → Option Bit
  | .word w => some (w.getLsbD 0)
  | .loadSrc _ => none
  | .loadChunkSize _ => none
  | .loadRx _ => none
  | .run _ => none

/-- The data bits of the actions after the first, less the last `tail` of them. -/
def expansionBits (actions : List Action) (tail : Nat) : BitSeq :=
  ((actions.drop 1).take (actions.length - 1 - tail)).filterMap Action.dataBit

/-- The source sequence that a first action loads, if it loads one. -/
def expansionSource : List Action → BitSeq
  | .loadSrc bits :: _ => bits
  | .loadRx bits :: _ => bits
  | _ => []

/-- The chunk size that a second action loads, if it loads one. -/
def expansionChunkSize : List Action → Nat
  | _ :: .loadChunkSize n :: _ => n
  | _ => 0

/-- Which whole-sequence operation a list of actions is the expansion of: the operands are read off the list, and the list
must be exactly the expansion they give (R102). -/
def decodeExpansionList (actions : List Action) : Except Reject Instr :=
  if crc16Expansion (expansionBits actions 2) = actions then .ok (.crc16 (expansionBits actions 2))
  else if stuffExpansion (expansionBits actions 0) = actions then .ok (.stuff (expansionBits actions 0))
  else if destuffExpansion (expansionBits actions 1) = actions then .ok (.destuff (expansionBits actions 1))
  else if encodeExpansion (expansionSource actions) (expansionChunkSize actions) = actions then
    .ok (.encode (expansionSource actions) (expansionChunkSize actions))
  else if decodeExpansion (expansionSource actions) = actions then .ok (.decode (expansionSource actions))
  else .error .notAnExpansion

/-! ## The decoder and the encoder -/

/-- The operation an encoding names, or why it names none. -/
def decodeInstr : Encoding → Except Reject Instr
  | .command w => decodeCommand w
  | .framerPhase code => decodeFramerPhase code
  | .deframerPhase code => decodeDeframerPhase code
  | .expansion actions => decodeExpansionList actions
  | .wire before bits => decodeWire before bits

/-- The encoding of an operation, from the tables of R99, R100 and R102 and the layouts of R91 to R93 and R97. -/
def encodeInstr : Instr → Encoding
  | .crcInit => .command (commandWord 0b000#3 0b00#2 false)
  | .crcShift b => .command (commandWord 0b000#3 0b01#2 b)
  | .crcFlush => .command (commandWord 0b000#3 0b10#2 false)
  | .crcRead => .command (commandWord 0b000#3 0b11#2 false)
  | .stuffRst => .command (commandWord 0b001#3 0b00#2 false)
  | .stuffBit b => .command (commandWord 0b001#3 0b01#2 b)
  | .destuffRst => .command (commandWord 0b010#3 0b00#2 false)
  | .destuffBit b => .command (commandWord 0b010#3 0b01#2 b)
  | .destuffEnd => .command (commandWord 0b010#3 0b10#2 false)
  | .frStart => .command (commandWord 0b011#3 0b00#2 false)
  | .dfStart => .command (commandWord 0b100#3 0b00#2 false)
  | .rst => .command (commandWord 0b111#3 0b11#2 true)
  | .frFrame => .framerPhase 0b01#2
  | .dfHunt => .deframerPhase 0b001#3
  | .dfSeek => .deframerPhase 0b010#3
  | .dfCheck => .deframerPhase 0b011#3
  | .crc16 bits => .expansion (crc16Expansion bits)
  | .stuff bits => .expansion (stuffExpansion bits)
  | .destuff bits => .expansion (destuffExpansion bits)
  | .encode bits chunkSize => .expansion (encodeExpansion bits chunkSize)
  | .decode bits => .expansion (decodeExpansion bits)
  | .flag => .wire [] Config.flag
  | .frame chunkData => .wire [] (Codec.frameBits chunkData)
  | .checksumField c => .wire [] (Codec.bits16 c)
  | .stuffedZero => .wire Config.stuffedZeroBefore Config.stuffedZero

/-! ## The opcode table's words -/

/-- `n` bits of a number, most significant first: the table reads a wire item with its first transmitted bit as the most
significant. -/
def natToBits (n w : Nat) : BitSeq := (List.range n).map fun k => w.testBit (n - 1 - k)

/-- The table's six-bit row of the stuffed zero: five bits that stand before it, and the inserted bit, "last of the six". -/
def stuffedZeroRow (w : Nat) : Encoding := .wire ((natToBits 6 w).take 5) ((natToBits 6 w).drop 5)

/-- The encodings that a table word of `nbits` bits can stand for, the first that decodes being the one meant. The table
gives a word without its format (log 6): where the width does not settle it, format K comes first, then the phase codes,
then the six-bit row of the stuffed zero; a word above 63 is no command word. -/
def tableEncodings (nbits w : Nat) : List Encoding :=
  if nbits ≤ 2 then [.framerPhase (BitVec.ofNat 2 w)]
  else if nbits = 3 then [.deframerPhase (BitVec.ofNat 3 w)]
  else if nbits = 6 then [.command (BitVec.ofNat 6 w), stuffedZeroRow w]
  else if nbits ≤ 8 then
    if w < 64 then
      [.command (BitVec.ofNat 6 w)]
        ++ (if w < 4 then [.framerPhase (BitVec.ofNat 2 w)] else [])
        ++ (if w < 8 then [.deframerPhase (BitVec.ofNat 3 w)] else [])
        ++ [stuffedZeroRow w]
    else [.wire [] (natToBits 8 w)]
  else [.wire [] (natToBits nbits w)]

/-- The encoding a table word stands for: the first that decodes, else one that names nothing. -/
def tableEncoding (nbits w : Nat) : Encoding :=
  ((tableEncodings nbits w).find? fun e => (decodeInstr e).isOk).getD (.wire [] [])

/-- The instruction the decoder reads from a word of the opcode table, bit 0 of `w` being the table's bit 0. -/
def decodeTableWord (nbits w : Nat) : Option Instr := (decodeInstr (tableEncoding nbits w)).toOption

end Sys2Proof
end

