-- ==== Sys2Proof/Machine/State.lean ====
section
/-!
DEFINITION. The architectural state of the five units (10_state.md R20 to R45), the host's side of the command port, the
open parameters of the implementation, and the reasons a step can stop. Plain data throughout.
-/

namespace Sys2Proof.Machine

/-- The framer's phases (R31). -/
inductive FrPhase where
  | idle
  | run
  | done
  | error
  deriving DecidableEq, Repr

/-- The deframer's phases (R37); the codes `110` and `111` have no constructor (U6). -/
inductive DfPhase where
  | idle
  | hunt
  | seek
  | check
  | done
  | aborted
  deriving DecidableEq, Repr

/-- The checksum unit (R22). -/
structure CrcUnit where
  reg : Checksum
  deriving DecidableEq, Repr

/-- The stand-alone stuffer (R23, R24). -/
structure Stuffer where
  ones : Fin 5
  out  : BitSeq
  deriving DecidableEq, Repr

/-- The stand-alone destuffer (R25, R26). -/
structure Destuffer where
  ones : Fin 6
  out  : BitSeq
  deriving DecidableEq, Repr

/-- The framer (R27 to R32) with its two containers `SRC` and `TX` (R60). -/
structure Framer where
  chunkSize  : Nat
  k          : Nat
  frameCount : Nat
  phase      : FrPhase
  crcReg     : Checksum
  stOnes     : Fin 5
  src        : BitSeq
  tx         : BitSeq
  deriving DecidableEq, Repr

/-- The deframer (R33 to R38) with its two containers `RX` and `OUT` (R60). -/
structure Deframer where
  i            : Nat
  start        : Nat
  j            : Nat
  framesOk     : Nat
  framesFailed : Nat
  phase        : DfPhase
  crcReg       : Checksum
  dsOnes       : Fin 6
  rx           : BitSeq
  out          : BitSeq
  deriving DecidableEq, Repr

/-- One event of a program (95_test_vectors.md section 7; D1). -/
inductive Event where
  /-- The host does one action: a command word, a write of `SRC`, `RX` or `fr.chunk_size`, or waiting while a unit runs. -/
  | act (a : Action)
  /-- A busy unit takes the step its phase selects (R100); a unit that is not busy takes none. -/
  | turn (u : Sequencer)
  /-- The host calls a whole-sequence operation, given by its expansion (R101, R102). -/
  | call (actions : List Action)
  /-- A wire item arrives at the deframer's input, after the bits `RX` holds. -/
  | wire (bits : BitSeq)
  /-- The host writes the read-only view `FR_STATUS` (R40). -/
  | writeFrStatus (v : BitVec 3)
  /-- The host writes the read-only view `DF_STATUS` (R40). -/
  | writeDfStatus (v : BitVec 3)
  deriving DecidableEq, Repr

/-- The host's side of the command port, no part of the block: what is still to happen, in order, and the values that
`CRC.READ` has handed back, oldest first. -/
structure HostPort where
  events   : List Event
  returned : List Checksum
  deriving DecidableEq, Repr

/-- The state of the machine: the disjoint union of the five units' states (R20), with the implementation's open parameters
(R7; no event writes them) and the host's side of the command port. -/
structure State where
  params : Config.Params
  crc    : CrcUnit
  st     : Stuffer
  ds     : Destuffer
  fr     : Framer
  df     : Deframer
  host   : HostPort
  deriving DecidableEq, Repr

/-- A stop that is a defect of the state itself. -/
inductive Fault where
  /-- A `MemRead` outside its container (R63). Raised by `DF.CHECK` alone, when `df.start` or `df.j` lies past the end of `RX`,
  which no run reaches; the other three steps test their range first. Safe: the machine stops where the spec defines no
  read. -/
  | readOutsideContainer
  deriving DecidableEq, Repr

/-- The situations to which the spec gives no meaning (R226), and the instructions that have none yet. -/
inductive Refusal where
  /-- An instruction without a meaning in this model; raised by `exec`'s arms alone. Safe: nothing is claimed of it. -/
  | notModelled (mnemonic : String)
  /-- An encoding that names no operation (R103, U1); raised by the fetch of an event. Safe: errs toward unprovable (D4). -/
  | undecodable (why : Reject)
  /-- `FR.START` with a non-empty source and `fr.chunk_size` = 0 (R105, U2); raised by `FR.START` and `encode`. Safe (D7). -/
  | chunkSizeZero
  /-- `FR.START`, or a host write of `SRC` or `fr.chunk_size`, while the framer is in phase RUN (R261, R262, U3, U5). Safe. -/
  | framerBusy
  /-- `DF.START`, or a host write of `RX`, while the deframer is in phase HUNT, SEEK or CHECK (R261, R262, U3, U5). Safe. -/
  | deframerBusy
  /-- A phase-selected step executed in a phase that does not select it (R100); raised by the four S meanings, never by
  `step`. Safe: the spec has no such event. -/
  | stepNotSelected
  /-- `FR.FRAME` in phase RUN without R174's precondition, in states no run reaches. Safe. -/
  | framePrecondition
  /-- An event whose result would exceed a capacity or a width of `params` (R64, U4); with unbounded parameters it is never
  raised. Safe (D5, D6). -/
  | capacityExceeded
  deriving DecidableEq, Repr

/-- The reset value of the checksum unit (R43). -/
def CrcUnit.reset : CrcUnit := { reg := 0xFFFF#16 }

/-- The reset value of the stuffer (R43). -/
def Stuffer.reset : Stuffer := { ones := 0, out := [] }

/-- The reset value of the destuffer (R43). -/
def Destuffer.reset : Destuffer := { ones := 0, out := [] }

/-- The reset value of the framer (R43, R250). -/
def Framer.reset : Framer :=
  { chunkSize := 80, k := 0, frameCount := 0, phase := .idle, crcReg := 0xFFFF#16, stOnes := 0, src := [], tx := [] }

/-- The reset value of the deframer (R43, R250). -/
def Deframer.reset : Deframer :=
  { i := 0, start := 0, j := 0, framesOk := 0, framesFailed := 0, phase := .idle, crcReg := 0xFFFF#16, dsOnes := 0,
    rx := [], out := [] }

/-- The machine right after reset or power-on (R43, R250, R251): unbounded parameters, no event pending, nothing handed
back to the host. -/
def State.reset : State :=
  { params := Config.unbounded, crc := CrcUnit.reset, st := Stuffer.reset, ds := Destuffer.reset, fr := Framer.reset,
    df := Deframer.reset, host := { events := [], returned := [] } }

end Sys2Proof.Machine
end

