-- ==== Sys2Proof/Machine/Flags.lean ====
section
/-!
DEFINITION. The status flags and status views (10_state.md R30, R36, R39, R40), all of them functions of the phase
registers, and the phase codes (R31, R37).
-/

namespace Sys2Proof.Machine

/-- The framer's phase code (R31). -/
def FrPhase.code : FrPhase → BitVec 2
  | .idle => 0b00#2
  | .run => 0b01#2
  | .done => 0b10#2
  | .error => 0b11#2

/-- The deframer's phase code (R37). -/
def DfPhase.code : DfPhase → BitVec 3
  | .idle => 0b000#3
  | .hunt => 0b001#3
  | .seek => 0b010#3
  | .check => 0b011#3
  | .done => 0b100#3
  | .aborted => 0b101#3

/-- `fr.input_error` (R30): 1 exactly in phase ERROR. -/
def Framer.inputError (f : Framer) : Bool := decide (f.phase = .error)

/-- `fr.done` (R39): 1 exactly in phase DONE. -/
def Framer.isDone (f : Framer) : Bool := decide (f.phase = .done)

/-- `fr.busy` (R39): 1 exactly in phase RUN. -/
def Framer.busy (f : Framer) : Bool := decide (f.phase = .run)

/-- `df.abort` (R36): 1 exactly in phase ABORTED. -/
def Deframer.abort (d : Deframer) : Bool := decide (d.phase = .aborted)

/-- `df.done` (R39): 1 exactly in phase DONE. -/
def Deframer.isDone (d : Deframer) : Bool := decide (d.phase = .done)

/-- `df.busy` (R39): 1 exactly in phases HUNT, SEEK and CHECK. -/
def Deframer.busy (d : Deframer) : Bool := decide (d.phase = .hunt ∨ d.phase = .seek ∨ d.phase = .check)

/-- Three flags as a status view: bit 2, bit 1, bit 0 (R40). -/
def statusView (b2 b1 b0 : Bool) : BitVec 3 := BitVec.ofBool b2 ++ BitVec.ofBool b1 ++ BitVec.ofBool b0

/-- `FR_STATUS` (R40): `input_error`, `done`, `busy`. -/
def Framer.status (f : Framer) : BitVec 3 := statusView f.inputError f.isDone f.busy

/-- `DF_STATUS` (R40): `abort`, `done`, `busy`. -/
def Deframer.status (d : Deframer) : BitVec 3 := statusView d.abort d.isDone d.busy

/-- A unit is busy: it has a step of its own to take (R100, R272). -/
def State.busy (s : State) : Sequencer → Bool
  | .framer => s.fr.busy
  | .deframer => s.df.busy

end Sys2Proof.Machine
end

