-- ==== Sys2Proof/Machine/Ops.lean ====
section
/-!
DEFINITION. The named operations over containers and registers (20_memory.md R61, R63), the check against the open
parameters (R64), taking a condition (60_exceptions.md R220 to R230) as one operation, and the host's writes (R254, R255).
There is no return from a condition (R232): a stopped unit is restarted by a `START` or by `RST`.
-/

namespace Sys2Proof.Machine

/-- The outcome of one event. -/
abbrev Result := Host.Outcome State Fault Refusal

/-- Continue from a next state; a stop stays a stop. -/
def andThen (r : Result) (f : State → Result) : Result :=
  match r with
  | .next s => f s
  | .fault e => .fault e
  | .refused e => .refused e

/-! ## Containers -/

/-- `MemRead(C, a, n)` (R11, R63): the slice `C[a : a+n]`, defined only for `a + n <= len(C)`. -/
def memRead (c : BitSeq) (a n : Nat) : Option BitSeq :=
  if a + n ≤ c.length then some (slice c a (a + n)) else none

/-- `MemAppend(C, s)` (R11, R61): push at the end. -/
def memAppend (c s : BitSeq) : BitSeq := c ++ s

/-! ## The open parameters -/

/-- A container's length is representable and within its capacity (R7, R64). -/
def holds (p : Config.Params) (cap : Option Nat) (c : BitSeq) : Bool :=
  Config.within cap c.length && Config.inWidth p.idxW c.length

/-- The stuffer's stream has a representable length (R7). -/
def Stuffer.fits (p : Config.Params) (u : Stuffer) : Bool := holds p none u.out

/-- The destuffer's stream has a representable length (R7). -/
def Destuffer.fits (p : Config.Params) (u : Destuffer) : Bool := holds p none u.out

/-- The framer's registers and containers are within the parameters (R7, R64, D5, D6). -/
def Framer.fits (p : Config.Params) (f : Framer) : Bool :=
  holds p p.srcCap f.src && holds p p.txCap f.tx && Config.inWidth p.idxW f.chunkSize && Config.inWidth p.idxW f.k
    && Config.inWidth p.cntW f.frameCount

/-- The deframer's registers and containers are within the parameters (R7, R64, D5, D6). -/
def Deframer.fits (p : Config.Params) (d : Deframer) : Bool :=
  holds p p.rxCap d.rx && holds p p.outCap d.out && Config.inWidth p.idxW d.i && Config.inWidth p.idxW d.start
    && Config.inWidth p.idxW d.j && Config.inWidth p.cntW d.framesOk && Config.inWidth p.cntW d.framesFailed

/-- Take a next state if the unit just written is within the parameters; refuse the event otherwise (R64, U4). -/
def commit (ok : Bool) (t : State) : Result := if ok then .next t else .refused .capacityExceeded

/-- `commit` for an event that wrote the stuffer. -/
def commitStuffer (t : State) : Result := commit (t.st.fits t.params) t

/-- `commit` for an event that wrote the destuffer. -/
def commitDestuffer (t : State) : Result := commit (t.ds.fits t.params) t

/-- `commit` for an event that wrote the framer. -/
def commitFramer (t : State) : Result := commit (t.fr.fits t.params) t

/-- `commit` for an event that wrote the deframer. -/
def commitDeframer (t : State) : Result := commit (t.df.fits t.params) t

/-- Every container and register of the machine is within the parameters: the canonical form of this machine's memory. A
list of bits has one form only, so nothing else can differ between equal containers. -/
def Memory.wf (s : State) : Bool :=
  s.st.fits s.params && s.ds.fits s.params && s.fr.fits s.params && s.df.fits s.params

/-! ## Conditions -/

/-- The conditions of R220 and R225. -/
inductive Condition where
  | none
  | inputError
  | shortPayloadAbort
  | crcMismatch
  | truncation
  deriving DecidableEq, Repr

/-- The label of a condition (R225). No register holds it. -/
def Condition.code : Condition → Nat
  | .none => 0
  | .inputError => 1
  | .shortPayloadAbort => 2
  | .crcMismatch => 3
  | .truncation => 4

/-- Whether a condition stops the operation (R225). -/
def Condition.stops : Condition → Bool
  | .none => false
  | .inputError => true
  | .shortPayloadAbort => true
  | .crcMismatch => false
  | .truncation => true

/-- Taking a condition: the phase, containers, counters and cursors it leaves, row by row of R230 (and R221 to R224). -/
def takeCondition (c : Condition) (s : State) : State :=
  match c with
  | .none => s
  | .inputError => { s with fr := { s.fr with phase := .error, tx := [], frameCount := 0, k := 0 } }
  | .shortPayloadAbort => { s with df := { s.df with phase := .aborted } }
  | .crcMismatch =>
    { s with df := { s.df with phase := .hunt, framesFailed := s.df.framesFailed + 1, i := s.df.j + 8 } }
  | .truncation => { s with df := { s.df with phase := .done } }

/-! ## The host's writes -/

/-- The host writes `SRC`, while the framer is not busy (R254, R255, R262). -/
def loadSrc (bits : BitSeq) (s : State) : Result :=
  if s.fr.busy then .refused .framerBusy else commitFramer { s with fr := { s.fr with src := bits } }

/-- The host writes `fr.chunk_size`, while the framer is not busy (R27, R254, R255). -/
def loadChunkSize (n : Nat) (s : State) : Result :=
  if s.fr.busy then .refused .framerBusy else commitFramer { s with fr := { s.fr with chunkSize := n } }

/-- The host writes `RX`, while the deframer is not busy (R254, R255, R262). -/
def loadRx (bits : BitSeq) (s : State) : Result :=
  if s.df.busy then .refused .deframerBusy else commitDeframer { s with df := { s.df with rx := bits } }

/-- Bits arrive at the end of `RX`, while the deframer is not busy: the push of R61, made by the host (R60). -/
def pushRx (bits : BitSeq) (s : State) : Result := loadRx (memAppend s.df.rx bits) s

/-- The host writes a status view: "host read-only; a write is ignored" (R40). -/
def ignoreStatusWrite (s : State) : Result := .next s

/-- One event of a unit per bit of a sequence, index 0 first (R102). -/
def feed (f : Bit → State → Result) : BitSeq → State → Result
  | [], s => .next s
  | b :: bits, s => andThen (f b s) (feed f bits)

end Sys2Proof.Machine
end

