-- ==== Sys2Proof/Machine/Crc.lean ====
section
/-!
DEFINITION. The checksum unit (40_crc16.md R120 to R128). Every operation is defined for every register value.
-/

namespace Sys2Proof.Machine

/-- `CRC.INIT` (R121). -/
def execCrcInit (s : State) : Result := .next { s with crc := { s.crc with reg := Config.crcStart } }

/-- `CRC.SHIFT b` (R122). -/
def execCrcShift (b : Bit) (s : State) : Result :=
  .next { s with crc := { s.crc with reg := Codec.crcShift s.crc.reg b } }

/-- `CRC.FLUSH` (R124). -/
def execCrcFlush (s : State) : Result := .next { s with crc := { s.crc with reg := Codec.crcFlush s.crc.reg } }

/-- `CRC.READ` (R125): the register is handed to the host and stays as it is. -/
def execCrcRead (s : State) : Result :=
  .next { s with host := { s.host with returned := s.host.returned ++ [s.crc.reg] } }

end Sys2Proof.Machine
end

