-- ==== Sys2Proof/Machine/Operands.lean ====
section
/-!
DEFINITION. The operands the two sequencers read (20_memory.md R70): the next chunk of `SRC`, the eight-bit windows of `RX`,
and the payload between two Flags split into data and received Checksum.
-/

namespace Sys2Proof.Machine

/-- The end `e` of the next chunk (R174): the final chunk may be shorter. -/
def Framer.chunkEnd (f : Framer) : Nat := min (f.k + f.chunkSize) f.src.length

/-- The next chunk, `MemRead(SRC, k, e - k)` (R174). -/
def Framer.nextChunk (f : Framer) : Option BitSeq := memRead f.src f.k (f.chunkEnd - f.k)

/-- R174's precondition of `FR.FRAME`. -/
def Framer.chunkReady (f : Framer) : Bool := decide (f.k < f.src.length ∧ 1 ≤ f.chunkSize)

/-- The eight bits at an index of `RX` (R193, R194). -/
def Deframer.window (d : Deframer) (p : Nat) : Option BitSeq := memRead d.rx p 8

/-- The raw payload `RX[start : j]` (R196). -/
def Deframer.payload (d : Deframer) : Option BitSeq := memRead d.rx d.start (d.j - d.start)

/-- The `data` of a destuffed payload: all but its last 16 bits (R197). -/
def payloadData (p : BitSeq) : BitSeq := slice p 0 (p.length - 16)

/-- The received Checksum of a destuffed payload: its last 16 bits, first bit most significant (R197). -/
def payloadCrc (p : BitSeq) : Checksum := Codec.int16 (slice p (p.length - 16) p.length)

end Sys2Proof.Machine
end

