-- ==== Sys2Proof/Machine/Deframing.lean ====
section
/-!
DEFINITION. The deframer's command and its three steps (44_hdlc_deframer.md R192 to R198).
-/

namespace Sys2Proof.Machine

/-- `DF.START` (R192): refused while busy. -/
def execDfStart (s : State) : Result :=
  if s.df.busy then .refused .deframerBusy
  else
    .next { s with df := { s.df with
      out := [], framesOk := 0, framesFailed := 0, i := 0, start := 0, j := 0, phase := .hunt } }

/-- `DF.HUNT` (R193). -/
def execDfHunt (s : State) : Result :=
  if s.df.phase ≠ .hunt then .refused .stepNotSelected
  else if s.df.i + 8 > s.df.rx.length then .next { s with df := { s.df with phase := .done } }
  else
    match s.df.window s.df.i with
    | none => .fault .readOutsideContainer
    | some w =>
      if w ≠ Config.flag then commitDeframer { s with df := { s.df with i := s.df.i + 1 } }
      else commitDeframer { s with df := { s.df with start := s.df.i + 8, j := s.df.i + 8, phase := .seek } }

/-- `DF.SEEK` (R194). -/
def execDfSeek (s : State) : Result :=
  if s.df.phase ≠ .seek then .refused .stepNotSelected
  else if s.df.j + 8 > s.df.rx.length then .next (takeCondition .truncation s)
  else
    match s.df.window s.df.j with
    | none => .fault .readOutsideContainer
    | some w =>
      if w ≠ Config.flag then commitDeframer { s with df := { s.df with j := s.df.j + 1 } }
      else .next { s with df := { s.df with phase := .check } }

/-- The deframer after a frame that verified (R198). -/
def Deframer.accept (d : Deframer) (data : BitSeq) : Deframer :=
  { d with out := memAppend d.out data, framesOk := d.framesOk + 1, i := d.j + 8, phase := .hunt }

/-- The third part of `DF.CHECK` (R198): compare, record, resume. The private checksum register holds `crc16(data)` (R38).
DEDUCED (log 3). -/
def verifyPayload (p : BitSeq) (s : State) : State :=
  let calcCrc := Codec.crc16 (payloadData p)
  let t := { s with df := { s.df with crcReg := calcCrc } }
  if calcCrc ≠ payloadCrc p then takeCondition .crcMismatch t
  else { t with df := t.df.accept (payloadData p) }

/-- `DF.CHECK` (R196 to R198): destuff, test the length, verify. The private destuffer counter ends at 0, "end of raw = end
of input". DEDUCED (log 3). -/
def execDfCheck (s : State) : Result :=
  if s.df.phase ≠ .check then .refused .stepNotSelected
  else
    match s.df.payload with
    | none => .fault .readOutsideContainer
    | some raw =>
      let p := Codec.destuff raw
      let t := { s with df := { s.df with dsOnes := 0 } }
      if p.length < 16 then .next (takeCondition .shortPayloadAbort t)
      else commitDeframer (verifyPayload p t)

end Sys2Proof.Machine
end

