-- ==== Sys2Proof/Machine/Framing.lean ====
section
/-!
DEFINITION. The framer's command and its step (43_hdlc_framer.md R172 to R174).
-/

namespace Sys2Proof.Machine

/-- `FR.START` (R172): refused while busy; the emptiness test comes before the chunk size (R229). -/
def execFrStart (s : State) : Result :=
  if s.fr.busy then .refused .framerBusy
  else if s.fr.src.length = 0 then .next (takeCondition .inputError s)
  else if s.fr.chunkSize = 0 then .refused .chunkSizeZero
  else .next { s with fr := { s.fr with phase := .run, tx := [], frameCount := 0, k := 0 } }

/-- The framer after framing one chunk (R174). Its private register and counter hold what `crc16` of the chunk and `stuff` of
the body leave in them (R32, R173). DEDUCED (log 3). -/
def Framer.afterChunk (f : Framer) (chunk : BitSeq) : Framer :=
  let crc := Codec.crc16 chunk
  let stuffed := Codec.stuffScan (chunk ++ Codec.bits16 crc)
  { f with
    tx := memAppend f.tx (Config.flag ++ stuffed.1 ++ Config.flag)
    frameCount := f.frameCount + 1
    k := f.k + f.chunkSize
    phase := if f.src.length ≤ f.k + f.chunkSize then .done else .run
    crcReg := crc
    stOnes := stuffed.2 }

/-- `FR.FRAME` (R174). -/
def execFrFrame (s : State) : Result :=
  if s.fr.phase ≠ .run then .refused .stepNotSelected
  else if s.fr.chunkReady = false then .refused .framePrecondition
  else
    match s.fr.nextChunk with
    | none => .fault .readOutsideContainer
    | some chunk => commitFramer { s with fr := s.fr.afterChunk chunk }

end Sys2Proof.Machine
end

