-- ==== Sys2Proof/Machine/Stuffing.lean ====
section
/-!
DEFINITION. The stand-alone stuffer (41_bit_stuffer.md R141, R142) and destuffer (42_bit_destuffer.md R156 to R158).
-/

namespace Sys2Proof.Machine

/-- `STUFF.RST` (R141). -/
def execStuffRst (s : State) : Result := .next { s with st := { s.st with ones := 0, out := [] } }

/-- `STUFF.BIT b` (R142). -/
def execStuffBit (b : Bit) (s : State) : Result :=
  let r := Codec.stuffStep s.st.ones b
  commitStuffer { s with st := { s.st with ones := r.2, out := memAppend s.st.out r.1 } }

/-- `DESTUFF.RST` (R156). -/
def execDestuffRst (s : State) : Result := .next { s with ds := { s.ds with ones := 0, out := [] } }

/-- `DESTUFF.BIT b` (R157). -/
def execDestuffBit (b : Bit) (s : State) : Result :=
  let r := Codec.destuffStep s.ds.ones b
  commitDestuffer { s with ds := { s.ds with ones := r.2, out := memAppend s.ds.out r.1 } }

/-- `DESTUFF.END` (R158). -/
def execDestuffEnd (s : State) : Result := .next { s with ds := { s.ds with ones := 0 } }

end Sys2Proof.Machine
end

