-- ==== Sys2Proof/Machine/Sequences.lean ====
section
/-!
DEFINITION. The document's five whole-sequence operations as their expansions into primitives (30_encoding.md R102): each is
one event here that does what its expansion does event by event.
-/

namespace Sys2Proof.Machine

/-- `crc16(bits)` (R102, R126): the value is what `CRC.READ` hands back. -/
def execCrc16 (bits : BitSeq) (s : State) : Result :=
  andThen (andThen (andThen (execCrcInit s) (feed execCrcShift bits)) execCrcFlush) execCrcRead

/-- `stuff(bits)` (R102, R145): the result is `st.out`. -/
def execStuff (bits : BitSeq) (s : State) : Result := andThen (execStuffRst s) (feed execStuffBit bits)

/-- `destuff(bits)` (R102, R161): the result is `ds.out`. -/
def execDestuff (bits : BitSeq) (s : State) : Result :=
  andThen (andThen (execDestuffRst s) (feed execDestuffBit bits)) execDestuffEnd

/-- "`FR.FRAME` repeated while `fr.phase` = RUN" (R102), at most `turns` times. -/
def runFramer : (turns : Nat) → State → Result
  | 0, s => .next s
  | turns + 1, s => if s.fr.busy then andThen (execFrFrame s) (runFramer turns) else .next s

/-- The step that `df.phase` selects (R100); in the other phases there is none. -/
def execDfSelected (s : State) : Result :=
  match s.df.phase with
  | .hunt => execDfHunt s
  | .seek => execDfSeek s
  | .check => execDfCheck s
  | .idle => .next s
  | .done => .next s
  | .aborted => .next s

/-- "the step selected by `df.phase` repeated while it is HUNT, SEEK or CHECK" (R102), at most `turns` times. -/
def runDeframer : (turns : Nat) → State → Result
  | 0, s => .next s
  | turns + 1, s => if s.df.busy then andThen (execDfSelected s) (runDeframer turns) else .next s

/-- `encode(bits, chunkSize)` (R102, R175). A frame takes at least one bit of the source, so `len(bits)` turns are enough. -/
def execEncode (bits : BitSeq) (chunkSize : Nat) (s : State) : Result :=
  andThen (andThen (andThen (loadSrc bits s) (loadChunkSize chunkSize)) execFrStart) (runFramer bits.length)

/-- `decode(bits)` (R102, R200). At most `2 * len(RX) + 2` steps follow `DF.START` (R202). -/
def execDecode (bits : BitSeq) (s : State) : Result :=
  andThen (andThen (loadRx bits s) execDfStart) (runDeframer (2 * bits.length + 2))

end Sys2Proof.Machine
end

