-- ==== Sys2Proof/Machine/System.lean ====
section
/-!
DEFINITION. `RST` (70_reset_and_hazards.md R250), accepted in every phase of every unit.
-/

namespace Sys2Proof.Machine

/-- `RST` (R250): every register and container of the block at its reset value. The implementation's parameters and the
host's side of the command port are no state of the block and stay (logs 2, 4, 5). -/
def execRst (s : State) : Result :=
  .next { s with
    crc := CrcUnit.reset, st := Stuffer.reset, ds := Destuffer.reset, fr := Framer.reset, df := Deframer.reset }

end Sys2Proof.Machine
end

