-- ==== Sys2Proof/Machine/Wire.lean ====
section
/-!
DEFINITION. The four wire items (30_encoding.md R91 to R93, R97). The table calls them wire items and not operations: the
spec gives them as bits that travel from a framer to a deframer and no other effect. Their event here is their arrival at the
deframer's input: the item's bits are pushed onto `RX`, in transmission order, which is a write the host may make while the
deframer is not busy (R60, R61, R78, R255). DESIGN CHOICE (log 1).
-/

namespace Sys2Proof.Machine

/-- `FLAG` (R91) arrives. -/
def execFlag (s : State) : Result := pushRx Config.flag s

/-- A `FRAME` (R92) arrives. -/
def execFrame (chunkData : BitSeq) (s : State) : Result := pushRx (Codec.frameBits chunkData) s

/-- A `CHECKSUM_FIELD` (R66, R97) arrives, most significant bit first. -/
def execChecksumField (c : Checksum) (s : State) : Result := pushRx (Codec.bits16 c) s

/-- A `STUFFED_ZERO` (R93) arrives: the one inserted bit (R90); the five 1 bits before it have arrived already. -/
def execStuffedZero (s : State) : Result := pushRx Config.stuffedZero s

end Sys2Proof.Machine
end

