-- ==== Sys2Proof/Machine/Dispatch.lean ====
section
/-!
DEFINITION. One arm per constructor of `Instr`: what executing it does (00_scope.md R3).
-/

namespace Sys2Proof.Machine

def exec (i : Instr) (s : State) : Host.Outcome State Fault Refusal :=
  match i with
  | .crcInit => Sys2Proof.Machine.execCrcInit s
  | .crcShift b => Sys2Proof.Machine.execCrcShift b s
  | .crcFlush => Sys2Proof.Machine.execCrcFlush s
  | .crcRead => Sys2Proof.Machine.execCrcRead s
  | .stuffRst => Sys2Proof.Machine.execStuffRst s
  | .stuffBit b => Sys2Proof.Machine.execStuffBit b s
  | .destuffRst => Sys2Proof.Machine.execDestuffRst s
  | .destuffBit b => Sys2Proof.Machine.execDestuffBit b s
  | .destuffEnd => Sys2Proof.Machine.execDestuffEnd s
  | .frStart => Sys2Proof.Machine.execFrStart s
  | .dfStart => Sys2Proof.Machine.execDfStart s
  | .rst => Sys2Proof.Machine.execRst s
  | .frFrame => Sys2Proof.Machine.execFrFrame s
  | .dfHunt => Sys2Proof.Machine.execDfHunt s
  | .dfSeek => Sys2Proof.Machine.execDfSeek s
  | .dfCheck => Sys2Proof.Machine.execDfCheck s
  | .crc16 bits => Sys2Proof.Machine.execCrc16 bits s
  | .stuff bits => Sys2Proof.Machine.execStuff bits s
  | .destuff bits => Sys2Proof.Machine.execDestuff bits s
  | .encode bits chunkSize => Sys2Proof.Machine.execEncode bits chunkSize s
  | .decode bits => Sys2Proof.Machine.execDecode bits s
  | .flag => Sys2Proof.Machine.execFlag s
  | .frame chunkData => Sys2Proof.Machine.execFrame chunkData s
  | .checksumField c => Sys2Proof.Machine.execChecksumField c s
  | .stuffedZero => Sys2Proof.Machine.execStuffedZero s

end Sys2Proof.Machine
end

