-- ==== Sys2Proof/Machine/Fetch.lean ====
section
/-!
DEFINITION. What happens next: the hardware fetches no instructions (20_memory.md R77), so the next operation is the next
event of the host's list (95_test_vectors.md section 7) or, where none is pending, the step a busy unit's phase selects
(30_encoding.md R100).
-/

namespace Sys2Proof.Machine

/-- What one step is to do, with the state it does it in. -/
inductive Fetched where
  /-- Execute an instruction. -/
  | run (i : Instr) (s : State)
  /-- The host writes `SRC`. -/
  | writeSrc (bits : BitSeq) (s : State)
  /-- The host writes `fr.chunk_size`. -/
  | writeChunkSize (n : Nat) (s : State)
  /-- The host writes `RX`. -/
  | writeRx (bits : BitSeq) (s : State)
  /-- The host writes a status view. -/
  | writeStatus (s : State)
  /-- Nothing happens in the block. -/
  | idle (s : State)
  /-- The event names no operation. -/
  | reject (why : Reject)
  deriving DecidableEq, Repr

/-- The state with another list of pending events. -/
def State.withEvents (s : State) (events : List Event) : State := { s with host := { s.host with events := events } }

/-- The phase register of a unit, as the format S encoding that selects its step (R100). -/
def State.phaseEncoding (s : State) : Sequencer → Encoding
  | .framer => .framerPhase s.fr.phase.code
  | .deframer => .deframerPhase s.df.phase.code

/-- Execute the operation an encoding names, or report why it names none. -/
def fetchDecoded (e : Encoding) (s : State) : Fetched :=
  match decodeInstr e with
  | .ok i => .run i s
  | .error why => .reject why

/-- The step a unit takes by itself: the one its phase selects, and none in the other phases (R100). -/
def fetchStep (u : Sequencer) (s : State) : Fetched :=
  match decodeInstr (s.phaseEncoding u) with
  | .ok i => .run i s
  | .error _ => .idle s

/-- One action of the host. Waiting for a busy unit leaves the event in place. -/
def fetchAction (a : Action) (rest : List Event) (s : State) : Fetched :=
  match a with
  | .word w => fetchDecoded (.command w) (s.withEvents rest)
  | .loadSrc bits => .writeSrc bits (s.withEvents rest)
  | .loadChunkSize n => .writeChunkSize n (s.withEvents rest)
  | .loadRx bits => .writeRx bits (s.withEvents rest)
  | .run u => if s.busy u then fetchStep u s else .idle (s.withEvents rest)

/-- One event. Bits on the wire follow those that have already arrived at `RX`. -/
def fetchEvent (e : Event) (rest : List Event) (s : State) : Fetched :=
  match e with
  | .act a => fetchAction a rest s
  | .turn u => fetchStep u (s.withEvents rest)
  | .call actions => fetchDecoded (.expansion actions) (s.withEvents rest)
  | .wire bits => fetchDecoded (.wire s.df.rx bits) (s.withEvents rest)
  | .writeFrStatus _ => .writeStatus (s.withEvents rest)
  | .writeDfStatus _ => .writeStatus (s.withEvents rest)

/-- What the next step is to do. With no event pending a busy unit goes on by itself, the framer first (log 5). -/
def fetch (s : State) : Fetched :=
  match s.host.events with
  | e :: rest => fetchEvent e rest s
  | [] => if s.fr.busy then fetchStep .framer s else fetchStep .deframer s

/-- Make the framer's phase select the step of a phase code, with a chunk for `FR.FRAME` to take (R174). -/
def Framer.placePhase (f : Framer) (code : BitVec 2) : Framer :=
  if code = 0b01#2 then
    { f with
      phase := .run
      chunkSize := max f.chunkSize 1
      src := if f.k < f.src.length then f.src else f.src ++ List.replicate (f.k + 1 - f.src.length) false }
  else f

/-- Make the deframer's phase select the step of a phase code. -/
def Deframer.placePhase (d : Deframer) (code : BitVec 3) : Deframer :=
  if code = 0b001#3 then { d with phase := .hunt }
  else if code = 0b010#3 then { d with phase := .seek }
  else if code = 0b011#3 then { d with phase := .check }
  else d

/-- Let bits have arrived at `RX`, unless it ends with them already. -/
def Deframer.placeBefore (d : Deframer) (before : BitSeq) : Deframer :=
  if before.isSuffixOf d.rx then d else { d with rx := d.rx ++ before }

/-- Put an encoded operation where the next step takes it from: an event at the head of the list and, for a phase-selected
step, the phase that selects it; for a wire item, the bits that stand before it in `RX` (logs 1, 5). -/
def State.place (s : State) (e : Encoding) : State :=
  match e with
  | .command w => s.withEvents (.act (.word w) :: s.host.events)
  | .framerPhase code => { s with fr := s.fr.placePhase code }.withEvents (.turn .framer :: s.host.events)
  | .deframerPhase code => { s with df := s.df.placePhase code }.withEvents (.turn .deframer :: s.host.events)
  | .expansion actions => s.withEvents (.call actions :: s.host.events)
  | .wire before bits => { s with df := s.df.placeBefore before }.withEvents (.wire bits :: s.host.events)

end Sys2Proof.Machine
end

