-- ==== Sys2Proof/Machine/Step.lean ====
section
/-!
DEFINITION. One step of the machine: one event (92_eei_decisions.md D1).
-/

namespace Sys2Proof.Machine

/-- One event: what is fetched is done. -/
def step (s : State) : Host.Outcome State Fault Refusal :=
  match fetch s with
  | .run i t => exec i t
  | .writeSrc bits t => loadSrc bits t
  | .writeChunkSize n t => loadChunkSize n t
  | .writeRx bits t => loadRx bits t
  | .writeStatus t => ignoreStatusWrite t
  | .idle t => .next t
  | .reject why => .refused (.undecodable why)

/-- The state with a word of the opcode table placed where the next step takes its operation from. -/
def State.withFetchWord (s : State) (nbits w : Nat) : State := s.place (tableEncoding nbits w)

end Sys2Proof.Machine
end

