-- ==== Sys2Proof/Machine/Reference.lean ====
section
/-!
DEFINITION. The document's whole-sequence functions, each written as the loop its rule prints, with its own counters and
accumulators: `crc16` on naturals (40_crc16.md R126), `stuff` (41_bit_stuffer.md R145), `destuff` (42_bit_destuffer.md R161) and its look-ahead form (R159),
`encode` (43_hdlc_framer.md R175), `decode` (44_hdlc_deframer.md R200). The machine does not run these; claims say that it
computes them. A `while` loop is written with a bound on its turns.
-/

namespace Sys2Proof.Reference

/-- `shift(reg, b)` of R126 on naturals below 65536: doubling, discarding bit 16, and 4129 = 0x1021. -/
def crcShift (reg : Nat) (b : Bit) : Nat :=
  let s := 2 * reg % 65536
  if Bool.xor b (decide (32768 ≤ reg)) then s ^^^ 4129 else s

/-- The loop of `crc16` (R126): the message bits, then sixteen zeros, from 65535 = 0xFFFF. -/
def crc16 (bits : BitSeq) : Nat := (bits ++ List.replicate 16 false).foldl crcShift 65535

/-- The loop of `stuff` (R145). -/
def stuffLoop : BitSeq → Nat → BitSeq → BitSeq
  | [], _, out => out
  | b :: bits, ones, out =>
    if b then
      if ones + 1 = 5 then stuffLoop bits 0 (out ++ [b] ++ [false]) else stuffLoop bits (ones + 1) (out ++ [b])
    else stuffLoop bits 0 (out ++ [b])

/-- `stuff(bits)` (R145). -/
def stuff (bits : BitSeq) : BitSeq := stuffLoop bits 0 []

/-- The loop of `destuff` (R161). -/
def destuffLoop : BitSeq → Nat → BitSeq → BitSeq
  | [], _, out => out
  | b :: bits, ones, out =>
    if ones = 5 ∧ b = false then destuffLoop bits 0 out
    else
      let ones' := if ones = 5 then 0 else ones
      destuffLoop bits (if b then ones' + 1 else 0) (out ++ [b])

/-- `destuff(bits)` (R161). -/
def destuff (bits : BitSeq) : BitSeq := destuffLoop bits 0 []

/-- The loop of the look-ahead form (R159), by the index `k` into `x`; at most `len(x)` turns. -/
def lookAheadLoop (x : BitSeq) : (turns : Nat) → (k ones : Nat) → (out : BitSeq) → BitSeq
  | 0, _, _, out => out
  | turns + 1, k, ones, out =>
    match x[k]? with
    | none => out
    | some true =>
      if ones + 1 = 5 then
        if x[k + 1]? = some false then lookAheadLoop x turns (k + 2) 0 (out ++ [true])
        else lookAheadLoop x turns (k + 1) 0 (out ++ [true])
      else lookAheadLoop x turns (k + 1) (ones + 1) (out ++ [true])
    | some false => lookAheadLoop x turns (k + 1) 0 (out ++ [false])

/-- `destuff` in the document's look-ahead form (R159). -/
def destuffLookAhead (x : BitSeq) : BitSeq := lookAheadLoop x x.length 0 0 []

/-- The loop of `encode` (R175): output so far and frames so far. -/
def encodeLoop (bits : BitSeq) (chunkSize : Nat) : (turns : Nat) → (k : Nat) → (out : BitSeq) → (count : Nat) → BitSeq × Nat
  | 0, _, out, count => (out, count)
  | turns + 1, k, out, count =>
    if k < bits.length then
      let chunk := slice bits k (min (k + chunkSize) bits.length)
      encodeLoop bits chunkSize turns (k + chunkSize)
        (out ++ Config.flag ++ Codec.stuff (chunk ++ Codec.bits16 (Codec.crc16 chunk)) ++ Config.flag) (count + 1)
    else (out, count)

/-- `encode(bits, chunkSize)` (R175) for a non-empty source and a chunk size of at least 1: a turn consumes at least one
bit. -/
def encode (bits : BitSeq) (chunkSize : Nat) : BitSeq × Nat := encodeLoop bits chunkSize bits.length 0 [] 0

/-- What `decode` returns (R200): the data, the two counts and the abort signal. -/
structure Decoded where
  data    : BitSeq
  ok      : Nat
  failed  : Nat
  abort   : Bool
  deriving DecidableEq, Repr

/-- The inner loop of `decode`: the first index from `j` on where the eight bits are the Flag. -/
def seekFlag (bits : BitSeq) : (turns : Nat) → (j : Nat) → Nat
  | 0, j => j
  | turns + 1, j =>
    if j + 8 ≤ bits.length ∧ slice bits j (j + 8) ≠ Config.flag then seekFlag bits turns (j + 1) else j

/-- The outer loop of `decode` (R200). -/
def decodeLoop (bits : BitSeq) : (turns : Nat) → (i : Nat) → (data : BitSeq) → (ok failed : Nat) → Decoded
  | 0, _, data, ok, failed => ⟨data, ok, failed, false⟩
  | turns + 1, i, data, ok, failed =>
    if i + 8 ≤ bits.length then
      if slice bits i (i + 8) ≠ Config.flag then decodeLoop bits turns (i + 1) data ok failed
      else
        let start := i + 8
        let j := seekFlag bits bits.length start
        if j + 8 > bits.length then ⟨data, ok, failed, false⟩
        else
          let p := Codec.destuff (slice bits start j)
          if p.length < 16 then ⟨data, ok, failed, true⟩
          else
            let d := slice p 0 (p.length - 16)
            let rc := Codec.int16 (slice p (p.length - 16) p.length)
            if Codec.crc16 d ≠ rc then decodeLoop bits turns (j + 8) data ok (failed + 1)
            else decodeLoop bits turns (j + 8) (data ++ d) (ok + 1) failed
    else ⟨data, ok, failed, false⟩

/-- `decode(bits)` (R200): every turn moves `i` forward, so `len(bits) + 1` turns are enough. -/
def decode (bits : BitSeq) : Decoded := decodeLoop bits (bits.length + 1) 0 [] 0 0

end Sys2Proof.Reference
end

