-- ==== Sys2Proof/Machine/Streaming.lean ====
section
/-!
DEFINITION. The streaming form of the deframer (44_hdlc_deframer.md R211): one input bit per event, a window of the last
eight bits and the bits since the last opening Flag. It is a realisation beside the normative cursor form, which is the one
the machine runs; a claim says that the two agree.
-/

namespace Sys2Proof.Streaming

/-- The two modes of R211. -/
inductive Mode where
  | hunt
  | inFrame
  deriving DecidableEq, Repr

/-- The state of R211, with the results recorded so far. -/
structure Scanner where
  mode    : Mode := .hunt
  win     : BitSeq := []
  fbuf    : BitSeq := []
  data    : BitSeq := []
  ok      : Nat := 0
  failed  : Nat := 0
  aborted : Bool := false
  deriving DecidableEq, Repr

/-- The last `n` bits of a sequence. -/
def keepLast (n : Nat) (s : BitSeq) : BitSeq := s.drop (s.length - n)

/-- The end of a frame: verify and record as R197 and R198 say, or abort (R211). -/
def closeFrame (fbuf : BitSeq) (s : Scanner) : Scanner :=
  let p := Codec.destuff (fbuf.take (fbuf.length - 8))
  if p.length < 16 then { s with aborted := true }
  else
    let d := slice p 0 (p.length - 16)
    let rc := Codec.int16 (slice p (p.length - 16) p.length)
    if Codec.crc16 d ≠ rc then { s with failed := s.failed + 1 } else { s with data := s.data ++ d, ok := s.ok + 1 }

/-- One input bit (R211). -/
def onBit (s : Scanner) (b : Bit) : Scanner :=
  if s.aborted then s
  else
    let win := keepLast 8 (s.win ++ [b])
    match s.mode with
    | .hunt =>
      if win = Config.flag then { s with mode := .inFrame, win := [], fbuf := [] } else { s with win := win }
    | .inFrame =>
      let fbuf := s.fbuf ++ [b]
      if win = Config.flag then { closeFrame fbuf s with mode := .hunt, win := [], fbuf := fbuf }
      else { s with win := win, fbuf := fbuf }

/-- The whole stream, then its end: bits of an unterminated frame are discarded (R211). -/
def decode (bits : BitSeq) : Reference.Decoded :=
  let s := bits.foldl onBit {}
  ⟨s.data, s.ok, s.failed, s.aborted⟩

end Sys2Proof.Streaming
end

