-- ==== Sys2Proof/Safety.lean ====
section
/-!
DEFINITION. What counts as a safe state, in the terms claims use: the ranges 10_state.md R21 gives the registers, the meaning
of the phases (R31, R37) and the bounds that keep every read inside its container (20_memory.md R63).
-/

namespace Sys2Proof.Machine

/-- The framer's registers agree with its phase (R28, R29, R31). -/
def Framer.Consistent (f : Framer) : Prop :=
  (f.phase = .idle → f.tx = [] ∧ f.frameCount = 0 ∧ f.k = 0) ∧
  (f.phase = .run → f.k < f.src.length ∧ 1 ≤ f.chunkSize ∧ f.k = f.frameCount * f.chunkSize) ∧
  (f.phase = .done → 1 ≤ f.frameCount) ∧
  (f.phase = .error → f.tx = [] ∧ f.frameCount = 0 ∧ f.k = 0)

/-- The deframer's cursors are in range while they are in use (R21, R33, R34), and in CHECK the frame is delimited by two
Flags (R37). -/
def Deframer.Consistent (d : Deframer) : Prop :=
  (d.phase = .idle → d.out = [] ∧ d.framesOk = 0 ∧ d.framesFailed = 0) ∧
  (d.phase = .hunt → d.i ≤ d.rx.length) ∧
  (d.phase = .seek → slice d.rx d.i (d.i + 8) = Config.flag ∧ d.start = d.i + 8 ∧ d.start ≤ d.j ∧ d.j ≤ d.rx.length) ∧
  (d.phase = .check → slice d.rx d.i (d.i + 8) = Config.flag ∧ d.start = d.i + 8 ∧ d.start ≤ d.j ∧
    d.j + 8 ≤ d.rx.length ∧ slice d.rx d.j (d.j + 8) = Config.flag)

/-- The invariant of the machine: legal parameters, everything within them, and both sequencers consistent with their
phases. -/
def State.Inv (s : State) : Prop :=
  s.params.legal = true ∧ Memory.wf s = true ∧ s.fr.Consistent ∧ s.df.Consistent

/-- The unit an operation belongs to (R3); `RST` belongs to all of them, and a wire item arrives at the deframer. -/
inductive HwUnit where
  | crc
  | stuffer
  | destuffer
  | framer
  | deframer
  | all
  deriving DecidableEq, Repr

/-- Which unit an operation acts on (R3). -/
def unitOf : Instr → HwUnit
  | .crcInit => .crc
  | .crcShift _ => .crc
  | .crcFlush => .crc
  | .crcRead => .crc
  | .stuffRst => .stuffer
  | .stuffBit _ => .stuffer
  | .destuffRst => .destuffer
  | .destuffBit _ => .destuffer
  | .destuffEnd => .destuffer
  | .frStart => .framer
  | .dfStart => .deframer
  | .rst => .all
  | .frFrame => .framer
  | .dfHunt => .deframer
  | .dfSeek => .deframer
  | .dfCheck => .deframer
  | .crc16 _ => .crc
  | .stuff _ => .stuffer
  | .destuff _ => .destuffer
  | .encode _ _ => .framer
  | .decode _ => .deframer
  | .flag => .deframer
  | .frame _ => .deframer
  | .checksumField _ => .deframer
  | .stuffedZero => .deframer

/-- Change a next state; a stop stays a stop. -/
def mapNext (f : State → State) (r : Result) : Result := andThen r fun t => .next (f t)

/-- The number of 1 bits at the end of a sequence (R144). -/
def trailingOnes (s : BitSeq) : Nat := (s.reverse.takeWhile fun b => b).length

/-- The phase transitions of the deframer (R199). -/
def dfEdge : DfPhase → DfPhase → Bool
  | _, .idle => true
  | .idle, .hunt => true
  | .done, .hunt => true
  | .aborted, .hunt => true
  | .hunt, .done => true
  | .hunt, .hunt => true
  | .hunt, .seek => true
  | .seek, .done => true
  | .seek, .seek => true
  | .seek, .check => true
  | .check, .aborted => true
  | .check, .hunt => true
  | _, _ => false

/-- Neither sequencer is busy: the host may write every input and start every operation (R255). -/
def State.Quiet (s : State) : Prop := s.fr.busy = false ∧ s.df.busy = false

end Sys2Proof.Machine
end

