-- ==== Sys2Proof/Certificates/Slice0/Obligations.lean ====
section
/-!
DEFINITION. The statements for the provers, from the numbered rules of spec/. A conclusion of the form
`exec i s = .next { s with ... }` says what the instruction writes and, by naming every other field of `s`, that it leaves all
the rest unchanged. A hypothesis `fits` says that the open widths and capacities (00_scope.md R7) are large enough for the
result; where they are not, the event is refused (`CapacityOverrunsAreRefused`), and with unbounded parameters they always
are (`UnboundedNeverExceedsCapacity`).
-/

open Sys2Proof Sys2Proof.Machine

/-! ## The checksum unit -/

/-- R121. -/
def Obligations.CrcInitLoadsAllOnes : Prop :=
  ∀ s : State, exec .crcInit s = .next { s with crc := { reg := 0xFFFF#16 } }

/-- R122: `msb` is bit 15 before the shift; the XOR with 0x1021 is applied after it, when `b xor msb` is 1. -/
def Obligations.CrcShiftStepsTheRegister : Prop :=
  ∀ (b : Bit) (s : State),
    let msb := s.crc.reg.getLsbD 15
    let shifted := s.crc.reg <<< 1
    exec (.crcShift b) s = .next { s with crc := { reg := if b ^^ msb then shifted ^^^ 0x1021#16 else shifted } }

/-- The circuit of the unit, an inference the spec marks as its own (40_crc16.md, "CRC.SHIFT b, bit by bit"): the feedback bit
enters at bits 0, 5 and 12. -/
def Obligations.CrcShiftFeedbackBits : Prop :=
  ∀ (b : Bit) (s t : State), exec (.crcShift b) s = .next t →
    ∀ k : Nat, k < 16 →
      t.crc.reg.getLsbD k =
        (if k = 0 then Bool.xor b (s.crc.reg.getLsbD 15)
         else if k = 5 ∨ k = 12 then Bool.xor (s.crc.reg.getLsbD (k - 1)) (Bool.xor b (s.crc.reg.getLsbD 15))
         else s.crc.reg.getLsbD (k - 1))

/-- R124: sixteen `CRC.SHIFT 0`. -/
def Obligations.CrcFlushIsSixteenZeroShifts : Prop :=
  ∀ s : State, ∃ t : State,
    exec .crcFlush s = .next t ∧ feed (fun b => exec (.crcShift b)) (List.replicate 16 false) s = .next t ∧
      t = { s with crc := t.crc }

/-- `CRC.READ` hands back the register and leaves it, and `crc16(bits)` hands back the value it leaves in the register (40_crc16.md
section 2 and 3; 30_encoding.md section 6). That the values handed back are a list of the host's port is the model's choice
(log 4). -/
def Obligations.CrcReadHandsBackTheRegister : Prop :=
  (∀ s : State,
    exec .crcRead s = .next { s with host := { s.host with returned := s.host.returned ++ [s.crc.reg] } }) ∧
  (∀ (bits : BitSeq) (s t : State), exec (.crc16 bits) s = .next t →
    t.host.returned = s.host.returned ++ [t.crc.reg] ∧ t.crc.reg = Codec.crc16 bits)

/-- R126: whatever the register held, `crc16(bits)` leaves the value of the rule's loop in it; no other unit is touched. -/
def Obligations.Crc16ComputesTheChecksum : Prop :=
  ∀ (bits : BitSeq) (s : State), ∃ t : State,
    exec (.crc16 bits) s = .next t ∧ t.crc.reg.toNat = Reference.crc16 bits ∧
      t.params = s.params ∧ t.st = s.st ∧ t.ds = s.ds ∧ t.fr = s.fr ∧ t.df = s.df ∧ t.host.events = s.host.events

/-- The affine law, an inference the spec marks as its own (40_crc16.md section 4). -/
def Obligations.Crc16IsAffine : Prop :=
  ∀ (x y : BitSeq) (s t u v w : State), x.length = y.length →
    exec (.crc16 (List.zipWith Bool.xor x y)) s = .next t → exec (.crc16 x) s = .next u →
    exec (.crc16 y) s = .next v → exec (.crc16 (List.replicate x.length false)) s = .next w →
    t.crc.reg = u.crc.reg ^^^ v.crc.reg ^^^ w.crc.reg

/-! ## The stuffer -/

/-- R141, R156, R158: the events that begin a scan clear the counter and the output, and the event that ends one clears the
counter alone. -/
def Obligations.ScanMarkersResetTheirUnit : Prop :=
  ∀ s : State,
    exec .stuffRst s = .next { s with st := { ones := 0, out := [] } } ∧
    exec .destuffRst s = .next { s with ds := { ones := 0, out := [] } } ∧
    exec .destuffEnd s = .next { s with ds := { s.ds with ones := 0 } }

/-- R142: the input bit is copied first; after the fifth 1 in a row a 0 follows it and the count restarts. -/
def Obligations.StuffBitCopiesThenInserts : Prop :=
  ∀ (b : Bit) (s : State),
    let u : Stuffer :=
      if b then
        if s.st.ones.val + 1 = 5 then { ones := 0, out := s.st.out ++ [true] ++ [false] }
        else { ones := s.st.ones + 1, out := s.st.out ++ [true] }
      else { ones := 0, out := s.st.out ++ [false] }
    u.fits s.params = true → exec (.stuffBit b) s = .next { s with st := u }

/-- R145: `stuff(bits)` leaves the output of the rule's loop in `st.out`, and touches the stuffer alone. -/
def Obligations.StuffRunsTheRulesLoop : Prop :=
  ∀ (bits : BitSeq) (s : State), Config.inWidth s.params.idxW (Reference.stuff bits).length = true →
    ∃ t : State, exec (.stuff bits) s = .next t ∧ t.st.out = Reference.stuff bits ∧ t = { s with st := t.st }

/-- The counter is the trailing run of ones of the output, an inference the spec marks as its own (41_bit_stuffer.md section 2,
"Invariant of the counter"); here for every instruction. -/
def Obligations.StuffCounterIsTrailingRun : Prop :=
  ∀ (i : Instr) (s t : State), s.st.ones.val = trailingOnes s.st.out → exec i s = .next t →
    t.st.ones.val = trailingOnes t.st.out

/-- R146: no stuffed output holds six 1 bits in a row; runs of exactly five occur. -/
def Obligations.StuffedOutputHasNoSixOnes : Prop :=
  (∀ (bits : BitSeq) (s t : State), exec (.stuff bits) s = .next t → ¬ List.replicate 6 true <:+: t.st.out) ∧
  (∃ (bits : BitSeq) (s t : State), exec (.stuff bits) s = .next t ∧ List.replicate 5 true <:+: t.st.out)

/-- The bounds on the length, an inference the spec marks as its own (41_bit_stuffer.md section 3, "Guarantee on length"). -/
def Obligations.StuffedLengthIsBounded : Prop :=
  ∀ (bits : BitSeq) (s t : State), exec (.stuff bits) s = .next t →
    bits.length ≤ t.st.out.length ∧ t.st.out.length ≤ bits.length + bits.length / 5

/-! ## The destuffer -/

/-- R157: with an inspection pending (counter 5) a 0 is dropped and a 1 is copied and counted from 0; otherwise the bit is
copied and counted. -/
def Obligations.DestuffBitInspectsAfterFive : Prop :=
  ∀ (b : Bit) (s : State),
    let u : Destuffer :=
      if s.ds.ones.val = 5 then
        if b then { ones := 1, out := s.ds.out ++ [true] } else { s.ds with ones := 0 }
      else if b then { ones := s.ds.ones + 1, out := s.ds.out ++ [true] }
      else { ones := 0, out := s.ds.out ++ [false] }
    u.fits s.params = true → exec (.destuffBit b) s = .next { s with ds := u }

/-- R161: `destuff(bits)` leaves the output of the rule's loop in `ds.out`, the counter at 0, and touches the destuffer
alone. -/
def Obligations.DestuffRunsTheRulesLoop : Prop :=
  ∀ (bits : BitSeq) (s : State), Config.inWidth s.params.idxW (Reference.destuff bits).length = true →
    ∃ t : State, exec (.destuff bits) s = .next t ∧ t.ds.out = Reference.destuff bits ∧ t.ds.ones = 0 ∧
      t = { s with ds := t.ds }

/-- The look-ahead form gives the same output, an inference the spec marks as its own (42_bit_destuffer.md section 2,
"Equivalence with the look-ahead form"). -/
def Obligations.DestuffEqualsLookAheadForm : Prop :=
  ∀ (bits : BitSeq) (s t : State), exec (.destuff bits) s = .next t → t.ds.out = Reference.destuffLookAhead bits

/-- Only zeros are ever dropped, so malformed runs of ones pass through (42_bit_destuffer.md sections 1, 2 and 3). -/
def Obligations.DestuffDropsOnlyZeros : Prop :=
  ∀ (bits : BitSeq) (s t : State), exec (.destuff bits) s = .next t →
    List.Sublist t.ds.out bits ∧ t.ds.out.count true = bits.count true

/-- R162: the stuffing law, for every sequence (90_conflicts.md C5), by running the two units one after the other. -/
def Obligations.StuffingLaw : Prop :=
  ∀ (x : BitSeq) (s : State), Config.inWidth s.params.idxW (Reference.stuff x).length = true →
    ∃ t u : State, exec (.stuff x) s = .next t ∧ exec (.destuff t.st.out) t = .next u ∧ u.ds.out = x

/-! ## The framer -/

/-- R172, every branch: refused while busy; the input error on an empty source, whatever the chunk size; refused on a chunk
size of 0; else the phase becomes RUN. -/
def Obligations.FrStartBeginsAnEncode : Prop :=
  ∀ s : State,
    (s.fr.phase = .run → exec .frStart s = .refused .framerBusy) ∧
    (s.fr.phase ≠ .run → s.fr.src = [] →
      exec .frStart s = .next { s with fr := { s.fr with tx := [], frameCount := 0, k := 0, phase := .error } }) ∧
    (s.fr.phase ≠ .run → s.fr.src ≠ [] → s.fr.chunkSize = 0 → exec .frStart s = .refused .chunkSizeZero) ∧
    (s.fr.phase ≠ .run → s.fr.src ≠ [] → 1 ≤ s.fr.chunkSize →
      exec .frStart s = .next { s with fr := { s.fr with tx := [], frameCount := 0, k := 0, phase := .run } })

/-- R174: one Frame for the next chunk. The private register and counter are left to `PrivateUnitsAfterAFrame`. -/
def Obligations.FrFrameEmitsTheNextFrame : Prop :=
  ∀ s : State, s.fr.phase = .run → s.fr.k < s.fr.src.length → 1 ≤ s.fr.chunkSize →
    let e := min (s.fr.k + s.fr.chunkSize) s.fr.src.length
    let chunk := slice s.fr.src s.fr.k e
    let stuffed := Codec.stuff (chunk ++ Codec.bits16 (Codec.crc16 chunk))
    let f : Framer := { s.fr with
      tx := s.fr.tx ++ (Config.flag ++ stuffed ++ Config.flag)
      frameCount := s.fr.frameCount + 1
      k := s.fr.k + s.fr.chunkSize
      phase := if s.fr.src.length ≤ s.fr.k + s.fr.chunkSize then .done else .run }
    f.fits s.params = true →
      ∃ t : State, exec .frFrame s = .next t ∧
        t = { s with fr := { f with crcReg := t.fr.crcReg, stOnes := t.fr.stOnes } }

/-- What the private registers hold after a frame is the model's reading (log 3, DEDUCED): the values the algorithms leave, and
an abort leaves the checksum register alone. -/
def Obligations.PrivateUnitsAfterAFrame : Prop :=
  (∀ s t : State, exec .frFrame s = .next t →
    t.fr.crcReg = Codec.crc16 (slice s.fr.src s.fr.k (min (s.fr.k + s.fr.chunkSize) s.fr.src.length)) ∧
    t.fr.stOnes.val = trailingOnes (t.fr.tx.take (t.fr.tx.length - 8))) ∧
  (∀ s t : State, exec .dfCheck s = .next t → t.df.dsOnes = 0 ∧
    (t.df.phase = .aborted → t.df.crcReg = s.df.crcReg) ∧
    (t.df.phase = .hunt → s.df.start ≤ s.df.j →
      t.df.crcReg = Codec.crc16 (payloadData (Codec.destuff (slice s.df.rx s.df.start s.df.j)))))

/-- R175, every branch: the input error on an empty source (no output, no frames, R221), the refusal of a chunk size of 0, and
else what the rule's loop returns, in `TX` and `fr.frame_count`, with phase DONE. The framer alone is touched. -/
def Obligations.EncodeRunsTheRulesLoop : Prop :=
  ∀ (bits : BitSeq) (c : Nat) (s : State), s.fr.busy = false → s.fr.fits s.params = true →
    (bits = [] → Config.inWidth s.params.idxW c = true →
      exec (.encode bits c) s = .next { s with fr := { s.fr with
        src := [], chunkSize := c, tx := [], frameCount := 0, k := 0, phase := .error } }) ∧
    (bits ≠ [] → c = 0 → ({ s.fr with src := bits } : Framer).fits s.params = true →
      exec (.encode bits c) s = .refused .chunkSizeZero) ∧
    (bits ≠ [] → 1 ≤ c →
      ({ s.fr with
          src := bits, chunkSize := c, tx := (Reference.encode bits c).1, frameCount := (Reference.encode bits c).2,
          k := (Reference.encode bits c).2 * c } : Framer).fits s.params = true →
      ∃ t : State, exec (.encode bits c) s = .next t ∧
        t.fr.tx = (Reference.encode bits c).1 ∧ t.fr.frameCount = (Reference.encode bits c).2 ∧
        t.fr.phase = .done ∧ t.fr.src = bits ∧ t.fr.chunkSize = c ∧ t.fr.k = (Reference.encode bits c).2 * c ∧
        t = { s with fr := t.fr })

/-- The number of frames, an inference the spec marks as its own (43_hdlc_framer.md section 3, "Frame count"). -/
def Obligations.EncodeFrameCountIsCeiling : Prop :=
  ∀ (bits : BitSeq) (c : Nat) (s t : State), bits ≠ [] → 1 ≤ c → exec (.encode bits c) s = .next t →
    t.fr.frameCount = (bits.length + c - 1) / c ∧ 1 ≤ t.fr.frameCount

/-- In a Frame the Flag stands at its two ends and nowhere else, an inference the spec marks as its own (30_encoding.md section
2, "The Flag cannot appear inside a frame"). -/
def Obligations.FlagStandsOnlyAtFrameEnds : Prop :=
  ∀ (chunk : BitSeq) (p : Nat),
    (p + 8 ≤ (Codec.frameBits chunk).length ∧ slice (Codec.frameBits chunk) p (p + 8) = Config.flag) ↔
      (p = 0 ∨ p + 8 = (Codec.frameBits chunk).length)

/-! ## The deframer -/

/-- R192. -/
def Obligations.DfStartBeginsADecode : Prop :=
  ∀ s : State,
    (s.df.phase = .idle ∨ s.df.phase = .done ∨ s.df.phase = .aborted →
      exec .dfStart s = .next { s with df := { s.df with
        out := [], framesOk := 0, framesFailed := 0, i := 0, start := 0, j := 0, phase := .hunt } }) ∧
    (s.df.phase = .hunt ∨ s.df.phase = .seek ∨ s.df.phase = .check → exec .dfStart s = .refused .deframerBusy)

/-- R193, its three cases. -/
def Obligations.DfHuntLooksForAnOpeningFlag : Prop :=
  ∀ s : State, s.df.phase = .hunt →
    let missed : Deframer := { s.df with i := s.df.i + 1 }
    let found : Deframer := { s.df with start := s.df.i + 8, j := s.df.i + 8, phase := .seek }
    (s.df.i + 8 > s.df.rx.length → exec .dfHunt s = .next { s with df := { s.df with phase := .done } }) ∧
    (s.df.i + 8 ≤ s.df.rx.length → slice s.df.rx s.df.i (s.df.i + 8) ≠ Config.flag →
      missed.fits s.params = true → exec .dfHunt s = .next { s with df := missed }) ∧
    (s.df.i + 8 ≤ s.df.rx.length → slice s.df.rx s.df.i (s.df.i + 8) = Config.flag →
      found.fits s.params = true → exec .dfHunt s = .next { s with df := found })

/-- R194, its three cases: running off the end is the silent truncation. -/
def Obligations.DfSeekLooksForTheClosingFlag : Prop :=
  ∀ s : State, s.df.phase = .seek →
    let missed : Deframer := { s.df with j := s.df.j + 1 }
    (s.df.j + 8 > s.df.rx.length → exec .dfSeek s = .next { s with df := { s.df with phase := .done } }) ∧
    (s.df.j + 8 ≤ s.df.rx.length → slice s.df.rx s.df.j (s.df.j + 8) ≠ Config.flag →
      missed.fits s.params = true → exec .dfSeek s = .next { s with df := missed }) ∧
    (s.df.j + 8 ≤ s.df.rx.length → slice s.df.rx s.df.j (s.df.j + 8) = Config.flag →
      exec .dfSeek s = .next { s with df := { s.df with phase := .check } })

/-- R196, R197 and R198. A destuffed payload of fewer than 16 bits aborts, and output, counters and cursors stay as they are.
A longer one is split into data and received Checksum; the data is appended and the frame counted as ok when the recomputed
Checksum agrees, else the frame is counted as failed and its data dropped; the search resumes after the closing Flag. The
private register and counter are left to `PrivateUnitsAfterAFrame`. -/
def Obligations.DfCheckAbortsOrVerifies : Prop :=
  ∀ s : State, s.df.phase = .check → s.df.start ≤ s.df.j → s.df.j ≤ s.df.rx.length →
    let p := Codec.destuff (slice s.df.rx s.df.start s.df.j)
    let data := slice p 0 (p.length - 16)
    let receivedCrc := Codec.int16 (slice p (p.length - 16) p.length)
    let d : Deframer :=
      if Codec.crc16 data ≠ receivedCrc then
        { s.df with framesFailed := s.df.framesFailed + 1, i := s.df.j + 8, phase := .hunt }
      else
        { s.df with out := s.df.out ++ data, framesOk := s.df.framesOk + 1, i := s.df.j + 8, phase := .hunt }
    (p.length < 16 →
      ∃ t : State, exec .dfCheck s = .next t ∧ t.df.abort = true ∧
        t = { s with df := { s.df with phase := .aborted, crcReg := t.df.crcReg, dsOnes := t.df.dsOnes } }) ∧
    (16 ≤ p.length → d.fits s.params = true →
      ∃ t : State, exec .dfCheck s = .next t ∧
        t = { s with df := { d with crcReg := t.df.crcReg, dsOnes := t.df.dsOnes } })

/-- The deframer's phases change along the table of 44_hdlc_deframer.md section 2 ("Control flow of the deframer", an inference
the spec marks as its own) and in no other way, whatever primitive is executed. -/
def Obligations.DeframerFollowsItsTransitions : Prop :=
  ∀ (i : Instr) (s t : State), i.format ≠ .p → exec i s = .next t →
    t.df.phase = s.df.phase ∨ dfEdge s.df.phase t.df.phase = true

/-- R200: `decode(bits)` leaves what the rule's loop returns in `OUT`, the two counters and the abort flag, ends in DONE or
ABORTED, and touches the deframer alone. -/
def Obligations.DecodeRunsTheRulesLoop : Prop :=
  ∀ (bits : BitSeq) (s : State), s.df.busy = false → ({ s.df with rx := bits } : Deframer).fits s.params = true →
    ({ Deframer.reset with
        rx := bits, out := (Reference.decode bits).data, framesOk := (Reference.decode bits).ok,
        framesFailed := (Reference.decode bits).failed } : Deframer).fits s.params = true →
    ∃ t : State, exec (.decode bits) s = .next t ∧
      t.df.out = (Reference.decode bits).data ∧ t.df.framesOk = (Reference.decode bits).ok ∧
      t.df.framesFailed = (Reference.decode bits).failed ∧ t.df.abort = (Reference.decode bits).abort ∧
      t.df.isDone = !(Reference.decode bits).abort ∧ t.df.rx = bits ∧ t = { s with df := t.df }

/-- Every decode that answers has ended, within the steps the meaning allows it; an inference the spec marks as its own
(44_hdlc_deframer.md section 3, "Termination"). -/
def Obligations.DecodeEndsInATerminalPhase : Prop :=
  ∀ (bits : BitSeq) (s t : State), exec (.decode bits) s = .next t → t.df.phase = .done ∨ t.df.phase = .aborted

/-- Two Flags in a row abort the decode, after any bits that hold no earlier Flag; an inference the spec marks as its own
(44_hdlc_deframer.md section 3, "Two Flags in a row abort the decode"). -/
def Obligations.AdjacentFlagsAbort : Prop :=
  ∀ (garbage rest : BitSeq) (s t : State),
    (∀ p : Nat, p < garbage.length → slice (garbage ++ Config.flag) p (p + 8) ≠ Config.flag) →
    exec (.decode (garbage ++ Config.flag ++ Config.flag ++ rest)) s = .next t →
    t.df.phase = .aborted ∧ t.df.out = [] ∧ t.df.framesOk = 0 ∧ t.df.framesFailed = 0

/-- R231: a step of the deframer never takes back validated output, a frame that fails its Checksum adds no data and does not
stop the decode, and an abort or an end of the stream leaves the results as they are. -/
def Obligations.ValidatedOutputIsKept : Prop :=
  ∀ (i : Instr) (s t : State), i = .dfHunt ∨ i = .dfSeek ∨ i = .dfCheck → exec i s = .next t →
    s.df.out <+: t.df.out ∧
    (t.df.framesFailed ≠ s.df.framesFailed → t.df.out = s.df.out ∧ t.df.phase = .hunt) ∧
    (t.df.out ≠ s.df.out → t.df.framesOk = s.df.framesOk + 1) ∧
    (t.df.phase = .aborted ∨ t.df.phase = .done →
      t.df.out = s.df.out ∧ t.df.framesOk = s.df.framesOk ∧ t.df.framesFailed = s.df.framesFailed)

/-- The round trip (44_hdlc_deframer.md section 3, "Round trip"), through both sequencers. The rule quotes its source for the
data and for the number of frames produced; the counts of the decode, the absence of an abort and the reasons are an inference
the spec marks as its own. -/
def Obligations.RoundTrip : Prop :=
  ∀ (D : BitSeq) (c : Nat) (s : State), D ≠ [] → 1 ≤ c → s.params = Config.unbounded → s.Quiet →
    ∃ t u : State, exec (.encode D c) s = .next t ∧ exec (.decode t.fr.tx) t = .next u ∧
      u.df.out = D ∧ t.fr.frameCount = (D.length + c - 1) / c ∧ u.df.framesOk = (D.length + c - 1) / c ∧
      u.df.framesFailed = 0 ∧ u.df.phase = .done

/-- The streaming form gives the same results as the machine's cursor form, an inference the spec marks as its own
(44_hdlc_deframer.md section 4). -/
def Obligations.StreamingFormAgrees : Prop :=
  ∀ (bits : BitSeq) (s t : State), exec (.decode bits) s = .next t →
    Streaming.decode bits = ⟨t.df.out, t.df.framesOk, t.df.framesFailed, t.df.abort⟩

/-! ## Reset, status, conditions -/

/-- R250: every register and container of the block, in every phase of every unit. -/
def Obligations.RstClearsEveryUnit : Prop :=
  ∀ s : State, ∃ t : State, exec .rst s = .next t ∧
    t = { params := t.params
          host := t.host
          crc := { reg := 0xFFFF#16 }
          st := { ones := 0, out := [] }
          ds := { ones := 0, out := [] }
          fr := { chunkSize := 80, k := 0, frameCount := 0, phase := .idle, crcReg := 0xFFFF#16, stOnes := 0, src := [],
                  tx := [] }
          df := { i := 0, start := 0, j := 0, framesOk := 0, framesFailed := 0, phase := .idle, crcReg := 0xFFFF#16,
                  dsOnes := 0, rx := [], out := [] } }

/-- R251: the state after power-on is the state after `RST`. -/
def Obligations.PowerOnStateIsTheStateAfterRst : Prop :=
  ∀ s : State, ∃ t : State, exec .rst s = .next t ∧
    t = { State.reset with params := t.params, host := t.host }

/-- R30, R36, R39 and R40: each status bit is 1 exactly in the phases its rule names, in its place in the view, and at most
one bit of a view is 1. -/
def Obligations.StatusViewsMirrorThePhases : Prop :=
  ∀ s : State,
    (s.fr.status.getLsbD 2 = true ↔ s.fr.phase = .error) ∧ (s.fr.status.getLsbD 1 = true ↔ s.fr.phase = .done) ∧
    (s.fr.status.getLsbD 0 = true ↔ s.fr.phase = .run) ∧
    (s.df.status.getLsbD 2 = true ↔ s.df.phase = .aborted) ∧ (s.df.status.getLsbD 1 = true ↔ s.df.phase = .done) ∧
    (s.df.status.getLsbD 0 = true ↔ s.df.phase = .hunt ∨ s.df.phase = .seek ∨ s.df.phase = .check) ∧
    s.fr.status ∈ [0b000#3, 0b001#3, 0b010#3, 0b100#3] ∧ s.df.status ∈ [0b000#3, 0b001#3, 0b010#3, 0b100#3]

/-- The host's writes (70_reset_and_hazards.md section 2; 10_state.md sections 5 and 7): `SRC`, `fr.chunk_size` and `RX` are
written while their unit is not busy, refused then if the open widths and capacities cannot hold the value (20_memory.md section
1, "Capacity"), and refused while the unit is busy; a write of a status view changes nothing. That these writes are events is
the model's choice (log 8), and what the parameters bound too (log 2). -/
def Obligations.HostWritesInputsOfIdleUnits : Prop :=
  ∀ (s : State) (rest : List Event) (bits : BitSeq) (n : Nat) (v : BitVec 3),
    (s.fr.busy = false → ({ s.fr with src := bits } : Framer).fits s.params = true →
      step (s.withEvents (.act (.loadSrc bits) :: rest)) =
        .next { s.withEvents rest with fr := { s.fr with src := bits } }) ∧
    (s.fr.busy = false → ({ s.fr with chunkSize := n } : Framer).fits s.params = true →
      step (s.withEvents (.act (.loadChunkSize n) :: rest)) =
        .next { s.withEvents rest with fr := { s.fr with chunkSize := n } }) ∧
    (s.df.busy = false → ({ s.df with rx := bits } : Deframer).fits s.params = true →
      step (s.withEvents (.act (.loadRx bits) :: rest)) =
        .next { s.withEvents rest with df := { s.df with rx := bits } }) ∧
    (s.fr.busy = false → ({ s.fr with src := bits } : Framer).fits s.params = false →
      step (s.withEvents (.act (.loadSrc bits) :: rest)) = .refused .capacityExceeded) ∧
    (s.fr.busy = false → ({ s.fr with chunkSize := n } : Framer).fits s.params = false →
      step (s.withEvents (.act (.loadChunkSize n) :: rest)) = .refused .capacityExceeded) ∧
    (s.df.busy = false → ({ s.df with rx := bits } : Deframer).fits s.params = false →
      step (s.withEvents (.act (.loadRx bits) :: rest)) = .refused .capacityExceeded) ∧
    (s.fr.busy = true → step (s.withEvents (.act (.loadSrc bits) :: rest)) = .refused .framerBusy) ∧
    (s.fr.busy = true → step (s.withEvents (.act (.loadChunkSize n) :: rest)) = .refused .framerBusy) ∧
    (s.df.busy = true → step (s.withEvents (.act (.loadRx bits) :: rest)) = .refused .deframerBusy) ∧
    step (s.withEvents (.writeFrStatus v :: rest)) = .next (s.withEvents rest) ∧
    step (s.withEvents (.writeDfStatus v :: rest)) = .next (s.withEvents rest)

/-- R232: a unit that has stopped stays stopped, with its results, until a `START` of its own or `RST`. -/
def Obligations.StoppedUnitsStayStopped : Prop :=
  ∀ (i : Instr) (s t : State), exec i s = .next t → i ≠ .rst →
    (s.fr.phase = .done ∨ s.fr.phase = .error → i ≠ .frStart → (∀ bits c, i ≠ .encode bits c) → t.fr = s.fr) ∧
    (s.df.phase = .done ∨ s.df.phase = .aborted → i ≠ .dfStart → (∀ bits, i ≠ .decode bits) →
      t.df = { s.df with rx := t.df.rx })

/-! ## The units beside each other -/

/-- R20 and R21, writing: an operation other than `RST` writes the state of its own unit only. That only operations of the
checksum unit touch the host's side of the port, and that nothing writes the parameters, is the model's choice (logs 2, 4,
5). -/
def Obligations.OperationsWriteTheirOwnUnit : Prop :=
  ∀ (i : Instr) (s t : State), exec i s = .next t →
    t.params = s.params ∧ t.host.events = s.host.events ∧ (unitOf i ≠ .crc → t.host = s.host) ∧
    (i ≠ .rst →
      (unitOf i ≠ .crc → t.crc = s.crc) ∧ (unitOf i ≠ .stuffer → t.st = s.st) ∧ (unitOf i ≠ .destuffer → t.ds = s.ds) ∧
      (unitOf i ≠ .framer → t.fr = s.fr) ∧ (unitOf i ≠ .deframer → t.df = s.df))

/-- R21, reading: what an operation does does not depend on the state of any other unit. -/
def Obligations.OperationsReadTheirOwnUnit : Prop :=
  ∀ (i : Instr) (s : State) (c : CrcUnit) (st : Stuffer) (ds : Destuffer) (fr : Framer) (df : Deframer),
    (unitOf i = .crc → exec i { s with st := st, ds := ds, fr := fr, df := df } =
      mapNext (fun t => { t with st := st, ds := ds, fr := fr, df := df }) (exec i s)) ∧
    (unitOf i = .stuffer → exec i { s with crc := c, ds := ds, fr := fr, df := df } =
      mapNext (fun t => { t with crc := c, ds := ds, fr := fr, df := df }) (exec i s)) ∧
    (unitOf i = .destuffer → exec i { s with crc := c, st := st, fr := fr, df := df } =
      mapNext (fun t => { t with crc := c, st := st, fr := fr, df := df }) (exec i s)) ∧
    (unitOf i = .framer → exec i { s with crc := c, st := st, ds := ds, df := df } =
      mapNext (fun t => { t with crc := c, st := st, ds := ds, df := df }) (exec i s)) ∧
    (unitOf i = .deframer → exec i { s with crc := c, st := st, ds := ds, fr := fr } =
      mapNext (fun t => { t with crc := c, st := st, ds := ds, fr := fr }) (exec i s))

/-- R74: operations of the framer and of the deframer give the same state in either order. -/
def Obligations.FramerAndDeframerCommute : Prop :=
  ∀ (i j : Instr) (s t u : State), unitOf i = .framer → unitOf j = .deframer →
    exec i s = .next t → exec j s = .next u → ∃ v : State, exec j t = .next v ∧ exec i u = .next v

/-- R61: no command and no autonomous step writes an input container, and each output container only grows, but for the
operations that begin a scan, an encode or a decode and for `RST`. -/
def Obligations.ContainersAreReadOrAppended : Prop :=
  ∀ (i : Instr) (s t : State), i.format = .k ∨ i.format = .s → i ≠ .rst → exec i s = .next t →
    t.fr.src = s.fr.src ∧ t.df.rx = s.df.rx ∧
    (i ≠ .frStart → s.fr.tx <+: t.fr.tx) ∧ (i ≠ .dfStart → s.df.out <+: t.df.out) ∧
    (i ≠ .stuffRst → s.st.out <+: t.st.out) ∧ (i ≠ .destuffRst → s.ds.out <+: t.ds.out)

/-- R262: no event changes the input or the chunk size of a busy unit, unless it resets the unit. -/
def Obligations.InputsAreStableWhileBusy : Prop :=
  ∀ s t : State, step s = .next t →
    (s.fr.busy = true → t.fr.src = s.fr.src ∧ t.fr.chunkSize = s.fr.chunkSize ∨ t.fr = Framer.reset) ∧
    (s.df.busy = true → t.df.rx = s.df.rx ∨ t.df = Deframer.reset)

/-- Wire items arrive at the end of `RX` while the deframer is not busy, and are refused while it is or when `RX` cannot hold
them: the model's choice (log 1), with the bits 30_encoding.md sections 1 and 2 give each item. -/
def Obligations.WireItemsArriveAtRx : Prop :=
  ∀ (s : State) (chunk : BitSeq) (c : Checksum) (i : Instr) (bits : BitSeq),
    (i, bits) ∈
      [(.flag, [false, true, true, true, true, true, true, false]),
       (.frame chunk, Config.flag ++ Codec.stuff (chunk ++ Codec.bits16 (Codec.crc16 chunk)) ++ Config.flag),
       (.checksumField c, (List.range 16).map fun k => c.getLsbD (15 - k)),
       (.stuffedZero, [false])] →
    let d : Deframer := { s.df with rx := s.df.rx ++ bits }
    (s.df.busy = false → d.fits s.params = true → exec i s = .next { s with df := d }) ∧
    (s.df.busy = false → d.fits s.params = false → exec i s = .refused .capacityExceeded) ∧
    (s.df.busy = true → exec i s = .refused .deframerBusy)

/-! ## Encodings and steps -/

/-- R66 and R97: `bits16` and `int16` undo each other, and bit 15 goes first. -/
def Obligations.ChecksumBitOrder : Prop :=
  (∀ (v : Checksum) (k : Nat), k < 16 → (Codec.bits16 v)[k]? = some (v.getLsbD (15 - k))) ∧
  (∀ v : Checksum, Codec.int16 (Codec.bits16 v) = v) ∧
  (∀ s : BitSeq, s.length = 16 → Codec.bits16 (Codec.int16 s) = s)

/-- Decoding the encoding of a well-formed instruction gives it back, with every operand at every value. That an encoding
carries its format is the model's choice (log 6). -/
def Obligations.DecodeOfEncode : Prop :=
  ∀ i : Instr, wellFormed i = true → decodeInstr (encodeInstr i) = .ok i

/-- R99 and R103: the command table, word by word; every other command word is reserved, and a step that meets one refuses
it. -/
def Obligations.CommandWordsDecodeAsTheTableSays : Prop :=
  (decodeInstr (.command 0b000000#6) = .ok .crcInit ∧
    decodeInstr (.command 0b000010#6) = .ok (.crcShift false) ∧ decodeInstr (.command 0b000011#6) = .ok (.crcShift true) ∧
    decodeInstr (.command 0b000100#6) = .ok .crcFlush ∧ decodeInstr (.command 0b000110#6) = .ok .crcRead ∧
    decodeInstr (.command 0b001000#6) = .ok .stuffRst ∧
    decodeInstr (.command 0b001010#6) = .ok (.stuffBit false) ∧ decodeInstr (.command 0b001011#6) = .ok (.stuffBit true) ∧
    decodeInstr (.command 0b010000#6) = .ok .destuffRst ∧
    decodeInstr (.command 0b010010#6) = .ok (.destuffBit false) ∧
    decodeInstr (.command 0b010011#6) = .ok (.destuffBit true) ∧
    decodeInstr (.command 0b010100#6) = .ok .destuffEnd ∧ decodeInstr (.command 0b011000#6) = .ok .frStart ∧
    decodeInstr (.command 0b100000#6) = .ok .dfStart ∧ decodeInstr (.command 0b111111#6) = .ok .rst) ∧
  ∀ (w : BitVec 6) (s : State) (rest : List Event),
    w ∉ [0b000000#6, 0b000010#6, 0b000011#6, 0b000100#6, 0b000110#6, 0b001000#6, 0b001010#6, 0b001011#6, 0b010000#6,
         0b010010#6, 0b010011#6, 0b010100#6, 0b011000#6, 0b100000#6, 0b111111#6] →
    step (s.withEvents (.act (.word w) :: rest)) = .refused (.undecodable (.reservedCommand w))

/-- A step runs the decoded instruction: a command word, a whole-sequence call or a wire item at the head of the pending events
is taken off the list and executed; wire bits are decoded after those that `RX` already holds. That events are a list in the
state, and that wire bits arrive at `RX`, is the model's choice (logs 1, 5). -/
def Obligations.StepRunsTheDecodedInstruction : Prop :=
  ∀ (i : Instr) (s : State) (rest : List Event),
    (∀ w : BitVec 6, decodeInstr (.command w) = .ok i →
      step (s.withEvents (.act (.word w) :: rest)) = exec i (s.withEvents rest)) ∧
    (∀ actions : List Action, decodeInstr (.expansion actions) = .ok i →
      step (s.withEvents (.call actions :: rest)) = exec i (s.withEvents rest)) ∧
    (∀ bits : BitSeq, decodeInstr (.wire s.df.rx bits) = .ok i →
      step (s.withEvents (.wire bits :: rest)) = exec i (s.withEvents rest))

/-- The phase register alone selects the step a unit takes, with no command from the host, and in the other phases it takes none
(30_encoding.md section 5). That a unit's turn is an event taken off the list, and that a turn of a unit that is not busy
changes nothing but the list, is the model's choice (log 5). -/
def Obligations.PhaseSelectsTheStep : Prop :=
  ∀ (s : State) (rest : List Event),
    (s.fr.phase = .run → step (s.withEvents (.turn .framer :: rest)) = exec .frFrame (s.withEvents rest)) ∧
    (s.fr.phase ≠ .run → step (s.withEvents (.turn .framer :: rest)) = .next (s.withEvents rest)) ∧
    (s.df.phase = .hunt → step (s.withEvents (.turn .deframer :: rest)) = exec .dfHunt (s.withEvents rest)) ∧
    (s.df.phase = .seek → step (s.withEvents (.turn .deframer :: rest)) = exec .dfSeek (s.withEvents rest)) ∧
    (s.df.phase = .check → step (s.withEvents (.turn .deframer :: rest)) = exec .dfCheck (s.withEvents rest)) ∧
    (s.df.phase = .idle ∨ s.df.phase = .done ∨ s.df.phase = .aborted →
      step (s.withEvents (.turn .deframer :: rest)) = .next (s.withEvents rest))

/-- With no event pending a busy unit goes on by itself, and a quiet machine stays as it is. That the framer goes first when
both are busy is the model's choice (log 5); it makes no difference (`FramerAndDeframerCommute`). -/
def Obligations.BusyUnitsGoOnByThemselves : Prop :=
  ∀ s : State, s.host.events = [] →
    (s.fr.busy = true → step s = exec .frFrame s) ∧
    (s.fr.busy = false → s.df.phase = .hunt → step s = exec .dfHunt s) ∧
    (s.fr.busy = false → s.df.phase = .seek → step s = exec .dfSeek s) ∧
    (s.fr.busy = false → s.df.phase = .check → step s = exec .dfCheck s) ∧
    (s.Quiet → step s = .next s)

/-- A phase-selected step executed in a phase that does not select it is refused, and so is one in a state that no run reaches
(log 7); the spec has no such event (30_encoding.md section 5; 20_memory.md section 1; 43_hdlc_framer.md section 2). `DF.HUNT`
and `DF.SEEK` are refused for capacity (log 2) only in states that are beyond the parameters already, as
`CapacityOverrunsAreRefused` says. -/
def Obligations.StepsOutsideTheirPhaseAreRefused : Prop :=
  ∀ s : State,
    (s.fr.phase ≠ .run → exec .frFrame s = .refused .stepNotSelected) ∧
    (s.df.phase ≠ .hunt → exec .dfHunt s = .refused .stepNotSelected) ∧
    (s.df.phase ≠ .seek → exec .dfSeek s = .refused .stepNotSelected) ∧
    (s.df.phase ≠ .check → exec .dfCheck s = .refused .stepNotSelected) ∧
    (s.fr.phase = .run → s.fr.src.length ≤ s.fr.k ∨ s.fr.chunkSize = 0 →
      exec .frFrame s = .refused .framePrecondition) ∧
    (s.df.phase = .check → s.df.rx.length < s.df.start ∨ s.df.rx.length < s.df.j →
      exec .dfCheck s = .fault .readOutsideContainer) ∧
    (s.df.phase = .hunt → s.df.i + 8 ≤ s.df.rx.length → slice s.df.rx s.df.i (s.df.i + 8) ≠ Config.flag →
      ({ s.df with i := s.df.i + 1 } : Deframer).fits s.params = false → exec .dfHunt s = .refused .capacityExceeded) ∧
    (s.df.phase = .hunt → s.df.i + 8 ≤ s.df.rx.length → slice s.df.rx s.df.i (s.df.i + 8) = Config.flag →
      ({ s.df with start := s.df.i + 8, j := s.df.i + 8 } : Deframer).fits s.params = false →
      exec .dfHunt s = .refused .capacityExceeded) ∧
    (s.df.phase = .seek → s.df.j + 8 ≤ s.df.rx.length → slice s.df.rx s.df.j (s.df.j + 8) ≠ Config.flag →
      ({ s.df with j := s.df.j + 1 } : Deframer).fits s.params = false → exec .dfSeek s = .refused .capacityExceeded)

/-- Issuing the expansion of a whole-sequence operation (30_encoding.md section 6) event by event comes to the same as the
operation, whatever the state and whatever events follow. That a call is one event is the model's choice (log 9), and so are
the list of events and the action that waits for a busy unit (log 5). -/
def Obligations.ExpansionsRunAsTheOperation : Prop :=
  ∀ (i : Instr) (actions : List Action) (s : State) (rest : List Event), encodeInstr i = .expansion actions →
    ∃ n : Nat, Host.Core.run Sys2Proof.core n (s.withEvents (actions.map Event.act ++ rest)) = exec i (s.withEvents rest)

/-! ## The machine as a whole -/

/-- Reset meets the invariant. -/
def Obligations.ResetMeetsTheInvariant : Prop := State.reset.Inv

/-- Every step keeps the invariant: legal parameters, everything within them (R64), the framer's registers as its phase says
(R28 to R31), the deframer's cursors in range and its frame delimited by Flags (R21, R33, R34, R37). That the parameters
stand in the state is the model's choice (log 2). -/
def Obligations.StepKeepsTheInvariant : Prop := ∀ s t : State, s.Inv → step s = .next t → t.Inv

/-- No read outside a container, and no step taken without its precondition, from any state that meets the invariant; an
inference the spec marks as its own (20_memory.md section 1, "Bounds"). -/
def Obligations.InvariantStatesNeverFault : Prop :=
  ∀ s : State, s.Inv → (∀ r : Fault, step s ≠ .fault r) ∧ step s ≠ .refused .stepNotSelected ∧
    step s ≠ .refused .framePrecondition

/-- A busy unit always has an enabled step, an inference the spec marks as its own (70_reset_and_hazards.md section 4,
"Progress"). -/
def Obligations.BusyUnitsCanStep : Prop :=
  ∀ (s : State) (u : Sequencer) (rest : List Event), s.Inv → s.params = Config.unbounded → s.busy u = true →
    ∃ t : State, step (s.withEvents (.turn u :: rest)) = .next t ∧ t.host.events = rest

/-- A primitive whose result the open widths and capacities cannot hold is refused, and nothing of it happens (20_memory.md
section 1, "Capacity"; D5, D6). The two steps that only move a cursor inside `RX` always fit where everything fitted before:
a stored length is within the index width. That the capacities and widths are parameters in the state, and which quantities
`IDX_W` bounds, is the model's choice (log 2). -/
def Obligations.CapacityOverrunsAreRefused : Prop :=
  ∀ s : State,
    (∀ b : Bit, Config.inWidth s.params.idxW (s.st.out.length + if b = true ∧ s.st.ones = 4 then 2 else 1) = false →
      exec (.stuffBit b) s = .refused .capacityExceeded) ∧
    (∀ b : Bit, Config.inWidth s.params.idxW (s.ds.out.length + if b = false ∧ s.ds.ones = 5 then 0 else 1) = false →
      exec (.destuffBit b) s = .refused .capacityExceeded) ∧
    (let chunk := slice s.fr.src s.fr.k (min (s.fr.k + s.fr.chunkSize) s.fr.src.length)
     let stuffed := Codec.stuff (chunk ++ Codec.bits16 (Codec.crc16 chunk))
     let f : Framer := { s.fr with
       tx := s.fr.tx ++ (Config.flag ++ stuffed ++ Config.flag)
       frameCount := s.fr.frameCount + 1
       k := s.fr.k + s.fr.chunkSize }
     s.fr.phase = .run → s.fr.k < s.fr.src.length → 1 ≤ s.fr.chunkSize → f.fits s.params = false →
      exec .frFrame s = .refused .capacityExceeded) ∧
    (let p := Codec.destuff (slice s.df.rx s.df.start s.df.j)
     let data := slice p 0 (p.length - 16)
     let receivedCrc := Codec.int16 (slice p (p.length - 16) p.length)
     let d : Deframer :=
       if Codec.crc16 data ≠ receivedCrc then
         { s.df with framesFailed := s.df.framesFailed + 1, i := s.df.j + 8, phase := .hunt }
       else
         { s.df with out := s.df.out ++ data, framesOk := s.df.framesOk + 1, i := s.df.j + 8, phase := .hunt }
     s.df.phase = .check → s.df.start ≤ s.df.j → s.df.j ≤ s.df.rx.length → 16 ≤ p.length → d.fits s.params = false →
      exec .dfCheck s = .refused .capacityExceeded) ∧
    (Memory.wf s = true → exec .dfHunt s ≠ .refused .capacityExceeded ∧ exec .dfSeek s ≠ .refused .capacityExceeded)

/-- With the parameters the spec gives its model, no operation is refused for capacity (00_scope.md section 3; D5, D6).
That the parameters stand in the state is the model's choice (log 2). -/
def Obligations.UnboundedNeverExceedsCapacity : Prop :=
  ∀ (i : Instr) (s : State), s.params = Config.unbounded → exec i s ≠ .refused .capacityExceeded
end

