-- ==== Sys2Proof/Laws/Codec.lean ====
section
/-!
SUPPORT. The small laws of the pure functions: scans compose, and the lengths of serialised values and frames.
-/

namespace Sys2Proof.Codec

@[simp] theorem scan_nil {n : Nat} (u : Fin n → Bit → BitSeq × Fin n) (ones : Fin n) : scan u ones [] = ([], ones) := rfl

theorem scan_cons {n : Nat} (u : Fin n → Bit → BitSeq × Fin n) (ones : Fin n) (b : Bit) (bits : BitSeq) :
    scan u ones (b :: bits) =
      ((u ones b).1 ++ (scan u (u ones b).2 bits).1, (scan u (u ones b).2 bits).2) := rfl

/-- A scan of a concatenation goes on where the scan of the first part stopped. -/
theorem scan_append {n : Nat} (u : Fin n → Bit → BitSeq × Fin n) (ones : Fin n) (xs ys : BitSeq) :
    scan u ones (xs ++ ys) =
      ((scan u ones xs).1 ++ (scan u (scan u ones xs).2 ys).1, (scan u (scan u ones xs).2 ys).2) := by
  induction xs generalizing ones with
  | nil => simp
  | cons b bs ih => simp only [List.cons_append, scan_cons, ih, List.append_assoc]

/-- The stuffer copies a 0 and restarts its count (R142). -/
@[simp] theorem stuffStep_zero (ones : Fin 5) : stuffStep ones false = ([false], 0) := rfl

/-- The stuffer copies a 1, counts it, and inserts a 0 after the fifth (R142). -/
theorem stuffStep_one (ones : Fin 5) :
    stuffStep ones true = if h : ones.val + 1 < 5 then ([true], ⟨ones.val + 1, h⟩) else ([true, false], 0) := rfl

/-- With an inspection pending a 0 is dropped and a 1 is copied and counted (R157, D8). -/
@[simp] theorem destuffStep_pending (b : Bit) : destuffStep 5 b = if b then ([true], 1) else ([], 0) := rfl

/-- With no inspection pending a bit is copied (R157). -/
theorem destuffStep_plain {ones : Fin 6} (h : ones.val < 5) (b : Bit) :
    destuffStep ones b = if b then ([true], ⟨ones.val + 1, by omega⟩) else ([false], 0) := by simp [destuffStep, h]

/-- The stuffer emits one or two bits. -/
theorem stuffStep_length (ones : Fin 5) (b : Bit) :
    1 ≤ (stuffStep ones b).1.length ∧ (stuffStep ones b).1.length ≤ 2 := by
  cases b
  · simp
  · rw [stuffStep_one]; split <;> simp

/-- The destuffer emits at most one bit. -/
theorem destuffStep_length (ones : Fin 6) (b : Bit) : (destuffStep ones b).1.length ≤ 1 := by
  unfold destuffStep; split <;> cases b <;> simp

theorem zeroIsStuffed_iff {before : BitSeq} : zeroIsStuffed before = true ↔ (destuffScan before).2 = 5 := by
  simp [zeroIsStuffed]

/-- A stuffed zero is removed by `destuff` (R93, R157). -/
theorem destuff_drops_stuffed_zero {before : BitSeq} (h : zeroIsStuffed before = true) :
    destuff (before ++ Config.stuffedZero) = destuff before := by
  have h5 : (scan destuffStep 0 before).2 = 5 := zeroIsStuffed_iff.mp h
  simp [destuff, destuffScan, scan_append, Config.stuffedZero, scan_cons, h5]

@[simp] theorem bits16_length (v : Checksum) : (bits16 v).length = 16 := by simp [bits16]

@[simp] theorem frameBody_length (chunk : BitSeq) : (frameBody chunk).length = chunk.length + 16 := by simp [frameBody]

/-- A Frame is its stuffed body between two Flags (R92). -/
theorem frameBits_length (chunk : BitSeq) : (frameBits chunk).length = (stuff (frameBody chunk)).length + 16 := by
  simp [frameBits, Config.flag]

end Sys2Proof.Codec
end

