-- ==== Sys2Proof/Laws/State.lean ====
section
/-!
SUPPORT. One lemma per field for each named update of the state, so that no proof unfolds a record update.
-/

namespace Sys2Proof.Machine

variable (s : State) (e : List Event)

@[simp] theorem State.withEvents_params : (s.withEvents e).params = s.params := rfl
@[simp] theorem State.withEvents_crc : (s.withEvents e).crc = s.crc := rfl
@[simp] theorem State.withEvents_st : (s.withEvents e).st = s.st := rfl
@[simp] theorem State.withEvents_ds : (s.withEvents e).ds = s.ds := rfl
@[simp] theorem State.withEvents_fr : (s.withEvents e).fr = s.fr := rfl
@[simp] theorem State.withEvents_df : (s.withEvents e).df = s.df := rfl
@[simp] theorem State.withEvents_events : (s.withEvents e).host.events = e := rfl
@[simp] theorem State.withEvents_returned : (s.withEvents e).host.returned = s.host.returned := rfl
@[simp] theorem State.withEvents_self : s.withEvents s.host.events = s := rfl
@[simp] theorem State.withEvents_withEvents (e' : List Event) :
    (s.withEvents e).withEvents e' = s.withEvents e' := rfl

variable (c : Condition)

@[simp] theorem takeCondition_params : (takeCondition c s).params = s.params := by cases c <;> rfl
@[simp] theorem takeCondition_crc : (takeCondition c s).crc = s.crc := by cases c <;> rfl
@[simp] theorem takeCondition_st : (takeCondition c s).st = s.st := by cases c <;> rfl
@[simp] theorem takeCondition_ds : (takeCondition c s).ds = s.ds := by cases c <;> rfl
@[simp] theorem takeCondition_host : (takeCondition c s).host = s.host := by cases c <;> rfl

variable (p : BitSeq)

@[simp] theorem verifyPayload_params : (verifyPayload p s).params = s.params := by
  simp only [verifyPayload]; split <;> rfl
@[simp] theorem verifyPayload_crc : (verifyPayload p s).crc = s.crc := by simp only [verifyPayload]; split <;> rfl
@[simp] theorem verifyPayload_st : (verifyPayload p s).st = s.st := by simp only [verifyPayload]; split <;> rfl
@[simp] theorem verifyPayload_ds : (verifyPayload p s).ds = s.ds := by simp only [verifyPayload]; split <;> rfl
@[simp] theorem verifyPayload_fr : (verifyPayload p s).fr = s.fr := by simp only [verifyPayload]; split <;> rfl
@[simp] theorem verifyPayload_host : (verifyPayload p s).host = s.host := by simp only [verifyPayload]; split <;> rfl

variable (f : Framer) (chunk : BitSeq)

@[simp] theorem Framer.afterChunk_src : (f.afterChunk chunk).src = f.src := rfl
@[simp] theorem Framer.afterChunk_chunkSize : (f.afterChunk chunk).chunkSize = f.chunkSize := rfl
@[simp] theorem Framer.afterChunk_k : (f.afterChunk chunk).k = f.k + f.chunkSize := rfl
@[simp] theorem Framer.afterChunk_frameCount : (f.afterChunk chunk).frameCount = f.frameCount + 1 := rfl
@[simp] theorem Framer.afterChunk_crcReg : (f.afterChunk chunk).crcReg = Codec.crc16 chunk := rfl
@[simp] theorem Framer.afterChunk_tx : (f.afterChunk chunk).tx = f.tx ++ Codec.frameBits chunk := rfl
@[simp] theorem Framer.afterChunk_phase :
    (f.afterChunk chunk).phase = if f.src.length ≤ f.k + f.chunkSize then .done else .run := rfl

variable (d : Deframer) (data : BitSeq)

@[simp] theorem Deframer.accept_out : (d.accept data).out = d.out ++ data := rfl
@[simp] theorem Deframer.accept_framesOk : (d.accept data).framesOk = d.framesOk + 1 := rfl
@[simp] theorem Deframer.accept_framesFailed : (d.accept data).framesFailed = d.framesFailed := rfl
@[simp] theorem Deframer.accept_i : (d.accept data).i = d.j + 8 := rfl
@[simp] theorem Deframer.accept_start : (d.accept data).start = d.start := rfl
@[simp] theorem Deframer.accept_j : (d.accept data).j = d.j := rfl
@[simp] theorem Deframer.accept_phase : (d.accept data).phase = .hunt := rfl
@[simp] theorem Deframer.accept_rx : (d.accept data).rx = d.rx := rfl
@[simp] theorem Deframer.accept_crcReg : (d.accept data).crcReg = d.crcReg := rfl
@[simp] theorem Deframer.accept_dsOnes : (d.accept data).dsOnes = d.dsOnes := rfl

end Sys2Proof.Machine
end

