-- ==== Sys2Proof/Laws/Ops.lean ====
section
/-!
SUPPORT. What each shared operation can do, said once: if it answers a next state, then which one and when.
-/

namespace Sys2Proof.Machine

/-- Two next states are equal exactly when the states are. -/
theorem next_inj {s t : State} : (Host.Outcome.next s : Result) = .next t ↔ s = t :=
  ⟨fun h => by cases h; rfl, fun h => by rw [h]⟩

@[simp] theorem andThen_next (s : State) (f : State → Result) : andThen (.next s) f = f s := rfl
@[simp] theorem andThen_fault (e : Fault) (f : State → Result) : andThen (.fault e) f = .fault e := rfl
@[simp] theorem andThen_refused (e : Refusal) (f : State → Result) : andThen (.refused e) f = .refused e := rfl

/-- A composition answers a next state exactly when both parts do. -/
theorem andThen_eq_next {r : Result} {f : State → Result} {u : State} :
    andThen r f = .next u ↔ ∃ t, r = .next t ∧ f t = .next u := by
  cases r with
  | next s => exact ⟨fun h => ⟨s, rfl, h⟩, fun ⟨t, ht, hu⟩ => (by cases ht; exact hu)⟩
  | fault e => exact ⟨fun h => (by cases h), fun ⟨t, ht, _⟩ => (by cases ht)⟩
  | refused e => exact ⟨fun h => (by cases h), fun ⟨t, ht, _⟩ => (by cases ht)⟩

theorem andThen_assoc (r : Result) (f g : State → Result) :
    andThen (andThen r f) g = andThen r fun s => andThen (f s) g := by cases r <;> rfl

/-- A slice within a sequence has the length its bounds say. -/
theorem slice_length {s : BitSeq} {a b : Nat} (h : b ≤ s.length) : (slice s a b).length = b - a := by
  simp only [slice, List.length_take, List.length_drop]; omega

/-- `memRead` answers exactly when the slice lies inside the container (R63). -/
theorem memRead_eq_some {c w : BitSeq} {a n : Nat} :
    memRead c a n = some w ↔ a + n ≤ c.length ∧ w = slice c a (a + n) := by
  unfold memRead
  split
  · next h => exact ⟨fun e => ⟨h, (by cases e; rfl)⟩, fun ⟨_, e⟩ => by rw [e]⟩
  · next h => exact ⟨fun e => (by cases e), fun ⟨h', _⟩ => absurd h' h⟩

theorem memRead_eq_none {c : BitSeq} {a n : Nat} : memRead c a n = none ↔ c.length < a + n := by
  unfold memRead
  split
  · next h => exact ⟨fun e => (by cases e), fun h' => by omega⟩
  · next h => exact ⟨fun _ => by omega, fun _ => rfl⟩

/-- `commit` answers its state exactly when the check holds. -/
theorem commit_eq_next {ok : Bool} {t u : State} : commit ok t = .next u ↔ ok = true ∧ u = t := by
  unfold commit
  cases ok
  · exact ⟨fun h => (by cases h), fun h => (by cases h.1)⟩
  · exact ⟨fun h => ⟨rfl, (by cases h; rfl)⟩, fun h => by rw [h.2]; rfl⟩

@[simp] theorem commit_true (t : State) : commit true t = .next t := rfl

/-- A host write of `SRC` answers only while the framer is not busy, and writes `SRC` alone. -/
theorem loadSrc_eq_next {bits : BitSeq} {s t : State} :
    loadSrc bits s = .next t ↔
      s.fr.busy = false ∧ ({ s.fr with src := bits } : Framer).fits s.params = true ∧
        t = { s with fr := { s.fr with src := bits } } := by
  unfold loadSrc commitFramer
  cases h : s.fr.busy
  · simp only [Bool.false_eq_true, if_false, commit_eq_next, true_and]
  · simp

/-- A host write of `fr.chunk_size` answers only while the framer is not busy, and writes it alone. -/
theorem loadChunkSize_eq_next {n : Nat} {s t : State} :
    loadChunkSize n s = .next t ↔
      s.fr.busy = false ∧ ({ s.fr with chunkSize := n } : Framer).fits s.params = true ∧
        t = { s with fr := { s.fr with chunkSize := n } } := by
  unfold loadChunkSize commitFramer
  cases h : s.fr.busy
  · simp only [Bool.false_eq_true, if_false, commit_eq_next, true_and]
  · simp

/-- A host write of `RX` answers only while the deframer is not busy, and writes `RX` alone. -/
theorem loadRx_eq_next {bits : BitSeq} {s t : State} :
    loadRx bits s = .next t ↔
      s.df.busy = false ∧ ({ s.df with rx := bits } : Deframer).fits s.params = true ∧
        t = { s with df := { s.df with rx := bits } } := by
  unfold loadRx commitDeframer
  cases h : s.df.busy
  · simp only [Bool.false_eq_true, if_false, commit_eq_next, true_and]
  · simp

/-- Bits arriving at `RX` are a write of `RX` with them at its end. -/
theorem pushRx_eq_next {bits : BitSeq} {s t : State} :
    pushRx bits s = .next t ↔
      s.df.busy = false ∧ ({ s.df with rx := s.df.rx ++ bits } : Deframer).fits s.params = true ∧
        t = { s with df := { s.df with rx := s.df.rx ++ bits } } := loadRx_eq_next

@[simp] theorem feed_nil (f : Bit → State → Result) (s : State) : feed f [] s = .next s := rfl

@[simp] theorem feed_cons (f : Bit → State → Result) (b : Bit) (bits : BitSeq) (s : State) :
    feed f (b :: bits) s = andThen (f b s) (feed f bits) := rfl

/-- Feeding two sequences one after the other is feeding their concatenation. -/
theorem feed_append (f : Bit → State → Result) (xs ys : BitSeq) (s : State) :
    feed f (xs ++ ys) s = andThen (feed f xs s) (feed f ys) := by
  induction xs generalizing s with
  | nil => rfl
  | cons b bs ih =>
    simp only [List.cons_append, feed_cons, andThen_assoc]
    congr 1
    funext t
    exact ih t

/-- Whatever each event keeps, a sequence of events keeps. -/
theorem feed_keeps {f : Bit → State → Result} {P : State → Prop} (hf : ∀ b s t, P s → f b s = .next t → P t)
    {bits : BitSeq} {s t : State} (hs : P s) (h : feed f bits s = .next t) : P t := by
  induction bits generalizing s with
  | nil => cases h; exact hs
  | cons b bs ih =>
    obtain ⟨u, hu, ht⟩ := andThen_eq_next.mp h
    exact ih (hf b s u hs hu) ht

/-- Whatever each step of the framer keeps, a run of them keeps. -/
theorem runFramer_keeps {P : State → Prop} (hf : ∀ s t, P s → execFrFrame s = .next t → P t) {turns : Nat} {s t : State}
    (hs : P s) (h : runFramer turns s = .next t) : P t := by
  induction turns generalizing s with
  | zero => cases h; exact hs
  | succ n ih =>
    unfold runFramer at h
    split at h
    · obtain ⟨u, hu, ht⟩ := andThen_eq_next.mp h
      exact ih (hf s u hs hu) ht
    · cases h; exact hs

/-- Whatever each selected step of the deframer keeps, a run of them keeps. -/
theorem runDeframer_keeps {P : State → Prop} (hf : ∀ s t, P s → execDfSelected s = .next t → P t) {turns : Nat}
    {s t : State} (hs : P s) (h : runDeframer turns s = .next t) : P t := by
  induction turns generalizing s with
  | zero => cases h; exact hs
  | succ n ih =>
    unfold runDeframer at h
    split at h
    · obtain ⟨u, hu, ht⟩ := andThen_eq_next.mp h
      exact ih (hf s u hs hu) ht
    · cases h; exact hs

end Sys2Proof.Machine
end

