-- ==== Sys2Proof/Laws/Exec.lean ====
section
/-!
SUPPORT. One inversion lemma per meaning that can stop: exactly when it answers a next state, and which. The meanings without
one here (`CRC.*`, `STUFF.RST`, `DESTUFF.RST`, `DESTUFF.END`, `RST`) answer on every state by definition.
-/

namespace Sys2Proof.Machine

theorem Framer.busy_iff {f : Framer} : f.busy = true ↔ f.phase = .run := by simp [Framer.busy]

theorem Deframer.busy_iff {d : Deframer} : d.busy = true ↔ d.phase = .hunt ∨ d.phase = .seek ∨ d.phase = .check := by
  simp [Deframer.busy]

theorem execStuffBit_eq_next {b : Bit} {s t : State} :
    execStuffBit b s = .next t ↔
      let u : Stuffer := { ones := (Codec.stuffStep s.st.ones b).2, out := s.st.out ++ (Codec.stuffStep s.st.ones b).1 }
      u.fits s.params = true ∧ t = { s with st := u } := commit_eq_next

theorem execDestuffBit_eq_next {b : Bit} {s t : State} :
    execDestuffBit b s = .next t ↔
      let u : Destuffer :=
        { ones := (Codec.destuffStep s.ds.ones b).2, out := s.ds.out ++ (Codec.destuffStep s.ds.ones b).1 }
      u.fits s.params = true ∧ t = { s with ds := u } := commit_eq_next

/-- The two ways `FR.START` answers (R172). -/
theorem execFrStart_eq_next {s t : State} :
    execFrStart s = .next t ↔
      s.fr.phase ≠ .run ∧
        ((s.fr.src = [] ∧ t = takeCondition .inputError s) ∨
          (s.fr.src ≠ [] ∧ s.fr.chunkSize ≠ 0 ∧
            t = { s with fr := { s.fr with phase := .run, tx := [], frameCount := 0, k := 0 } })) := by
  unfold execFrStart
  split
  · next h => simp_all [Framer.busy]
  · next h =>
    have hp : s.fr.phase ≠ .run := by simpa [Framer.busy] using h
    split
    · next h0 =>
      have hs : s.fr.src = [] := List.length_eq_zero_iff.mp h0
      simp [hp, hs, eq_comm]
    · next h0 =>
      have hs : s.fr.src ≠ [] := fun e => h0 (by rw [e]; rfl)
      split
      · next hc => simp [hp, hs, hc]
      · next hc => simp [hp, hs, hc, eq_comm]

/-- With R174's precondition the next chunk is inside `SRC` (R63). -/
theorem Framer.nextChunk_of_ready {f : Framer} (h : f.chunkReady = true) :
    f.nextChunk = some (slice f.src f.k f.chunkEnd) := by
  have h' : f.k < f.src.length ∧ 1 ≤ f.chunkSize := by simpa [Framer.chunkReady] using h
  unfold Framer.nextChunk
  rw [memRead_eq_some]
  have hk : f.k + (f.chunkEnd - f.k) = f.chunkEnd := by unfold Framer.chunkEnd; omega
  rw [hk]
  exact ⟨by unfold Framer.chunkEnd; omega, rfl⟩

/-- When `FR.FRAME` answers, and with which state (R174). -/
theorem execFrFrame_eq_next {s t : State} :
    execFrFrame s = .next t ↔
      s.fr.phase = .run ∧ s.fr.chunkReady = true ∧
        (s.fr.afterChunk (slice s.fr.src s.fr.k s.fr.chunkEnd)).fits s.params = true ∧
        t = { s with fr := s.fr.afterChunk (slice s.fr.src s.fr.k s.fr.chunkEnd) } := by
  unfold execFrFrame
  split
  · next h => simp [h]
  · next h =>
    have hp : s.fr.phase = .run := by simpa using h
    split
    · next hr => simp [hr]
    · next hr =>
      have hr' : s.fr.chunkReady = true := by simpa using hr
      rw [Framer.nextChunk_of_ready hr']
      simp only [hp, hr', true_and]
      exact commit_eq_next

/-- The one way `DF.START` answers (R192). -/
theorem execDfStart_eq_next {s t : State} :
    execDfStart s = .next t ↔
      s.df.busy = false ∧
        t = { s with df := { s.df with
          out := [], framesOk := 0, framesFailed := 0, i := 0, start := 0, j := 0, phase := .hunt } } := by
  unfold execDfStart
  cases h : s.df.busy
  · simp [eq_comm]
  · simp

/-- A window test that has passed its range check reads its eight bits (R63). -/
theorem Deframer.window_of_inside {d : Deframer} {p : Nat} (h : ¬ p + 8 > d.rx.length) :
    d.window p = some (slice d.rx p (p + 8)) := memRead_eq_some.mpr ⟨by omega, rfl⟩

/-- The three ways `DF.HUNT` answers (R193). -/
theorem execDfHunt_eq_next {s t : State} :
    execDfHunt s = .next t ↔
      s.df.phase = .hunt ∧
        ((s.df.i + 8 > s.df.rx.length ∧ t = { s with df := { s.df with phase := .done } }) ∨
          (s.df.i + 8 ≤ s.df.rx.length ∧ slice s.df.rx s.df.i (s.df.i + 8) ≠ Config.flag ∧
            ({ s.df with i := s.df.i + 1 } : Deframer).fits s.params = true ∧
            t = { s with df := { s.df with i := s.df.i + 1 } }) ∨
          (s.df.i + 8 ≤ s.df.rx.length ∧ slice s.df.rx s.df.i (s.df.i + 8) = Config.flag ∧
            ({ s.df with start := s.df.i + 8, j := s.df.i + 8, phase := .seek } : Deframer).fits s.params = true ∧
            t = { s with df := { s.df with start := s.df.i + 8, j := s.df.i + 8, phase := .seek } })) := by
  unfold execDfHunt
  split
  · next h => simp [h]
  · next h =>
    have hp : s.df.phase = .hunt := by simpa using h
    split
    · next hi =>
      have : ¬ s.df.i + 8 ≤ s.df.rx.length := by omega
      simp only [hp, hi, this, true_and, false_and, or_false, next_inj]
      exact eq_comm
    · next hi =>
      have hle : s.df.i + 8 ≤ s.df.rx.length := by omega
      rw [Deframer.window_of_inside hi]
      simp only [hp, hi, hle, true_and, false_and, false_or]
      split
      · next hw => simp only [hw, false_and, or_false, ne_eq, not_false_eq_true, true_and]; exact commit_eq_next
      · next hw =>
        have hw' : slice s.df.rx s.df.i (s.df.i + 8) = Config.flag := by simpa using hw
        simp only [hw', ne_eq, not_true_eq_false, false_and, false_or, true_and]; exact commit_eq_next

/-- The three ways `DF.SEEK` answers (R194). -/
theorem execDfSeek_eq_next {s t : State} :
    execDfSeek s = .next t ↔
      s.df.phase = .seek ∧
        ((s.df.j + 8 > s.df.rx.length ∧ t = takeCondition .truncation s) ∨
          (s.df.j + 8 ≤ s.df.rx.length ∧ slice s.df.rx s.df.j (s.df.j + 8) ≠ Config.flag ∧
            ({ s.df with j := s.df.j + 1 } : Deframer).fits s.params = true ∧
            t = { s with df := { s.df with j := s.df.j + 1 } }) ∨
          (s.df.j + 8 ≤ s.df.rx.length ∧ slice s.df.rx s.df.j (s.df.j + 8) = Config.flag ∧
            t = { s with df := { s.df with phase := .check } })) := by
  unfold execDfSeek
  split
  · next h => simp [h]
  · next h =>
    have hp : s.df.phase = .seek := by simpa using h
    split
    · next hi =>
      have : ¬ s.df.j + 8 ≤ s.df.rx.length := by omega
      simp only [hp, hi, this, true_and, false_and, or_false, next_inj]
      exact eq_comm
    · next hi =>
      have hle : s.df.j + 8 ≤ s.df.rx.length := by omega
      rw [Deframer.window_of_inside hi]
      simp only [hp, hi, hle, true_and, false_and, false_or]
      split
      · next hw => simp only [hw, false_and, or_false, ne_eq, not_false_eq_true, true_and]; exact commit_eq_next
      · next hw =>
        have hw' : slice s.df.rx s.df.j (s.df.j + 8) = Config.flag := by simpa using hw
        simp only [hw', ne_eq, not_true_eq_false, false_and, false_or, true_and, next_inj, eq_comm]

/-- The two ways `DF.CHECK` answers (R196 to R198). -/
theorem execDfCheck_eq_next {s t : State} :
    execDfCheck s = .next t ↔
      s.df.phase = .check ∧ ∃ raw, s.df.payload = some raw ∧
        (((Codec.destuff raw).length < 16 ∧
            t = takeCondition .shortPayloadAbort { s with df := { s.df with dsOnes := 0 } }) ∨
          (16 ≤ (Codec.destuff raw).length ∧
            (verifyPayload (Codec.destuff raw) { s with df := { s.df with dsOnes := 0 } }).df.fits s.params = true ∧
            t = verifyPayload (Codec.destuff raw) { s with df := { s.df with dsOnes := 0 } })) := by
  unfold execDfCheck
  split
  · next h => simp [h]
  · next h =>
    have hp : s.df.phase = .check := by simpa using h
    split
    · next hr => simp [hr]
    · next raw hr =>
      simp only [hp, hr, Option.some.injEq, true_and, exists_eq_left']
      split
      · next hl =>
        have : ¬ 16 ≤ (Codec.destuff raw).length := by omega
        simp only [hl, this, true_and, false_and, or_false, next_inj]
        exact eq_comm
      · next hl =>
        have : 16 ≤ (Codec.destuff raw).length := by omega
        simp only [hl, this, false_and, false_or, true_and]
        unfold commitDeframer
        rw [commit_eq_next, verifyPayload_params]

/-- `DF.CHECK`'s third part changes the deframer alone. -/
theorem verifyPayload_only_df (p : BitSeq) (s : State) : verifyPayload p s = { s with df := (verifyPayload p s).df } := by
  simp only [verifyPayload]; split <;> rfl

/-- What verifying a payload leaves in the deframer (R198). -/
theorem verifyPayload_df (p : BitSeq) (s : State) :
    (verifyPayload p s).df =
      if Codec.crc16 (payloadData p) ≠ payloadCrc p then
        { s.df with crcReg := Codec.crc16 (payloadData p), phase := .hunt, framesFailed := s.df.framesFailed + 1,
                    i := s.df.j + 8 }
      else
        { s.df with crcReg := Codec.crc16 (payloadData p), out := s.df.out ++ payloadData p,
                    framesOk := s.df.framesOk + 1, i := s.df.j + 8, phase := .hunt } := by
  simp only [verifyPayload]; split <;> rfl

/-- The selected step of a busy deframer is one of its three steps (R100). -/
theorem execDfSelected_eq_next {s t : State} (h : execDfSelected s = .next t) :
    execDfHunt s = .next t ∨ execDfSeek s = .next t ∨ execDfCheck s = .next t ∨ t = s := by
  unfold execDfSelected at h
  split at h
  · exact .inl h
  · exact .inr (.inl h)
  · exact .inr (.inr (.inl h))
  all_goals exact .inr (.inr (.inr (next_inj.mp h).symm))

end Sys2Proof.Machine
end

