-- ==== Sys2Proof/Laws/Memory.lean ====
section
/-!
SUPPORT. Every operation over containers keeps `Memory.wf`, and reset memory has it. A container is a list of bits, so two
containers that hold the same bits are equal data; what is left to keep is that everything is within the parameters.
-/

namespace Sys2Proof.Machine

/-- `Memory.wf` taken apart by unit. -/
theorem memory_wf_iff {s : State} :
    Memory.wf s = true ↔
      s.st.fits s.params = true ∧ s.ds.fits s.params = true ∧ s.fr.fits s.params = true ∧ s.df.fits s.params = true := by
  simp only [Memory.wf, Bool.and_eq_true, and_assoc]

theorem reset_memory_wf : Memory.wf State.reset = true := by decide

/-- An event that writes one unit and commits keeps the form, whatever it wrote. -/
theorem commitStuffer_keeps_wf {s t u : State} (h : Memory.wf s = true) (hp : t.params = s.params) (hds : t.ds = s.ds)
    (hfr : t.fr = s.fr) (hdf : t.df = s.df) (hc : commitStuffer t = .next u) : Memory.wf u = true := by
  obtain ⟨hfit, rfl⟩ := commit_eq_next.mp hc
  obtain ⟨-, h2, h3, h4⟩ := memory_wf_iff.mp h
  exact memory_wf_iff.mpr ⟨hfit, by rw [hp, hds]; exact h2, by rw [hp, hfr]; exact h3, by rw [hp, hdf]; exact h4⟩

theorem commitDestuffer_keeps_wf {s t u : State} (h : Memory.wf s = true) (hp : t.params = s.params) (hst : t.st = s.st)
    (hfr : t.fr = s.fr) (hdf : t.df = s.df) (hc : commitDestuffer t = .next u) : Memory.wf u = true := by
  obtain ⟨hfit, rfl⟩ := commit_eq_next.mp hc
  obtain ⟨h1, -, h3, h4⟩ := memory_wf_iff.mp h
  exact memory_wf_iff.mpr ⟨by rw [hp, hst]; exact h1, hfit, by rw [hp, hfr]; exact h3, by rw [hp, hdf]; exact h4⟩

theorem commitFramer_keeps_wf {s t u : State} (h : Memory.wf s = true) (hp : t.params = s.params) (hst : t.st = s.st)
    (hds : t.ds = s.ds) (hdf : t.df = s.df) (hc : commitFramer t = .next u) : Memory.wf u = true := by
  obtain ⟨hfit, rfl⟩ := commit_eq_next.mp hc
  obtain ⟨h1, h2, -, h4⟩ := memory_wf_iff.mp h
  exact memory_wf_iff.mpr ⟨by rw [hp, hst]; exact h1, by rw [hp, hds]; exact h2, hfit, by rw [hp, hdf]; exact h4⟩

theorem commitDeframer_keeps_wf {s t u : State} (h : Memory.wf s = true) (hp : t.params = s.params) (hst : t.st = s.st)
    (hds : t.ds = s.ds) (hfr : t.fr = s.fr) (hc : commitDeframer t = .next u) : Memory.wf u = true := by
  obtain ⟨hfit, rfl⟩ := commit_eq_next.mp hc
  obtain ⟨h1, h2, h3, -⟩ := memory_wf_iff.mp h
  exact memory_wf_iff.mpr ⟨by rw [hp, hst]; exact h1, by rw [hp, hds]; exact h2, by rw [hp, hfr]; exact h3, hfit⟩

theorem loadSrc_keeps_wf {bits : BitSeq} {s t : State} (h : Memory.wf s = true) (hl : loadSrc bits s = .next t) :
    Memory.wf t = true := by
  obtain ⟨-, hfit, rfl⟩ := loadSrc_eq_next.mp hl
  obtain ⟨h1, h2, -, h4⟩ := memory_wf_iff.mp h
  exact memory_wf_iff.mpr ⟨h1, h2, hfit, h4⟩

theorem loadChunkSize_keeps_wf {n : Nat} {s t : State} (h : Memory.wf s = true) (hl : loadChunkSize n s = .next t) :
    Memory.wf t = true := by
  obtain ⟨-, hfit, rfl⟩ := loadChunkSize_eq_next.mp hl
  obtain ⟨h1, h2, -, h4⟩ := memory_wf_iff.mp h
  exact memory_wf_iff.mpr ⟨h1, h2, hfit, h4⟩

theorem loadRx_keeps_wf {bits : BitSeq} {s t : State} (h : Memory.wf s = true) (hl : loadRx bits s = .next t) :
    Memory.wf t = true := by
  obtain ⟨-, hfit, rfl⟩ := loadRx_eq_next.mp hl
  obtain ⟨h1, h2, h3, -⟩ := memory_wf_iff.mp h
  exact memory_wf_iff.mpr ⟨h1, h2, h3, hfit⟩

theorem pushRx_keeps_wf {bits : BitSeq} {s t : State} (h : Memory.wf s = true) (hl : pushRx bits s = .next t) :
    Memory.wf t = true := loadRx_keeps_wf h hl

/-- An empty container is within any parameters. -/
@[simp] theorem holds_nil (p : Config.Params) (cap : Option Nat) : holds p cap [] = true := by
  have h1 : Config.within cap 0 = true := by cases cap <;> simp [Config.within]
  have h2 : Config.inWidth p.idxW 0 = true := by cases h : p.idxW <;> simp [Config.inWidth]
  simp [holds, h1, h2]

/-- Zero is representable in any width. -/
@[simp] theorem inWidth_zero (w : Option Nat) : Config.inWidth w 0 = true := by cases w <;> simp [Config.inWidth]

/-- A smaller number is representable where a larger one is. -/
theorem inWidth_mono {w : Option Nat} {m n : Nat} (h : m ≤ n) (hn : Config.inWidth w n = true) :
    Config.inWidth w m = true := by
  cases w with
  | none => rfl
  | some v => simp only [Config.inWidth, decide_eq_true_eq] at hn ⊢; omega

/-- A shorter container is within the parameters where a longer one is. -/
theorem holds_mono {p : Config.Params} {cap : Option Nat} {a b : BitSeq} (h : a.length ≤ b.length)
    (hb : holds p cap b = true) : holds p cap a = true := by
  simp only [holds, Bool.and_eq_true] at hb ⊢
  refine ⟨?_, inWidth_mono h hb.2⟩
  cases cap with
  | none => rfl
  | some v => have := hb.1; simp only [Config.within, decide_eq_true_eq] at this ⊢; omega

/-- Taking `InputError`, `ShortPayloadAbort` or `Truncation` keeps the form: nothing grows. -/
theorem takeCondition_keeps_wf {c : Condition} {s : State} (hc : c ≠ .crcMismatch) (h : Memory.wf s = true) :
    Memory.wf (takeCondition c s) = true := by
  obtain ⟨h1, h2, h3, h4⟩ := memory_wf_iff.mp h
  refine memory_wf_iff.mpr ?_
  cases c with
  | none => exact ⟨h1, h2, h3, h4⟩
  | crcMismatch => exact absurd rfl hc
  | shortPayloadAbort => exact ⟨h1, h2, h3, h4⟩
  | truncation => exact ⟨h1, h2, h3, h4⟩
  | inputError =>
    refine ⟨h1, h2, ?_, h4⟩
    simp only [Framer.fits, Bool.and_eq_true] at h3
    simp [takeCondition, Framer.fits, h3]

end Sys2Proof.Machine
end

