-- ==== Sys2Proof/Laws/PerInstr.lean ====
section
/-!
SUPPORT. A family of statements about every instruction as syntax: the encoder, which builds words from fields, agrees with
the row's format, match and mask in spec/opcode_table.json and with the width of 30_encoding.md R90, whatever the operands.
-/

namespace Sys2Proof.Laws.MatchMask

/-- The number an encoding spells: a word or a code as it is, wire bits with the first one most significant,
after those that stand before them. -/
def number : Encoding → Nat
  | .command w => w.toNat
  | .framerPhase code => code.toNat
  | .deframerPhase code => code.toNat
  | .expansion _ => 0
  | .wire before bits => Codec.bitsToNat (before ++ bits)

/-- The row's format, and its match and mask where the table gives them. -/
def row : Instr → Format × Option (Nat × Nat)
  | .crcInit => (.k, some (0x00, 0x3F))
  | .crcShift _ => (.k, some (0x02, 0x3E))
  | .crcFlush => (.k, some (0x04, 0x3F))
  | .crcRead => (.k, some (0x06, 0x3F))
  | .stuffRst => (.k, some (0x08, 0x3F))
  | .stuffBit _ => (.k, some (0x0A, 0x3E))
  | .destuffRst => (.k, some (0x10, 0x3F))
  | .destuffBit _ => (.k, some (0x12, 0x3E))
  | .destuffEnd => (.k, some (0x14, 0x3F))
  | .frStart => (.k, some (0x18, 0x3F))
  | .dfStart => (.k, some (0x20, 0x3F))
  | .rst => (.k, some (0x3F, 0x3F))
  | .frFrame => (.s, some (0x1, 0x3))
  | .dfHunt => (.s, some (0x1, 0x7))
  | .dfSeek => (.s, some (0x2, 0x7))
  | .dfCheck => (.s, some (0x3, 0x7))
  | .crc16 _ => (.p, none)
  | .stuff _ => (.p, none)
  | .destuff _ => (.p, none)
  | .encode _ _ => (.p, none)
  | .decode _ => (.p, none)
  | .flag => (.w, some (0x7E, 0xFF))
  | .frame _ => (.w, none)
  | .checksumField _ => (.w, none)
  | .stuffedZero => (.w, some (0x3E, 0x3F))

/-- The width R90 gives the format: 6, 2 or 3, and for wire items 8, `16 + m` (R92), 16 and 1; a sequence has none. -/
def width : Instr → Option Nat
  | .crcInit => some 6
  | .crcShift _ => some 6
  | .crcFlush => some 6
  | .crcRead => some 6
  | .stuffRst => some 6
  | .stuffBit _ => some 6
  | .destuffRst => some 6
  | .destuffBit _ => some 6
  | .destuffEnd => some 6
  | .frStart => some 6
  | .dfStart => some 6
  | .rst => some 6
  | .frFrame => some 2
  | .dfHunt => some 3
  | .dfSeek => some 3
  | .dfCheck => some 3
  | .crc16 _ => none
  | .stuff _ => none
  | .destuff _ => none
  | .encode _ _ => none
  | .decode _ => none
  | .flag => some 8
  | .frame chunkData => some (16 + (Codec.stuff (Codec.frameBody chunkData)).length)
  | .checksumField _ => some 16
  | .stuffedZero => some 1

/-- The encoding has the row's format and its format's width, and meets the row's match under its mask. -/
def Statement (i : Instr) : Prop :=
  (encodeInstr i).format = (row i).1 ∧ i.format = (row i).1 ∧ (encodeInstr i).width = width i ∧
    ∀ m ∈ (row i).2, number (encodeInstr i) &&& m.2 = m.1

theorem crcInit : Statement .crcInit := ⟨rfl, rfl, rfl, by decide⟩
theorem crcShift (b : Bit) : Statement (.crcShift b) := ⟨rfl, rfl, rfl, by cases b <;> decide⟩
theorem crcFlush : Statement .crcFlush := ⟨rfl, rfl, rfl, by decide⟩
theorem crcRead : Statement .crcRead := ⟨rfl, rfl, rfl, by decide⟩
theorem stuffRst : Statement .stuffRst := ⟨rfl, rfl, rfl, by decide⟩
theorem stuffBit (b : Bit) : Statement (.stuffBit b) := ⟨rfl, rfl, rfl, by cases b <;> decide⟩
theorem destuffRst : Statement .destuffRst := ⟨rfl, rfl, rfl, by decide⟩
theorem destuffBit (b : Bit) : Statement (.destuffBit b) := ⟨rfl, rfl, rfl, by cases b <;> decide⟩
theorem destuffEnd : Statement .destuffEnd := ⟨rfl, rfl, rfl, by decide⟩
theorem frStart : Statement .frStart := ⟨rfl, rfl, rfl, by decide⟩
theorem dfStart : Statement .dfStart := ⟨rfl, rfl, rfl, by decide⟩
theorem rst : Statement .rst := ⟨rfl, rfl, rfl, by decide⟩
theorem frFrame : Statement .frFrame := ⟨rfl, rfl, rfl, by decide⟩
theorem dfHunt : Statement .dfHunt := ⟨rfl, rfl, rfl, by decide⟩
theorem dfSeek : Statement .dfSeek := ⟨rfl, rfl, rfl, by decide⟩
theorem dfCheck : Statement .dfCheck := ⟨rfl, rfl, rfl, by decide⟩
theorem crc16 (bits : BitSeq) : Statement (.crc16 bits) := ⟨rfl, rfl, rfl, by simp [row]⟩
theorem stuff (bits : BitSeq) : Statement (.stuff bits) := ⟨rfl, rfl, rfl, by simp [row]⟩
theorem destuff (bits : BitSeq) : Statement (.destuff bits) := ⟨rfl, rfl, rfl, by simp [row]⟩
theorem encode (bits : BitSeq) (chunkSize : Nat) : Statement (.encode bits chunkSize) := ⟨rfl, rfl, rfl, by simp [row]⟩
theorem decode (bits : BitSeq) : Statement (.decode bits) := ⟨rfl, rfl, rfl, by simp [row]⟩
theorem flag : Statement .flag := ⟨rfl, rfl, rfl, by decide⟩
theorem frame (chunkData : BitSeq) : Statement (.frame chunkData) :=
  ⟨rfl, rfl, by simp [encodeInstr, Encoding.width, width, Codec.frameBits_length, Nat.add_comm], by simp [row]⟩
theorem checksumField (c : Checksum) : Statement (.checksumField c) := ⟨rfl, rfl, by simp [encodeInstr, Encoding.width, width], by simp [row]⟩
theorem stuffedZero : Statement .stuffedZero := ⟨rfl, rfl, rfl, by decide⟩

end Sys2Proof.Laws.MatchMask
end

