-- ==== Sys2Proof/Tests/Slice0.lean ====
section
/-!
SUPPORT. Tests of the model and witnesses for the statements. Expected values come from 95_test_vectors.md and from the corner
cases and examples the rules print; encodings are written out by hand from 30_encoding.md. A theorem `test_…` checks one
decoding or one step; a theorem `witness_…` gives a state and operands that meet all the hypotheses of the statement it names,
clause by clause.
-/

namespace Sys2Proof.Tests

open Sys2Proof Sys2Proof.Machine

/-- `n` bits written as a binary number, leftmost first (R10). -/
def seq (n w : Nat) : BitSeq := (List.range n).map fun k => w.testBit (n - 1 - k)

/-- The next state of an outcome, if there is one. -/
def nextOf (r : Result) : Option State :=
  match r with
  | .next s => some s
  | .fault _ => none
  | .refused _ => none

theorem answers {r : Result} (h : (nextOf r).isSome = true) : ∃ t : State, r = .next t := by
  cases r with
  | next s => exact ⟨s, rfl⟩
  | fault _ => exact absurd h Bool.false_ne_true
  | refused _ => exact absurd h Bool.false_ne_true

theorem answersWith {r : Result} (p : State → Bool) (h : (nextOf r).map p = some true) :
    ∃ t : State, r = .next t ∧ p t = true := by
  cases r with
  | next s => exact ⟨s, rfl, Option.some.inj h⟩
  | fault _ => exact nomatch h
  | refused _ => exact nomatch h

/-- The refusal of an outcome, if it is one. -/
def refusalOf (r : Result) : Option Refusal :=
  match r with
  | .next _ => none
  | .fault _ => none
  | .refused e => some e

/-- What an encoding decodes to. -/
def read (e : Encoding) : Option Instr := (decodeInstr e).toOption

/-- The frame of the single data bit 1 (vector E2): Flag, 1, 0x0D2E, Flag. -/
def e2 : BitSeq := seq 33 0b011111101000011010010111001111110

/-- Reset, with a framer that has a source and a chunk size and is about to frame. -/
def framing (src : BitSeq) (chunkSize k : Nat) : State :=
  { State.reset with fr := { Framer.reset with src := src, chunkSize := chunkSize, k := k, phase := .run } }

/-- Reset, with a framer that is not busy and has a source and a chunk size. -/
def loaded (src : BitSeq) (chunkSize : Nat) (phase : FrPhase) : State :=
  { State.reset with fr := { Framer.reset with src := src, chunkSize := chunkSize, phase := phase } }

/-- Reset, with a deframer in a given phase over a given stream. -/
def deframing (rx : BitSeq) (phase : DfPhase) (i start j : Nat) : State :=
  { State.reset with df := { Deframer.reset with rx := rx, phase := phase, i := i, start := start, j := j } }

/-- Reset, with every container length limited to fewer than `2 ^ w`. -/
def narrow (w : Nat) (s : State) : State := { s with params := { idxW := some w } }

/-! ## Well-formedness: the one check, with the term it refuses -/

theorem test_ill_formed_zero_chunk : wellFormed (.encode [true] 0) = false := by decide

theorem test_well_formed_boundaries : wellFormed (.encode [true] 1) = true ∧ wellFormed (.encode [] 0) = true := by decide

/-! ## Decoding, from words written out by hand -/

/-- R99, the checksum unit. -/
theorem test_decode_checksum_unit :
    read (.command 0b000000#6) = some .crcInit ∧ read (.command 0b000010#6) = some (.crcShift false) ∧
    read (.command 0b000011#6) = some (.crcShift true) ∧ read (.command 0b000100#6) = some .crcFlush ∧
    read (.command 0b000110#6) = some .crcRead := by decide

/-- R99, the stuffer. -/
theorem test_decode_stuffer :
    read (.command 0b001000#6) = some .stuffRst ∧ read (.command 0b001010#6) = some (.stuffBit false) ∧
    read (.command 0b001011#6) = some (.stuffBit true) := by decide

/-- R99, the destuffer. -/
theorem test_decode_destuffer :
    read (.command 0b010000#6) = some .destuffRst ∧ read (.command 0b010010#6) = some (.destuffBit false) ∧
    read (.command 0b010011#6) = some (.destuffBit true) ∧ read (.command 0b010100#6) = some .destuffEnd := by decide

/-- R99, the starts and the reset. -/
theorem test_decode_starts_and_reset :
    read (.command 0b011000#6) = some .frStart ∧ read (.command 0b100000#6) = some .dfStart ∧
    read (.command 0b111111#6) = some .rst := by decide

/-- R103: the reserved words it lists by name. -/
theorem test_decode_reserved_words :
    ∀ w ∈ [0b000001#6, 0b000101#6, 0b000111#6, 0b001001#6, 0b010001#6, 0b010101#6, 0b011001#6, 0b100001#6,
           0b001100#6, 0b010110#6, 0b011010#6, 0b100110#6, 0b101000#6, 0b110111#6, 0b111110#6],
      read (.command w) = none := by decide

/-- R103: "The 64 - 15 = 49 command words that match no row". -/
theorem test_decode_counts_reserved_words :
    ((List.range 64).filter fun n => (read (.command (BitVec.ofNat 6 n))).isNone).length = 49 := by decide

/-- R100: the four phase codes, and codes that select no step. -/
theorem test_decode_phase_codes :
    read (.framerPhase 0b01#2) = some .frFrame ∧ read (.deframerPhase 0b001#3) = some .dfHunt ∧
    read (.deframerPhase 0b010#3) = some .dfSeek ∧ read (.deframerPhase 0b011#3) = some .dfCheck ∧
    read (.framerPhase 0b10#2) = none ∧ read (.deframerPhase 0b101#3) = none := by decide

/-- R102, by the command words of programs 1 and 2. -/
theorem test_decode_expansions_of_words :
    read (.expansion [.word 0x00#6, .word 0x03#6, .word 0x02#6, .word 0x03#6, .word 0x04#6, .word 0x06#6]) =
      some (.crc16 [true, false, true]) ∧
    read (.expansion [.word 0x08#6, .word 0x0A#6, .word 0x0B#6]) = some (.stuff [false, true]) ∧
    read (.expansion [.word 0x10#6, .word 0x12#6, .word 0x13#6, .word 0x14#6]) = some (.destuff [false, true]) := by decide

/-- R102, the two sequencers; and a list that is no expansion. -/
theorem test_decode_expansions_of_sequencers :
    read (.expansion [.loadSrc [true], .loadChunkSize 6, .word 0x18#6, .run .framer]) = some (.encode [true] 6) ∧
    read (.expansion [.loadRx [true], .word 0x20#6, .run .deframer]) = some (.decode [true]) ∧
    read (.expansion [.word 0x00#6, .word 0x04#6]) = none := by decide

/-- R91, R93 and R97: the wire items of fixed width. -/
theorem test_decode_wire_items :
    read (.wire [] [false, true, true, true, true, true, true, false]) = some .flag ∧
    read (.wire [] (seq 16 0b0000110100101110)) = some (.checksumField 0x0D2E#16) := by decide

/-- R93 and R90: one 0 after five 1 bits is a stuffed zero; after four, or as the last bit of a Flag, it is not. -/
theorem test_decode_stuffed_zero :
    read (.wire [true, true, true, true, true] [false]) = some .stuffedZero ∧
    read (.wire [false, true, true, true, true, true] [false]) = some .stuffedZero ∧
    read (.wire [true, true, true, true] [false]) = none ∧ read (.wire (seq 7 0b0111111) [false]) = none := by decide

/-- R92: the Frame of vector E2 carries the data bit 1; with its data bit flipped it is no Frame. -/
theorem test_decode_frame :
    read (.wire [] e2) = some (.frame [true]) ∧
    read (.wire [] (seq 33 0b011111100000011010010111001111110)) = none := by decide +kernel

/-- The table's own numbering: a word and its width give the row's instruction. -/
theorem test_decode_table_words :
    decodeTableWord 8 0x3F = some .rst ∧ decodeTableWord 8 0x0B = some (.stuffBit true) ∧
    decodeTableWord 8 0x7E = some .flag ∧ decodeTableWord 8 0x3E = some .stuffedZero ∧
    decodeTableWord 16 0x0D2E = some (.checksumField 0x0D2E#16) ∧ decodeTableWord 3 0x2 = some .dfSeek := by decide

/-! ## The checksum unit -/

/-- The examples and corner cases of R122. -/
theorem test_crc_shift :
    Codec.crcShift 0xFFFF#16 true = 0xFFFE#16 ∧ Codec.crcShift 0xFFFF#16 false = 0xEFDF#16 ∧
    Codec.crcShift 0x8000#16 true = 0x0000#16 ∧ Codec.crcShift 0x8000#16 false = 0x1021#16 := by decide

/-- Program 1: the register after each of its command words. -/
theorem test_crc_program_1 :
    (nextOf (exec .crcInit { State.reset with crc := { reg := 0x1234#16 } })).map (·.crc.reg) = some 0xFFFF#16 ∧
    (nextOf (exec (.crcShift false) { State.reset with crc := { reg := 0xFFFE#16 } })).map (·.crc.reg) = some 0xEFDD#16 ∧
    (nextOf (exec .crcFlush { State.reset with crc := { reg := 0xDFBA#16 } })).map (·.crc.reg) = some 0x0388#16 ∧
    (nextOf (exec .crcRead { State.reset with crc := { reg := 0x0388#16 } })).map (·.host.returned) = some [0x0388#16] := by
  decide +kernel

/-- R126: "`crc16([])` = `0x1D0F`", "`crc16(101)` = `0x0388`", "`crc16(0)` = `0x3A1E`". -/
theorem test_crc16_examples :
    Codec.crc16 [] = 0x1D0F#16 ∧ Codec.crc16 [true, false, true] = 0x0388#16 ∧ Codec.crc16 [false] = 0x3A1E#16 := by
  decide +kernel

/-- The whole-sequence call hands back the Checksum, whatever the register held. -/
theorem test_crc16_call :
    (nextOf (exec (.crc16 [true, false, true]) { State.reset with crc := { reg := 0x1234#16 } })).map (·.host.returned) =
      some [0x0388#16] := by decide +kernel

/-! ## The stuffer and the destuffer -/

/-- R141, with its example. -/
theorem test_stuff_rst :
    (nextOf (exec .stuffRst { State.reset with st := { ones := 3, out := seq 4 0b0111 } })).map (·.st) =
      some { ones := 0, out := [] } := by decide

/-- R142: "`st.ones` = 4, `b` = 1: emits `10`", and "`st.ones` = 4, `b` = 0: emits `0`, counter 0". -/
theorem test_stuff_bit :
    (nextOf (exec (.stuffBit true) { State.reset with st := { ones := 4, out := [] } })).map (·.st) =
      some { ones := 0, out := [true, false] } ∧
    (nextOf (exec (.stuffBit false) { State.reset with st := { ones := 4, out := [] } })).map (·.st) =
      some { ones := 0, out := [false] } := by decide

/-- R145: "`stuff(110111110111111)` = `11011111001111101`", "`stuff(11111)` = `111110`". -/
theorem test_stuff :
    (nextOf (exec (.stuff (seq 15 0b110111110111111)) State.reset)).map (·.st.out) = some (seq 17 0b11011111001111101) ∧
    (nextOf (exec (.stuff (seq 5 0b11111)) State.reset)).map (·.st) = some { ones := 0, out := seq 6 0b111110 } := by
  decide

/-- R156 and R158, with their examples. -/
theorem test_destuff_markers :
    (nextOf (exec .destuffRst { State.reset with ds := { ones := 5, out := [true] } })).map (·.ds) =
      some { ones := 0, out := [] } ∧
    (nextOf (exec .destuffEnd { State.reset with ds := { ones := 5, out := seq 5 0b11111 } })).map (·.ds) =
      some { ones := 0, out := seq 5 0b11111 } := by decide

/-- R157: "`ds.ones` = 5, `b` = 0: nothing emitted, `ds.ones` becomes 0"; an inspected 1 is copied and counted. -/
theorem test_destuff_bit :
    (nextOf (exec (.destuffBit false) { State.reset with ds := { ones := 5, out := [] } })).map (·.ds) =
      some { ones := 0, out := [] } ∧
    (nextOf (exec (.destuffBit true) { State.reset with ds := { ones := 5, out := [] } })).map (·.ds) =
      some { ones := 1, out := [true] } := by decide

/-- R161: "`destuff(11111111110)` = `1^10`", "`destuff(1111110)` = `1111110`", "`destuff(011111010)` = `01111110`". -/
theorem test_destuff :
    (nextOf (exec (.destuff (seq 11 0b11111111110)) State.reset)).map (·.ds.out) = some (List.replicate 10 true) ∧
    (nextOf (exec (.destuff (seq 7 0b1111110)) State.reset)).map (·.ds.out) = some (seq 7 0b1111110) ∧
    (nextOf (exec (.destuff (seq 9 0b011111010)) State.reset)).map (·.ds.out) = some (seq 8 0b01111110) := by decide

/-! ## The framer -/

/-- Program 6, events 3, 5 and 7, and a start with a source. -/
theorem test_fr_start :
    (nextOf (exec .frStart State.reset)).map (·.fr.status) = some 0b100#3 ∧
    (nextOf (exec .frStart (loaded [] 0 .error))).map (·.fr.phase) = some .error ∧
    refusalOf (exec .frStart (loaded [true, false] 0 .error)) = some .chunkSizeZero ∧
    (nextOf (exec .frStart (loaded [true, false] 1 .done))).map (·.fr.status) = some 0b001#3 := by decide

/-- R174's example: `SRC` = `1`, chunk size 80. -/
theorem test_fr_frame :
    (nextOf (exec .frFrame (framing [true] 80 0))).map (fun t => (t.fr.tx, t.fr.frameCount, t.fr.k, t.fr.phase)) =
      some (e2, 1, 80, .done) := by decide +kernel

/-- Program 3, event 3: the first of two frames. -/
theorem test_fr_frame_stays_in_run :
    (nextOf (exec .frFrame (framing (seq 10 0b1011001110) 6 0))).map
        (fun t => (t.fr.tx.length, t.fr.frameCount, t.fr.k, t.fr.status)) = some (38, 1, 6, 0b001#3) := by decide +kernel

/-- Program 3 as one call: vector E8. -/
theorem test_encode :
    (nextOf (exec (.encode (seq 10 0b1011001110) 6) State.reset)).map
        (fun t => (t.fr.tx, t.fr.frameCount, t.fr.k, t.fr.status)) =
      some (seq 74 0b01111110101100110000001000000001111110011111101110110110111101000001111110, 2, 12, 0b010#3) := by
  decide +kernel

/-! ## The deframer -/

/-- R192. -/
theorem test_df_start :
    (nextOf (exec .dfStart (deframing e2 .aborted 9 9 9))).map (fun t => (t.df.phase, t.df.i, t.df.start, t.df.j)) =
      some (.hunt, 0, 0, 0) ∧
    refusalOf (exec .dfStart (deframing e2 .seek 0 8 30)) = some .deframerBusy := by decide

/-- R193's example: `RX` = `1101 01111110 ...`. -/
theorem test_df_hunt :
    (nextOf (exec .dfHunt (deframing (seq 12 0b110101111110) .hunt 3 0 0))).map (fun t => (t.df.i, t.df.phase)) =
      some (4, .hunt) ∧
    (nextOf (exec .dfHunt (deframing (seq 12 0b110101111110) .hunt 4 0 0))).map (fun t => (t.df.start, t.df.j, t.df.phase)) =
      some (12, 12, .seek) := by decide

/-- R194's example, a truncation; and the closing Flag of vector E2. -/
theorem test_df_seek :
    (nextOf (exec .dfSeek (deframing (seq 12 0b011111101010) .seek 0 8 8))).map (·.df.status) = some 0b010#3 ∧
    (nextOf (exec .dfSeek (deframing e2 .seek 0 8 25))).map (fun t => (t.df.j, t.df.phase)) = some (25, .check) := by decide

/-- R198's example: the data bit is appended and counted; with that bit flipped (program 4) the frame is counted as failed. -/
theorem test_df_check_verifies :
    (nextOf (exec .dfCheck (deframing e2 .check 0 8 25))).map
        (fun t => (t.df.out, t.df.framesOk, t.df.framesFailed, t.df.i, t.df.phase)) = some ([true], 1, 0, 33, .hunt) ∧
    (nextOf (exec .dfCheck (deframing (seq 33 0b011111100000011010010111001111110) .check 0 8 25))).map
        (fun t => (t.df.out, t.df.framesOk, t.df.framesFailed, t.df.i, t.df.phase)) = some ([], 0, 1, 33, .hunt) := by
  decide +kernel

/-- R196's two abort examples: an empty payload, and sixteen raw bits that destuff to fourteen. -/
theorem test_df_check_aborts :
    (nextOf (exec .dfCheck (deframing (seq 16 0b0111111001111110) .check 0 8 8))).map (·.df.status) = some 0b100#3 ∧
    (nextOf (exec .dfCheck (deframing (seq 32 0b01111110111110111110111101111110) .check 0 8 24))).map (·.df.status) =
      some 0b100#3 := by decide +kernel

/-- Program 5 as one call: the frame before the idle Flags is kept, the one after them is lost. -/
theorem test_decode_call :
    (nextOf (exec (.decode (e2 ++ Config.flag ++ Config.flag ++ e2)) State.reset)).map
        (fun t => (t.df.out, t.df.framesOk, t.df.i, t.df.start, t.df.status)) = some ([true], 1, 33, 41, 0b100#3) := by
  decide +kernel

/-! ## Reset, wire items, steps -/

/-- Program 6, event 36. -/
theorem test_rst :
    (nextOf (exec .rst (deframing e2 .seek 0 8 20))).map (·.df) = some Deframer.reset ∧
    (nextOf (exec .rst (loaded [true] 0 .error))).map (·.fr.chunkSize) = some 80 := by decide

/-- R91, R92, R93, R66: the bits of each wire item, arriving at `RX`. -/
theorem test_wire_items :
    (nextOf (exec .flag State.reset)).map (·.df.rx) = some (seq 8 0b01111110) ∧
    (nextOf (exec .stuffedZero State.reset)).map (·.df.rx) = some [false] ∧
    (nextOf (exec (.checksumField 0x0D2E#16) State.reset)).map (·.df.rx) = some (seq 16 0b0000110100101110) ∧
    (nextOf (exec (.frame [true]) State.reset)).map (·.df.rx) = some e2 := by decide +kernel

/-- Program 6, events 1 and 2: a reserved word is refused. -/
theorem test_step_reserved_word :
    refusalOf (step (State.reset.withEvents [.act (.word 0x01#6)])) = some (.undecodable (.reservedCommand 0x01#6)) ∧
    refusalOf (step (State.reset.withEvents [.act (.word 0x2A#6)])) = some (.undecodable (.reservedCommand 0x2A#6)) := by
  decide

/-- A placed table word is what the very next step runs. -/
theorem test_step_runs_placed_word :
    (nextOf (step (State.reset.withFetchWord 6 0b000010))).map (·.crc.reg) = some 0xEFDF#16 ∧
    (nextOf (step (State.reset.withFetchWord 2 0b01))).map (·.fr.phase) = some .done ∧
    (nextOf (step (State.reset.withFetchWord 3 0b010))).map (·.df.phase) = some .done ∧
    (nextOf (step (State.reset.withFetchWord 8 0x7E))).map (·.df.rx) = some (seq 8 0b01111110) ∧
    (nextOf (step (State.reset.withFetchWord 8 0x3E))).map (·.df.rx) = some (seq 6 0b111110) := by decide +kernel

/-! ## Witnesses -/

theorem witness_CrcShiftFeedbackBits :
    ∃ t : State, exec (.crcShift true) State.reset = .next t ∧ 0 < 16 ∧ 5 < 16 ∧ 12 < 16 ∧ 15 < 16 := ⟨_, rfl, by decide⟩

theorem witness_CrcReadHandsBackTheRegister : ∃ t : State, exec (.crc16 [true]) State.reset = .next t := ⟨_, rfl⟩

theorem witness_Crc16IsAffine :
    ∃ t u v w : State, ([true, false] : BitSeq).length = ([true, true] : BitSeq).length ∧
      exec (.crc16 (List.zipWith Bool.xor [true, false] [true, true])) State.reset = .next t ∧
      exec (.crc16 [true, false]) State.reset = .next u ∧ exec (.crc16 [true, true]) State.reset = .next v ∧
      exec (.crc16 (List.replicate ([true, false] : BitSeq).length false)) State.reset = .next w :=
  ⟨_, _, _, _, rfl, rfl, rfl, rfl, rfl⟩

/-- At the counter's boundary, with an output that just fits a width of 3 bits. -/
theorem witness_StuffBitCopiesThenInserts :
    ({ ones := 0, out := seq 5 0b01111 ++ [true] ++ [false] } : Stuffer).fits { idxW := some 3 } = true ∧
    ({ ones := 0, out := seq 6 0b001111 ++ [false] } : Stuffer).fits { idxW := some 3 } = true ∧
    ({ ones := 1, out := [] ++ [true] } : Stuffer).fits Config.unbounded = true := by decide

theorem witness_StuffRunsTheRulesLoop :
    Config.inWidth (some 3) (Reference.stuff (seq 6 0b111110)).length = true ∧
    Config.inWidth none (Reference.stuff []).length = true := by decide

theorem witness_StuffCounterIsTrailingRun :
    ∃ t : State, State.reset.st.ones.val = trailingOnes State.reset.st.out ∧ exec (.stuffBit true) State.reset = .next t :=
  ⟨_, by decide, rfl⟩

theorem witness_StuffedOutputHasNoSixOnes : ∃ t : State, exec (.stuff (seq 6 0b111111)) State.reset = .next t := ⟨_, rfl⟩

theorem witness_StuffedLengthIsBounded : ∃ t : State, exec (.stuff (seq 5 0b11111)) State.reset = .next t := ⟨_, rfl⟩

/-- A dropped 0 needs no room; the other branches at the boundary of a width of 2 bits. -/
theorem witness_DestuffBitInspectsAfterFive :
    ({ ones := 0, out := seq 3 0b111 } : Destuffer).fits { idxW := some 2 } = true ∧
    ({ ones := 1, out := seq 2 0b11 ++ [true] } : Destuffer).fits { idxW := some 2 } = true ∧
    ({ ones := 5, out := seq 2 0b11 ++ [true] } : Destuffer).fits { idxW := some 2 } = true ∧
    ({ ones := 0, out := [] ++ [false] } : Destuffer).fits Config.unbounded = true := by decide

theorem witness_DestuffRunsTheRulesLoop :
    Config.inWidth (some 3) (Reference.destuff (seq 8 0b11111011)).length = true ∧
    Config.inWidth none (Reference.destuff []).length = true := by decide

theorem witness_DestuffEqualsLookAheadForm : ∃ t : State, exec (.destuff (seq 6 0b111110)) State.reset = .next t := ⟨_, rfl⟩

theorem witness_DestuffDropsOnlyZeros : ∃ t : State, exec (.destuff (seq 7 0b1111110)) State.reset = .next t := ⟨_, rfl⟩

theorem witness_StuffingLaw : Config.inWidth (some 4) (Reference.stuff (seq 8 0b01111110)).length = true := by decide

/-- One state for each of the four clauses. -/
theorem witness_FrStartBeginsAnEncode :
    (framing [true] 1 0).fr.phase = .run ∧
    ((loaded [] 0 .error).fr.phase ≠ .run ∧ (loaded [] 0 .error).fr.src = []) ∧
    ((loaded [true] 0 .idle).fr.phase ≠ .run ∧ (loaded [true] 0 .idle).fr.src ≠ [] ∧ (loaded [true] 0 .idle).fr.chunkSize = 0) ∧
    ((loaded [true] 1 .done).fr.phase ≠ .run ∧ (loaded [true] 1 .done).fr.src ≠ [] ∧ 1 ≤ (loaded [true] 1 .done).fr.chunkSize) := by
  decide

/-- The last chunk, one bit long, from the last index. -/
theorem witness_FrFrameEmitsTheNextFrame :
    (framing [false, true] 1 1).fr.phase = .run ∧ (framing [false, true] 1 1).fr.k < (framing [false, true] 1 1).fr.src.length ∧
    1 ≤ (framing [false, true] 1 1).fr.chunkSize ∧ (framing [false, true] 1 1).fr.fits Config.unbounded = true ∧
    ({ (framing [false, true] 1 1).fr with
        tx := e2, frameCount := 1, k := 2, phase := .done } : Framer).fits (framing [false, true] 1 1).params = true := by
  decide +kernel

theorem witness_PrivateUnitsAfterAFrame :
    (∃ t : State, exec .frFrame (framing [true] 80 0) = .next t) ∧
    (∃ t : State, exec .dfCheck (deframing e2 .check 0 8 25) = .next t ∧ decide (t.df.phase = .hunt ∧ 8 ≤ 25) = true) ∧
    (∃ t : State, exec .dfCheck (deframing (seq 16 0b0111111001111110) .check 0 8 8) = .next t ∧
      decide (t.df.phase = .aborted) = true) :=
  ⟨answers (by decide +kernel), answersWith _ (by decide +kernel), answersWith _ (by decide +kernel)⟩

/-- The empty source, a chunk size of 0, and one chunk that is the whole source. -/
theorem witness_EncodeRunsTheRulesLoop :
    State.reset.fr.busy = false ∧ State.reset.fr.fits State.reset.params = true ∧
    Config.inWidth State.reset.params.idxW 0 = true ∧
    ({ State.reset.fr with src := [true] } : Framer).fits State.reset.params = true ∧ 1 ≤ 1 ∧
    ({ State.reset.fr with
        src := [true], chunkSize := 1, tx := (Reference.encode [true] 1).1, frameCount := (Reference.encode [true] 1).2,
        k := (Reference.encode [true] 1).2 * 1 } : Framer).fits State.reset.params = true := by decide +kernel

theorem witness_EncodeFrameCountIsCeiling :
    ∃ t : State, ([true, false, true] : BitSeq) ≠ [] ∧ 1 ≤ 2 ∧ exec (.encode [true, false, true] 2) State.reset = .next t :=
  ⟨_, by decide, by decide, rfl⟩

/-- The Flag stands at index 0 and at the end of a Frame. -/
theorem witness_FlagStandsOnlyAtFrameEnds :
    0 + 8 ≤ (Codec.frameBits [true]).length ∧ slice (Codec.frameBits [true]) 0 (0 + 8) = Config.flag ∧
    slice (Codec.frameBits [true]) 25 (25 + 8) = Config.flag ∧ 25 + 8 = (Codec.frameBits [true]).length := by decide +kernel

theorem witness_DfStartBeginsADecode :
    (deframing e2 .aborted 0 8 8).df.phase = .aborted ∧ (deframing e2 .check 0 8 25).df.phase = .check ∧
    State.reset.df.phase = .idle := by decide

/-- Seven bits left; eight bits that are no Flag; eight bits that are one. -/
theorem witness_DfHuntLooksForAnOpeningFlag :
    ((deframing (seq 8 0b01111110) .hunt 1 0 0).df.phase = .hunt ∧
      (deframing (seq 8 0b01111110) .hunt 1 0 0).df.i + 8 > (deframing (seq 8 0b01111110) .hunt 1 0 0).df.rx.length) ∧
    ((deframing (seq 8 0b01111111) .hunt 0 0 0).df.i + 8 ≤ (deframing (seq 8 0b01111111) .hunt 0 0 0).df.rx.length ∧
      slice (seq 8 0b01111111) 0 (0 + 8) ≠ Config.flag ∧
      (deframing (seq 8 0b01111111) .hunt 1 0 0).df.fits Config.unbounded = true) ∧
    ((deframing (seq 8 0b01111110) .hunt 0 0 0).df.i + 8 ≤ (deframing (seq 8 0b01111110) .hunt 0 0 0).df.rx.length ∧
      slice (seq 8 0b01111110) 0 (0 + 8) = Config.flag ∧
      (deframing (seq 8 0b01111110) .seek 0 8 8).df.fits { idxW := some 4 } = true) := by decide

/-- The same three cases for the closing Flag, the second of them at the last index that still has eight bits. -/
theorem witness_DfSeekLooksForTheClosingFlag :
    ((deframing e2 .seek 0 8 26).df.phase = .seek ∧
      (deframing e2 .seek 0 8 26).df.j + 8 > (deframing e2 .seek 0 8 26).df.rx.length) ∧
    ((deframing e2 .seek 0 8 24).df.j + 8 ≤ (deframing e2 .seek 0 8 24).df.rx.length ∧
      slice e2 24 (24 + 8) ≠ Config.flag ∧ (deframing e2 .seek 0 8 25).df.fits Config.unbounded = true) ∧
    ((deframing e2 .seek 0 8 25).df.j + 8 ≤ (deframing e2 .seek 0 8 25).df.rx.length ∧
      slice e2 25 (25 + 8) = Config.flag) := by decide

/-- A payload of sixteen raw bits that destuffs to 14; one of exactly 16 that is `crc16([])` (R206); one that verifies with
data; and one that does not verify. The payloads end where `RX` still holds the closing Flag. -/
theorem witness_DfCheckAbortsOrVerifies :
    ((deframing (seq 32 0b01111110111110111110111101111110) .check 0 8 24).df.phase = .check ∧ 8 ≤ 24 ∧
      24 ≤ (seq 32 0b01111110111110111110111101111110).length ∧
      (Codec.destuff (slice (seq 32 0b01111110111110111110111101111110) 8 24)).length < 16) ∧
    ((deframing (seq 32 0b01111110000111010000111101111110) .check 0 8 24).df.phase = .check ∧
      Codec.destuff (slice (seq 32 0b01111110000111010000111101111110) 8 24) = Codec.bits16 (Codec.crc16 []) ∧
      16 ≤ (Codec.bits16 (Codec.crc16 [])).length ∧
      ({ (deframing (seq 32 0b01111110000111010000111101111110) .check 0 8 24).df with
          out := [], framesOk := 1, i := 32, phase := .hunt } : Deframer).fits Config.unbounded = true) ∧
    (16 ≤ (Codec.destuff (slice e2 8 25)).length ∧ Codec.crc16 [true] = Codec.int16 (slice (Codec.destuff (slice e2 8 25)) 1 17) ∧
      ({ (deframing e2 .check 0 8 25).df with out := [true], framesOk := 1, i := 33, phase := .hunt } : Deframer).fits
        Config.unbounded = true) ∧
    (Codec.crc16 [false] ≠ Codec.int16 (slice (Codec.destuff (slice e2 8 25)) 1 17) ∧
      ({ (deframing e2 .check 0 8 25).df with framesFailed := 1, i := 33, phase := .hunt } : Deframer).fits
        Config.unbounded = true) := by decide +kernel

theorem witness_DeframerFollowsItsTransitions :
    Instr.format .dfCheck ≠ .p ∧ ∃ t : State, exec .dfCheck (deframing e2 .check 0 8 25) = .next t :=
  ⟨by decide, answers (by decide +kernel)⟩

theorem witness_DecodeRunsTheRulesLoop :
    State.reset.df.busy = false ∧ ({ State.reset.df with rx := e2 } : Deframer).fits State.reset.params = true ∧
    ({ Deframer.reset with
        rx := e2, out := (Reference.decode e2).data, framesOk := (Reference.decode e2).ok,
        framesFailed := (Reference.decode e2).failed } : Deframer).fits State.reset.params = true := by decide +kernel

theorem witness_DecodeEndsInATerminalPhase : ∃ t : State, exec (.decode (seq 8 0b01111110)) State.reset = .next t := ⟨_, rfl⟩

theorem witness_AdjacentFlagsAbort :
    ∃ t : State,
      (∀ p : Nat, p < ([true] : BitSeq).length → slice ([true] ++ Config.flag) p (p + 8) ≠ Config.flag) ∧
      exec (.decode ([true] ++ Config.flag ++ Config.flag ++ [])) State.reset = .next t := by
  have h : (nextOf (exec (.decode ([true] ++ Config.flag ++ Config.flag ++ [])) State.reset)).isSome = true := by
    decide +kernel
  obtain ⟨t, ht⟩ := answers h
  exact ⟨t, by decide, ht⟩

/-- A frame that verifies, one that fails, an abort and an end of the stream. -/
theorem witness_ValidatedOutputIsKept :
    (∃ t : State, exec .dfCheck (deframing e2 .check 0 8 25) = .next t ∧ decide (t.df.out ≠ []) = true) ∧
    (∃ t : State, exec .dfCheck (deframing (seq 33 0b011111100000011010010111001111110) .check 0 8 25) = .next t ∧
      decide (t.df.framesFailed ≠ 0) = true) ∧
    (∃ t : State, exec .dfCheck (deframing (seq 16 0b0111111001111110) .check 0 8 8) = .next t ∧
      decide (t.df.phase = .aborted) = true) ∧
    (∃ t : State, exec .dfHunt (deframing [] .hunt 0 0 0) = .next t ∧ decide (t.df.phase = .done) = true) :=
  ⟨answersWith _ (by decide +kernel), answersWith _ (by decide +kernel), answersWith _ (by decide +kernel),
    answersWith _ (by decide +kernel)⟩

theorem witness_RoundTrip :
    ([true] : BitSeq) ≠ [] ∧ 1 ≤ 1 ∧ State.reset.params = Config.unbounded ∧ State.reset.Quiet :=
  ⟨by decide, by decide, rfl, by decide, by decide⟩

theorem witness_StreamingFormAgrees : ∃ t : State, exec (.decode (seq 8 0b01111110)) State.reset = .next t := ⟨_, rfl⟩

/-- Idle units that accept writes, idle ones that cannot hold them (one beyond each bound), and busy ones. -/
theorem witness_HostWritesInputsOfIdleUnits :
    (State.reset.fr.busy = false ∧ ({ State.reset.fr with src := [true] } : Framer).fits State.reset.params = true ∧
      ({ State.reset.fr with chunkSize := 0 } : Framer).fits State.reset.params = true) ∧
    (State.reset.df.busy = false ∧ ({ State.reset.df with rx := e2 } : Deframer).fits State.reset.params = true) ∧
    (({ State.reset.fr with src := [true, true] } : Framer).fits { srcCap := some 1 } = false ∧
      ({ State.reset.fr with src := [true] } : Framer).fits { srcCap := some 1 } = true ∧
      ({ State.reset.fr with chunkSize := 128 } : Framer).fits { idxW := some 7 } = false ∧
      ({ State.reset.fr with chunkSize := 127 } : Framer).fits { idxW := some 7 } = true ∧
      ({ State.reset.df with rx := [true, true] } : Deframer).fits { rxCap := some 1 } = false) ∧
    (framing [true] 1 0).fr.busy = true ∧ (deframing e2 .seek 0 8 8).df.busy = true := by decide

theorem witness_StoppedUnitsStayStopped :
    (∃ t : State, exec .crcInit (loaded [] 80 .error) = .next t) ∧ (Instr.crcInit ≠ .rst ∧ Instr.crcInit ≠ .frStart) ∧
    (loaded [] 80 .error).fr.phase = .error ∧ (∀ (bits : BitSeq) (c : Nat), Instr.crcInit ≠ .encode bits c) ∧
    (∃ t : State, exec .flag (deframing e2 .aborted 0 8 8) = .next t) ∧ (deframing e2 .aborted 0 8 8).df.phase = .aborted ∧
    (Instr.flag ≠ .rst ∧ Instr.flag ≠ .dfStart) ∧ (∀ bits : BitSeq, Instr.flag ≠ .decode bits) :=
  ⟨⟨_, rfl⟩, by decide, rfl, fun _ _ => nofun, ⟨_, rfl⟩, rfl, by decide, fun _ => nofun⟩

theorem witness_OperationsWriteTheirOwnUnit :
    ∃ t : State, exec .frStart State.reset = .next t ∧ Instr.frStart ≠ .rst ∧ unitOf .frStart ≠ .crc ∧
      unitOf .frStart ≠ .deframer := ⟨_, rfl, by decide⟩

theorem witness_OperationsReadTheirOwnUnit :
    unitOf .crcInit = .crc ∧ unitOf .stuffRst = .stuffer ∧ unitOf .destuffEnd = .destuffer ∧ unitOf .frFrame = .framer ∧
    unitOf .dfCheck = .deframer := by decide

theorem witness_FramerAndDeframerCommute :
    ∃ t u : State, unitOf .frStart = .framer ∧ unitOf .dfStart = .deframer ∧ exec .frStart State.reset = .next t ∧
      exec .dfStart State.reset = .next u := ⟨_, _, rfl, rfl, rfl, rfl⟩

theorem witness_ContainersAreReadOrAppended :
    (∃ t : State, Instr.format .frFrame = .s ∧ Instr.frFrame ≠ .rst ∧ exec .frFrame (framing [true] 80 0) = .next t) ∧
    (∃ t : State, Instr.format (.stuffBit true) = .k ∧ exec (.stuffBit true) State.reset = .next t) :=
  ⟨⟨_, rfl, by decide, rfl⟩, ⟨_, rfl, rfl⟩⟩

theorem witness_InputsAreStableWhileBusy :
    (∃ t : State, step (framing [true, false] 1 0) = .next t) ∧ (framing [true, false] 1 0).fr.busy = true ∧
    (∃ t : State, step (deframing e2 .seek 0 8 8) = .next t) ∧ (deframing e2 .seek 0 8 8).df.busy = true :=
  ⟨⟨_, rfl⟩, by decide, ⟨_, rfl⟩, by decide⟩

/-- Idle with room, idle without room (a capacity of 7 bits for the 8 of a Flag), busy. -/
theorem witness_WireItemsArriveAtRx :
    State.reset.df.busy = false ∧ ({ State.reset.df with rx := [] ++ Config.flag } : Deframer).fits Config.unbounded = true ∧
    ({ State.reset.df with rx := [] ++ Config.flag } : Deframer).fits { rxCap := some 7 } = false ∧
    ({ State.reset.df with rx := [] ++ Config.flag } : Deframer).fits { rxCap := some 8 } = true ∧
    (deframing [] .hunt 0 0 0).df.busy = true := by decide

theorem witness_ChecksumBitOrder : 0 < 16 ∧ 15 < 16 ∧ (seq 16 0b0000110100101110).length = 16 := by decide

theorem witness_DecodeOfEncode :
    wellFormed (.encode [true] 1) = true ∧ wellFormed (.encode [] 0) = true ∧ wellFormed (.frame []) = true := by decide

/-- The reserved words next to the first and the last defined one. -/
theorem witness_CommandWordsDecodeAsTheTableSays :
    0b000001#6 ∉ [0b000000#6, 0b000010#6, 0b000011#6, 0b000100#6, 0b000110#6, 0b001000#6, 0b001010#6, 0b001011#6, 0b010000#6,
      0b010010#6, 0b010011#6, 0b010100#6, 0b011000#6, 0b100000#6, 0b111111#6] ∧
    0b111110#6 ∉ [0b000000#6, 0b000010#6, 0b000011#6, 0b000100#6, 0b000110#6, 0b001000#6, 0b001010#6, 0b001011#6, 0b010000#6,
      0b010010#6, 0b010011#6, 0b010100#6, 0b011000#6, 0b100000#6, 0b111111#6] := by decide

theorem witness_StepRunsTheDecodedInstruction :
    decodeInstr (.command 0b000100#6) = .ok .crcFlush ∧
    decodeInstr (.expansion [.loadRx [], .word 0x20#6, .run .deframer]) = .ok (.decode []) ∧
    decodeInstr (.wire (deframing (seq 6 0b011111) .idle 0 0 0).df.rx [false]) = .ok .stuffedZero := ⟨rfl, rfl, rfl⟩

/-- One state for each clause. -/
theorem witness_PhaseSelectsTheStep :
    (framing [true] 1 0).fr.phase = .run ∧ State.reset.fr.phase ≠ .run ∧ (deframing e2 .hunt 0 0 0).df.phase = .hunt ∧
    (deframing e2 .seek 0 8 8).df.phase = .seek ∧ (deframing e2 .check 0 8 25).df.phase = .check ∧
    (deframing e2 .aborted 0 8 25).df.phase = .aborted := by decide

theorem witness_BusyUnitsGoOnByThemselves :
    ((framing [true] 1 0).host.events = [] ∧ (framing [true] 1 0).fr.busy = true) ∧
    ((deframing e2 .hunt 0 0 0).host.events = [] ∧ (deframing e2 .hunt 0 0 0).fr.busy = false ∧
      (deframing e2 .hunt 0 0 0).df.phase = .hunt) ∧
    ((deframing e2 .seek 0 8 8).fr.busy = false ∧ (deframing e2 .seek 0 8 8).df.phase = .seek) ∧
    ((deframing e2 .check 0 8 25).fr.busy = false ∧ (deframing e2 .check 0 8 25).df.phase = .check) ∧
    (State.reset.host.events = [] ∧ State.reset.Quiet) :=
  ⟨by decide, by decide, by decide, by decide, rfl, by decide, by decide⟩

/-- Both units idle; a cursor at the end of the source, a chunk size of 0; cursors one past the end of `RX`; and streams longer
than the index width can count. -/
theorem witness_StepsOutsideTheirPhaseAreRefused :
    State.reset.fr.phase ≠ .run ∧ State.reset.df.phase ≠ .hunt ∧ State.reset.df.phase ≠ .seek ∧ State.reset.df.phase ≠ .check ∧
    ((framing [true] 1 1).fr.phase = .run ∧ (framing [true] 1 1).fr.src.length ≤ (framing [true] 1 1).fr.k) ∧
    ((framing [true] 0 0).fr.phase = .run ∧ (framing [true] 0 0).fr.chunkSize = 0) ∧
    ((deframing e2 .check 0 34 34).df.phase = .check ∧
      (deframing e2 .check 0 34 34).df.rx.length < (deframing e2 .check 0 34 34).df.start) ∧
    ((deframing e2 .check 0 8 34).df.rx.length < (deframing e2 .check 0 8 34).df.j) ∧
    ((narrow 4 (deframing e2 .hunt 15 0 0)).df.i + 8 ≤ e2.length ∧ slice e2 15 (15 + 8) ≠ Config.flag ∧
      (deframing e2 .hunt 16 0 0).df.fits { idxW := some 4 } = false) ∧
    ((narrow 5 (deframing e2 .hunt 25 0 0)).df.i + 8 ≤ e2.length ∧ slice e2 25 (25 + 8) = Config.flag ∧
      (deframing e2 .hunt 25 33 33).df.fits { idxW := some 5 } = false) ∧
    ((narrow 4 (deframing e2 .seek 0 8 15)).df.j + 8 ≤ e2.length ∧ slice e2 15 (15 + 8) ≠ Config.flag ∧
      (deframing e2 .seek 0 8 16).df.fits { idxW := some 4 } = false) := by decide +kernel

theorem witness_ExpansionsRunAsTheOperation :
    encodeInstr (.stuff [true]) = .expansion [.word 0x08#6, .word 0x0B#6] ∧
    encodeInstr (.decode []) = .expansion [.loadRx [], .word 0x20#6, .run .deframer] := by decide

/-- A framer in RUN and a deframer in CHECK that meet the invariant, each with a step to take. -/
theorem witness_StepKeepsTheInvariant :
    (framing [true, false] 1 0).Inv ∧ (∃ t : State, step (framing [true, false] 1 0) = .next t) ∧
    (deframing e2 .check 0 8 25).Inv ∧ (∃ t : State, step (deframing e2 .check 0 8 25) = .next t) := by
  refine ⟨?_, answers (by decide +kernel), ?_, answers (by decide +kernel)⟩ <;>
    (unfold State.Inv Framer.Consistent Deframer.Consistent; decide +kernel)

theorem witness_InvariantStatesNeverFault : (deframing e2 .seek 0 8 25).Inv := by
  unfold State.Inv Framer.Consistent Deframer.Consistent; decide +kernel

theorem witness_BusyUnitsCanStep :
    (deframing e2 .hunt 33 0 0).Inv ∧ (deframing e2 .hunt 33 0 0).params = Config.unbounded ∧
    (deframing e2 .hunt 33 0 0).busy .deframer = true ∧ (framing [true] 1 0).Inv ∧
    (framing [true] 1 0).params = Config.unbounded ∧ (framing [true] 1 0).busy .framer = true := by
  refine ⟨?_, rfl, by decide, ?_, rfl, by decide⟩ <;>
    (unfold State.Inv Framer.Consistent Deframer.Consistent; decide +kernel)

/-- One state for each clause, at the boundary of the width or capacity. Those of `FR.FRAME` and `DF.CHECK` meet the invariant:
a `TX` of 32 bits for a Frame of 33, an `OUT` of no bits for one bit of data, and counters of width 0 for a frame that verifies
and for one that fails. -/
theorem witness_CapacityOverrunsAreRefused :
    Config.inWidth (narrow 3 { State.reset with st := { ones := 4, out := seq 6 0b001111 } }).params.idxW (6 + 2) = false ∧
    Config.inWidth (narrow 3 { State.reset with ds := { ones := 4, out := seq 7 0b0001111 } }).params.idxW (7 + 1) = false ∧
    ({ (framing [true] 1 0).fr with tx := e2, frameCount := 1, k := 1 } : Framer).fits { txCap := some 32 } = false ∧
    16 ≤ (Codec.destuff (slice e2 8 25)).length ∧
    ({ (deframing e2 .check 0 8 25).df with out := [true], framesOk := 1, i := 33, phase := .hunt } : Deframer).fits
      { outCap := some 0 } = false ∧
    ({ (deframing e2 .check 0 8 25).df with out := [true], framesOk := 1, i := 33, phase := .hunt } : Deframer).fits
      { cntW := some 0 } = false ∧
    ({ (deframing (seq 33 0b011111100000011010010111001111110) .check 0 8 25).df with
        framesFailed := 1, i := 33, phase := .hunt } : Deframer).fits { cntW := some 0 } = false ∧
    Memory.wf (narrow 7 (deframing e2 .hunt 25 0 0)) = true := by decide +kernel

/-- The states of the `FR.FRAME` and `DF.CHECK` clauses are states of the invariant. -/
theorem witness_CapacityOverrunsAreRefused_meets_invariant :
    ({ framing [true] 1 0 with params := { txCap := some 32 } } : State).Inv ∧
    ({ deframing e2 .check 0 8 25 with params := { outCap := some 0 } } : State).Inv ∧
    ({ deframing e2 .check 0 8 25 with params := { cntW := some 0 } } : State).Inv ∧
    ({ deframing (seq 33 0b011111100000011010010111001111110) .check 0 8 25 with params := { cntW := some 0 } } : State).Inv := by
  refine ⟨?_, ?_, ?_, ?_⟩ <;>
    (unfold State.Inv Framer.Consistent Deframer.Consistent; decide +kernel)

theorem witness_UnboundedNeverExceedsCapacity : State.reset.params = Config.unbounded := rfl

end Sys2Proof.Tests
end

section
/-!
PROOFS. Format K: the command table and the refusal of reserved words (30_encoding.md R98, R99, R103).
-/

namespace Sys2Proof

/-- The 15 command words of the table (R99). -/
def definedCommandWords : List (BitVec 6) :=
  [0b000000#6, 0b000010#6, 0b000011#6, 0b000100#6, 0b000110#6, 0b001000#6, 0b001010#6, 0b001011#6, 0b010000#6, 0b010010#6,
    0b010011#6, 0b010100#6, 0b011000#6, 0b100000#6, 0b111111#6]

/-- A command word is its fields `u`, `op` and `d`, one after the other (R98). -/
theorem commandWord_fields (w : BitVec 6) :
    commandWord (w.extractLsb' 3 3) (w.extractLsb' 1 2) (w.getLsbD 0) = w := by
  unfold commandWord
  ext k hk
  simp only [BitVec.getElem_append, BitVec.getElem_extractLsb', BitVec.getElem_ofBool]
  split
  · next h0 => simp [show k = 0 by omega]
  · split
    · rw [show 1 + (k - 1) = k by omega, BitVec.getLsbD_eq_getElem]
    · rw [show 3 + (k - 1 - 2) = k by omega, BitVec.getLsbD_eq_getElem]

/-- A command word is in the table when the fields the decoder reads from it are those of a word of the table. -/
theorem mem_definedCommandWords_of_fields {w : BitVec 6} (u : BitVec 3) (op : BitVec 2) {d : Bit}
    (hmem : commandWord u op d ∈ definedCommandWords) (hu : (w.extractLsb' 3 3).toNat = u.toNat)
    (hop : (w.extractLsb' 1 2).toNat = op.toNat) (hd : w.getLsbD 0 = d) : w ∈ definedCommandWords := by
  have hw : w = commandWord u op d := by
    rw [← commandWord_fields w, BitVec.eq_of_toNat_eq hu, BitVec.eq_of_toNat_eq hop, hd]
  exact hw ▸ hmem

/-- The decoder refuses a command word outside the table as reserved (R103): each of its other rows fixes `u`, `op` and, unless
it is the data bit, `d`, and so a word of the table. -/
theorem decodeCommand_of_not_defined {w : BitVec 6} (hw : w ∉ definedCommandWords) :
    decodeCommand w = .error (.reservedCommand w) := by
  unfold decodeCommand
  split
  · next hu hop hd => exact absurd (mem_definedCommandWords_of_fields 0 0 (by decide) hu hop hd) hw
  · next hu hop =>
    have hmem : ∀ d, commandWord 0 1 d ∈ definedCommandWords := by decide
    exact absurd (mem_definedCommandWords_of_fields 0 1 (hmem _) hu hop rfl) hw
  · next hu hop hd => exact absurd (mem_definedCommandWords_of_fields 0 2 (by decide) hu hop hd) hw
  · next hu hop hd => exact absurd (mem_definedCommandWords_of_fields 0 3 (by decide) hu hop hd) hw
  · next hu hop hd => exact absurd (mem_definedCommandWords_of_fields 1 0 (by decide) hu hop hd) hw
  · next hu hop =>
    have hmem : ∀ d, commandWord 1 1 d ∈ definedCommandWords := by decide
    exact absurd (mem_definedCommandWords_of_fields 1 1 (hmem _) hu hop rfl) hw
  · next hu hop hd => exact absurd (mem_definedCommandWords_of_fields 2 0 (by decide) hu hop hd) hw
  · next hu hop =>
    have hmem : ∀ d, commandWord 2 1 d ∈ definedCommandWords := by decide
    exact absurd (mem_definedCommandWords_of_fields 2 1 (hmem _) hu hop rfl) hw
  · next hu hop hd => exact absurd (mem_definedCommandWords_of_fields 2 2 (by decide) hu hop hd) hw
  · next hu hop hd => exact absurd (mem_definedCommandWords_of_fields 3 0 (by decide) hu hop hd) hw
  · next hu hop hd => exact absurd (mem_definedCommandWords_of_fields 4 0 (by decide) hu hop hd) hw
  · next hu hop hd => exact absurd (mem_definedCommandWords_of_fields 7 3 (by decide) hu hop hd) hw
  · rfl

end Sys2Proof

namespace Sys2Proof.Machine

/-- A step that meets a command word which names no operation refuses it with the decoder's reason. -/
theorem step_word_of_reject {w : BitVec 6} {why : Reject} (h : decodeCommand w = .error why) (s : State)
    (rest : List Event) : step (s.withEvents (.act (.word w) :: rest)) = .refused (.undecodable why) := by
  have hf : fetch (s.withEvents (.act (.word w) :: rest)) = .reject why := by
    change fetchDecoded (.command w) (s.withEvents rest) = .reject why
    simp only [fetchDecoded, decodeInstr, h]
  rw [step, hf]

/-- Settles O49: the words of the table decode by evaluation, and what is outside it the decoder, and so the step, refuses. -/
theorem commandWordsDecodeAsTheTableSays : Obligations.CommandWordsDecodeAsTheTableSays :=
  ⟨by decide, fun _ s rest hw => step_word_of_reject (decodeCommand_of_not_defined hw) s rest⟩

end Sys2Proof.Machine
end

section
/-!
PROOFS. The checksum unit: the register step on naturals, and what `CRC.FLUSH` and `crc16` leave in every state
(40_crc16.md R120 to R126).
-/

namespace Sys2Proof.Codec

/-- Bit 15 of the register is set exactly when its value is at least 32768, the test of R126. -/
theorem getLsbD_fifteen (r : Checksum) : r.getLsbD 15 = decide (32768 ≤ r.toNat) := by
  have hmsb : r.msb = r.getLsbD 15 := r.msb_eq_getLsbD_last
  rw [← hmsb, BitVec.msb_eq_decide]

/-- The register step of R122 computes `shift` of R126. -/
theorem crcShift_toNat (r : Checksum) (b : Bit) : (crcShift r b).toNat = Reference.crcShift r.toNat b := by
  have hshl : (r <<< 1).toNat = 2 * r.toNat % 65536 := by
    rw [BitVec.toNat_shiftLeft, Nat.shiftLeft_eq, Nat.mul_comm]
  have hpoly : Config.crcPoly.toNat = 4129 := rfl
  simp only [crcShift, Reference.crcShift, getLsbD_fifteen]
  split
  · rw [BitVec.toNat_xor, hshl, hpoly]
  · exact hshl

theorem foldl_crcShift_toNat (bits : BitSeq) (r : Checksum) :
    (bits.foldl crcShift r).toNat = bits.foldl Reference.crcShift r.toNat :=
  (List.foldl_hom BitVec.toNat fun r b => (crcShift_toNat r b).symm).symm

/-- The value of `crc16(bits)` is what the loop of R126 returns: the flush feeds the sixteen zeros after the message. -/
theorem crc16_toNat (bits : BitSeq) : (crc16 bits).toNat = Reference.crc16 bits := by
  have hstart : Config.crcStart.toNat = 65535 := rfl
  rw [crc16, crcFlush, ← List.foldl_append, foldl_crcShift_toNat, hstart]
  rfl

end Sys2Proof.Codec

namespace Sys2Proof.Machine

theorem exec_crcInit (s : State) : exec .crcInit s = .next { s with crc := { reg := Config.crcStart } } := rfl

theorem exec_crcShift (b : Bit) (s : State) :
    exec (.crcShift b) s = .next { s with crc := { reg := Codec.crcShift s.crc.reg b } } := rfl

theorem exec_crcFlush (s : State) :
    exec .crcFlush s = .next { s with crc := { reg := Codec.crcFlush s.crc.reg } } := rfl

/-- Shifting a sequence in, bit by bit, folds the register step over it and leaves everything else. -/
theorem feed_crcShift (bits : BitSeq) (s : State) :
    feed (fun b => exec (.crcShift b)) bits s =
      .next { s with crc := { reg := bits.foldl Codec.crcShift s.crc.reg } } := by
  induction bits generalizing s with
  | nil => rfl
  | cons b bs ih => rw [feed_cons, exec_crcShift, andThen_next, ih, List.foldl_cons]

/-- A call of `crc16` in terms of the commands of its expansion (R102). -/
theorem exec_crc16_expansion (bits : BitSeq) (s : State) :
    exec (.crc16 bits) s =
      andThen (andThen (andThen (exec .crcInit s) (feed (fun b => exec (.crcShift b)) bits)) (exec .crcFlush))
        (exec .crcRead) := rfl

/-- `crc16(bits)` leaves its value in the register, hands it back, and changes nothing else. -/
theorem exec_crc16 (bits : BitSeq) (s : State) :
    exec (.crc16 bits) s =
      .next { s with
        crc := { reg := Codec.crc16 bits }
        host := { s.host with returned := s.host.returned ++ [Codec.crc16 bits] } } := by
  simp only [exec_crc16_expansion, exec_crcInit, andThen_next, feed_crcShift, exec_crcFlush]
  rfl

/-- Settles O6: the register holds `Codec.crc16 bits`, which is the value of the rule's loop. -/
theorem crc16ComputesTheChecksum : Obligations.Crc16ComputesTheChecksum := fun bits s =>
  ⟨_, exec_crc16 bits s, Codec.crc16_toNat bits, rfl, rfl, rfl, rfl, rfl, rfl⟩

/-- Settles O1. -/
theorem crcInitLoadsAllOnes : Obligations.CrcInitLoadsAllOnes := exec_crcInit

/-- Settles O2: the model's register step is the rule's, with `0x1021` for `CRC_POLY`. -/
theorem crcShiftStepsTheRegister : Obligations.CrcShiftStepsTheRegister := exec_crcShift

/-- Settles O4: shifting in sixteen zeros folds the register step over them, which is the flush. -/
theorem crcFlushIsSixteenZeroShifts : Obligations.CrcFlushIsSixteenZeroShifts := fun s =>
  ⟨_, exec_crcFlush s, feed_crcShift _ s, rfl⟩

end Sys2Proof.Machine
end

section
/-!
PROOFS. The stand-alone stuffer: its scan is the loop of the spec and bounds the runs of ones, and what `STUFF.BIT` and
`stuff` leave in every state (41_bit_stuffer.md R141 to R146).
-/

namespace Sys2Proof.Codec

/-- The fifth 1 in a row is followed by a 0, and the count restarts (R142). -/
theorem stuffStep_one_of_fifth {ones : Fin 5} (h : ones.val + 1 = 5) : stuffStep ones true = ([true, false], 0) := by
  rw [stuffStep_one, dif_neg (by omega)]

/-- A 1 before the fifth in a row is copied and counted (R142). -/
theorem stuffStep_one_of_not_fifth {ones : Fin 5} (h : ones.val + 1 ≠ 5) :
    stuffStep ones true = ([true], ones + 1) := by
  have hlt : ones.val + 1 < 5 := by omega
  have hsucc : (⟨ones.val + 1, hlt⟩ : Fin 5) = ones + 1 := Fin.ext (Fin.val_add_one_of_lt' hlt).symm
  rw [stuffStep_one, dif_pos hlt, hsucc]

/-- The loop of R145, from any counter and output, appends what the scan from that counter emits. -/
theorem stuffLoop_eq_scan (bits : BitSeq) (ones : Fin 5) (out : BitSeq) :
    Reference.stuffLoop bits ones.val out = out ++ (scan stuffStep ones bits).1 := by
  induction bits generalizing ones out with
  | nil => simp [Reference.stuffLoop]
  | cons b bs ih =>
    cases b with
    | false => simpa [Reference.stuffLoop, scan_cons] using ih 0 (out ++ [false])
    | true =>
      by_cases h : ones.val + 1 = 5
      · simpa [Reference.stuffLoop, scan_cons, h, stuffStep_one_of_fifth h] using ih 0 (out ++ [true] ++ [false])
      · have hval : (ones + 1).val = ones.val + 1 := Fin.val_add_one_of_lt' (by omega)
        simpa [Reference.stuffLoop, scan_cons, h, stuffStep_one_of_not_fifth h, hval] using ih (ones + 1) (out ++ [true])

/-- The scan of the machine returns what the loop of R145 returns. -/
theorem stuff_eq_reference (bits : BitSeq) : stuff bits = Reference.stuff bits :=
  (stuffLoop_eq_scan bits 0 []).symm

/-- A run of ones does not reach over a 0. -/
theorem ones_infix_append_zero {n : Nat} {xs ys : BitSeq} (h : List.replicate n true <:+: xs ++ false :: ys) :
    List.replicate n true <:+: xs ∨ List.replicate n true <:+: ys := by
  have hprefix : ∀ m, List.replicate m true <+: false :: ys → m = 0 := by
    rintro (_ | m) hm
    · rfl
    · cases (List.cons_prefix_cons.mp hm).1
  obtain hxs | hys | ⟨l₁, l₂, hl, hl₁, hl₂⟩ := List.infix_append_iff.mp h
  · exact .inl hxs
  · obtain hp | hys := List.infix_cons_iff.mp hys
    · obtain rfl := hprefix n hp
      exact .inl xs.nil_infix
    · exact .inr hys
  · obtain ⟨-, h₁, h₂⟩ := List.append_eq_replicate_iff.mp hl.symm
    rw [h₂] at hl₂
    have hnil : l₂ = [] := List.length_eq_zero_iff.mp (hprefix _ hl₂)
    rw [hl, hnil, List.append_nil]
    exact .inl hl₁.isInfix

/-- A run of fewer than six ones, then a 0, holds no six ones in a row unless what follows does. -/
theorem no_six_ones_append_zero {k : Nat} (hk : k < 6) {ys : BitSeq} (h : ¬ List.replicate 6 true <:+: ys) :
    ¬ List.replicate 6 true <:+: List.replicate k true ++ false :: ys := by
  intro hsix
  obtain hrun | hys := ones_infix_append_zero hsix
  · have hlen := hrun.length_le
    simp only [List.length_replicate] at hlen
    omega
  · exact h hys

/-- What the stuffer emits holds no six ones in a row, not even after the ones it has counted already (R146). -/
theorem scan_no_six_ones (bits : BitSeq) (ones : Fin 5) :
    ¬ List.replicate 6 true <:+: List.replicate ones.val true ++ (scan stuffStep ones bits).1 := by
  induction bits generalizing ones with
  | nil =>
    intro hsix
    have hlen := hsix.length_le
    simp only [scan_nil, List.append_nil, List.length_replicate] at hlen
    omega
  | cons b bs ih =>
    have hzero : ¬ List.replicate 6 true <:+: (scan stuffStep 0 bs).1 := ih 0
    rw [scan_cons]
    cases b with
    | false => exact no_six_ones_append_zero (by omega) hzero
    | true =>
      have hrun : ∀ ys, List.replicate ones.val true ++ true :: ys = List.replicate (ones.val + 1) true ++ ys :=
        fun ys => by rw [List.replicate_succ', List.append_assoc, List.singleton_append]
      by_cases h : ones.val + 1 = 5
      · simp only [stuffStep_one_of_fifth h, List.cons_append, List.nil_append, hrun]
        exact no_six_ones_append_zero (by omega) hzero
      · have hval : (ones + 1).val = ones.val + 1 := Fin.val_add_one_of_lt' (by omega)
        simp only [stuffStep_one_of_not_fifth h, List.singleton_append, hrun, ← hval]
        exact ih (ones + 1)

/-- No stuffed sequence holds six ones in a row (R146). -/
theorem stuff_no_six_ones (bits : BitSeq) : ¬ List.replicate 6 true <:+: stuff bits := scan_no_six_ones bits 0

end Sys2Proof.Codec

namespace Sys2Proof.Machine

/-- The stuffer after a `STUFF.BIT` for each bit of a sequence. -/
def Stuffer.after (u : Stuffer) (bits : BitSeq) : Stuffer :=
  { ones := (Codec.scan Codec.stuffStep u.ones bits).2, out := u.out ++ (Codec.scan Codec.stuffStep u.ones bits).1 }

@[simp] theorem Stuffer.after_nil (u : Stuffer) : u.after [] = u := by simp [Stuffer.after]

theorem Stuffer.after_append (u : Stuffer) (xs ys : BitSeq) : u.after (xs ++ ys) = (u.after xs).after ys := by
  simp [Stuffer.after, Codec.scan_append]

/-- One bit, case by case (R142). -/
theorem Stuffer.after_bit (u : Stuffer) (b : Bit) :
    u.after [b] =
      if b then
        if u.ones.val + 1 = 5 then { ones := 0, out := u.out ++ [true] ++ [false] }
        else { ones := u.ones + 1, out := u.out ++ [true] }
      else { ones := 0, out := u.out ++ [false] } := by
  cases b with
  | false => simp [Stuffer.after, Codec.scan_cons]
  | true =>
    by_cases h : u.ones.val + 1 = 5
    · simp [Stuffer.after, Codec.scan_cons, Codec.stuffStep_one_of_fifth h, h]
    · simp [Stuffer.after, Codec.scan_cons, Codec.stuffStep_one_of_not_fifth h, h]

/-- The output only grows, so a stuffer whose later output fits had an output that fits. -/
theorem Stuffer.fits_of_after {p : Config.Params} {u : Stuffer} {bits : BitSeq} (h : (u.after bits).fits p = true) :
    u.fits p = true :=
  holds_mono (by simp [Stuffer.after]) h

theorem exec_stuffRst (s : State) : exec .stuffRst s = .next { s with st := Stuffer.reset } := rfl

/-- When `STUFF.BIT` answers, and with which state (R142). -/
theorem exec_stuffBit_eq_next {b : Bit} {s t : State} :
    exec (.stuffBit b) s = .next t ↔ (s.st.after [b]).fits s.params = true ∧ t = { s with st := s.st.after [b] } := by
  have hafter : s.st.after [b] =
      { ones := (Codec.stuffStep s.st.ones b).2, out := s.st.out ++ (Codec.stuffStep s.st.ones b).1 } := by
    simp [Stuffer.after, Codec.scan_cons]
  rw [hafter]
  exact execStuffBit_eq_next

/-- From an output that fits, a `STUFF.BIT` per bit answers exactly when the last output fits, and writes the stuffer
alone. -/
theorem feed_stuffBit_eq_next {bits : BitSeq} {s t : State} (hs : s.st.fits s.params = true) :
    feed (fun b => exec (.stuffBit b)) bits s = .next t ↔
      (s.st.after bits).fits s.params = true ∧ t = { s with st := s.st.after bits } := by
  induction bits generalizing s with
  | nil => simp [hs, eq_comm]
  | cons b bs ih =>
    have hafter : s.st.after (b :: bs) = (s.st.after [b]).after bs := s.st.after_append [b] bs
    rw [feed_cons, andThen_eq_next, hafter]
    constructor
    · rintro ⟨u, hu, ht⟩
      obtain ⟨hfit, rfl⟩ := exec_stuffBit_eq_next.mp hu
      exact (ih hfit).mp ht
    · intro h
      have hfit : (s.st.after [b]).fits s.params = true := Stuffer.fits_of_after h.1
      exact ⟨_, exec_stuffBit_eq_next.mpr ⟨hfit, rfl⟩, (ih hfit).mpr h⟩

/-- A call of `stuff` in terms of the commands of its expansion (R102). -/
theorem exec_stuff_expansion (bits : BitSeq) (s : State) :
    exec (.stuff bits) s = andThen (exec .stuffRst s) (feed (fun b => exec (.stuffBit b)) bits) := rfl

/-- `stuff(bits)` answers exactly when the stuffed sequence is within the open width; it leaves that sequence in `st.out` and
changes the stuffer alone. -/
theorem exec_stuff_eq_next {bits : BitSeq} {s t : State} :
    exec (.stuff bits) s = .next t ↔
      Config.inWidth s.params.idxW (Codec.stuff bits).length = true ∧
        t = { s with st := { ones := (Codec.stuffScan bits).2, out := Codec.stuff bits } } := by
  rw [exec_stuff_expansion, exec_stuffRst, andThen_next]
  exact feed_stuffBit_eq_next (holds_nil s.params none)

/-- Settles O10: `st.out` holds `Codec.stuff bits`, which is the output of the rule's loop. -/
theorem stuffRunsTheRulesLoop : Obligations.StuffRunsTheRulesLoop := by
  intro bits s hwidth
  rw [← Codec.stuff_eq_reference] at hwidth ⊢
  exact ⟨_, exec_stuff_eq_next.mpr ⟨hwidth, rfl⟩, rfl, rfl⟩

/-- Settles O12: no scan emits six ones in a row, and five ones in the input come out as a run of five. -/
theorem stuffedOutputHasNoSixOnes : Obligations.StuffedOutputHasNoSixOnes := by
  constructor
  · intro bits s t h
    obtain ⟨-, rfl⟩ := exec_stuff_eq_next.mp h
    exact Codec.stuff_no_six_ones bits
  · have hanswers : Config.inWidth State.reset.params.idxW (Codec.stuff (List.replicate 5 true)).length = true := rfl
    have hfive : List.replicate 5 true <:+: Codec.stuff (List.replicate 5 true) := ⟨[], [false], rfl⟩
    exact ⟨_, _, _, exec_stuff_eq_next.mpr ⟨hanswers, rfl⟩, hfive⟩

/-- Settles O8: each marker is an assignment to its unit on every state. -/
theorem scanMarkersResetTheirUnit : Obligations.ScanMarkersResetTheirUnit := fun s => ⟨exec_stuffRst s, rfl, rfl⟩

/-- Settles O9: the stuffer the rule describes is the one `STUFF.BIT` commits. -/
theorem stuffBitCopiesThenInserts : Obligations.StuffBitCopiesThenInserts := by
  intro b s u hu
  have hafter : s.st.after [b] = u := s.st.after_bit b
  rw [← hafter] at hu ⊢
  exact exec_stuffBit_eq_next.mpr ⟨hu, rfl⟩

end Sys2Proof.Machine
end

section
/-!
PROOFS. The stand-alone destuffer: its scan is the loop of the spec, and what `DESTUFF.BIT` and `destuff` leave in every state
(42_bit_destuffer.md R156 to R161).
-/

namespace Sys2Proof.Codec

/-- With no inspection pending a 1 is copied and counted (R157). -/
theorem destuffStep_one_of_not_pending {ones : Fin 6} (h : ones ≠ 5) : destuffStep ones true = ([true], ones + 1) := by
  have hlt : ones.val < 5 := by omega
  have hsucc : (⟨ones.val + 1, by omega⟩ : Fin 6) = ones + 1 :=
    Fin.ext (Fin.val_add_one_of_lt' (Nat.succ_lt_succ hlt)).symm
  rw [destuffStep_plain hlt, if_pos rfl, hsucc]

/-- With no inspection pending a 0 is copied and the count restarts (R157). -/
theorem destuffStep_zero_of_not_pending {ones : Fin 6} (h : ones ≠ 5) : destuffStep ones false = ([false], 0) := by
  rw [destuffStep_plain (by omega), if_neg Bool.false_ne_true]

/-- The loop of R161, from any counter and output, appends what the scan from that counter emits. -/
theorem destuffLoop_eq_scan (bits : BitSeq) (ones : Fin 6) (out : BitSeq) :
    Reference.destuffLoop bits ones.val out = out ++ (scan destuffStep ones bits).1 := by
  induction bits generalizing ones out with
  | nil => simp [Reference.destuffLoop]
  | cons b bs ih =>
    by_cases h : ones = 5
    · subst h
      cases b with
      | false => simpa [Reference.destuffLoop, scan_cons] using ih 0 out
      | true => simpa [Reference.destuffLoop, scan_cons] using ih 1 (out ++ [true])
    · have hne : ones.val ≠ 5 := by omega
      cases b with
      | false =>
        simpa [Reference.destuffLoop, scan_cons, hne, destuffStep_zero_of_not_pending h] using ih 0 (out ++ [false])
      | true =>
        have hval : (ones + 1).val = ones.val + 1 := Fin.val_add_one_of_lt' (by omega)
        simpa [Reference.destuffLoop, scan_cons, hne, destuffStep_one_of_not_pending h, hval] using
          ih (ones + 1) (out ++ [true])

/-- The scan of the machine returns what the loop of R161 returns. -/
theorem destuff_eq_reference (bits : BitSeq) : destuff bits = Reference.destuff bits :=
  (destuffLoop_eq_scan bits 0 []).symm

end Sys2Proof.Codec

namespace Sys2Proof.Machine

/-- The destuffer after a `DESTUFF.BIT` for each bit of a sequence. -/
def Destuffer.after (u : Destuffer) (bits : BitSeq) : Destuffer :=
  { ones := (Codec.scan Codec.destuffStep u.ones bits).2, out := u.out ++ (Codec.scan Codec.destuffStep u.ones bits).1 }

@[simp] theorem Destuffer.after_nil (u : Destuffer) : u.after [] = u := by simp [Destuffer.after]

theorem Destuffer.after_append (u : Destuffer) (xs ys : BitSeq) : u.after (xs ++ ys) = (u.after xs).after ys := by
  simp [Destuffer.after, Codec.scan_append]

/-- One bit, case by case (R157). -/
theorem Destuffer.after_bit (u : Destuffer) (b : Bit) :
    u.after [b] =
      if u.ones.val = 5 then
        if b then { ones := 1, out := u.out ++ [true] } else { u with ones := 0 }
      else if b then { ones := u.ones + 1, out := u.out ++ [true] }
      else { ones := 0, out := u.out ++ [false] } := by
  by_cases h : u.ones = 5
  · cases b <;> simp [Destuffer.after, Codec.scan_cons, h]
  · have hne : u.ones.val ≠ 5 := by omega
    cases b with
    | false => simp [Destuffer.after, Codec.scan_cons, Codec.destuffStep_zero_of_not_pending h, hne]
    | true => simp [Destuffer.after, Codec.scan_cons, Codec.destuffStep_one_of_not_pending h, hne]

/-- The output only grows, so a destuffer whose later output fits had an output that fits. -/
theorem Destuffer.fits_of_after {p : Config.Params} {u : Destuffer} {bits : BitSeq} (h : (u.after bits).fits p = true) :
    u.fits p = true :=
  holds_mono (by simp [Destuffer.after]) h

theorem exec_destuffRst (s : State) : exec .destuffRst s = .next { s with ds := Destuffer.reset } := rfl

theorem exec_destuffEnd (s : State) : exec .destuffEnd s = .next { s with ds := { s.ds with ones := 0 } } := rfl

/-- When `DESTUFF.BIT` answers, and with which state (R157). -/
theorem exec_destuffBit_eq_next {b : Bit} {s t : State} :
    exec (.destuffBit b) s = .next t ↔ (s.ds.after [b]).fits s.params = true ∧ t = { s with ds := s.ds.after [b] } := by
  have hafter : s.ds.after [b] =
      { ones := (Codec.destuffStep s.ds.ones b).2, out := s.ds.out ++ (Codec.destuffStep s.ds.ones b).1 } := by
    simp [Destuffer.after, Codec.scan_cons]
  rw [hafter]
  exact execDestuffBit_eq_next

/-- From an output that fits, a `DESTUFF.BIT` per bit answers exactly when the last output fits, and writes the destuffer
alone. -/
theorem feed_destuffBit_eq_next {bits : BitSeq} {s t : State} (hs : s.ds.fits s.params = true) :
    feed (fun b => exec (.destuffBit b)) bits s = .next t ↔
      (s.ds.after bits).fits s.params = true ∧ t = { s with ds := s.ds.after bits } := by
  induction bits generalizing s with
  | nil => simp [hs, eq_comm]
  | cons b bs ih =>
    have hafter : s.ds.after (b :: bs) = (s.ds.after [b]).after bs := s.ds.after_append [b] bs
    rw [feed_cons, andThen_eq_next, hafter]
    constructor
    · rintro ⟨u, hu, ht⟩
      obtain ⟨hfit, rfl⟩ := exec_destuffBit_eq_next.mp hu
      exact (ih hfit).mp ht
    · intro h
      have hfit : (s.ds.after [b]).fits s.params = true := Destuffer.fits_of_after h.1
      exact ⟨_, exec_destuffBit_eq_next.mpr ⟨hfit, rfl⟩, (ih hfit).mpr h⟩

/-- A call of `destuff` in terms of the commands of its expansion (R102). -/
theorem exec_destuff_expansion (bits : BitSeq) (s : State) :
    exec (.destuff bits) s =
      andThen (andThen (exec .destuffRst s) (feed (fun b => exec (.destuffBit b)) bits)) (exec .destuffEnd) := rfl

/-- `destuff(bits)` answers exactly when the destuffed sequence is within the open width; it leaves that sequence in `ds.out`
with the counter cleared, and changes the destuffer alone. -/
theorem exec_destuff_eq_next {bits : BitSeq} {s t : State} :
    exec (.destuff bits) s = .next t ↔
      Config.inWidth s.params.idxW (Codec.destuff bits).length = true ∧
        t = { s with ds := { ones := 0, out := Codec.destuff bits } } := by
  have hscan (u : State) :
      feed (fun b => exec (.destuffBit b)) bits { s with ds := Destuffer.reset } = .next u ↔
        Config.inWidth s.params.idxW (Codec.destuff bits).length = true ∧
          u = { s with ds := { ones := (Codec.destuffScan bits).2, out := Codec.destuff bits } } :=
    feed_destuffBit_eq_next (holds_nil s.params none)
  rw [exec_destuff_expansion, exec_destuffRst, andThen_next, andThen_eq_next]
  constructor
  · rintro ⟨u, hu, ht⟩
    obtain ⟨hwidth, rfl⟩ := (hscan u).mp hu
    exact ⟨hwidth, (next_inj.mp ht).symm⟩
  · rintro ⟨hwidth, rfl⟩
    exact ⟨_, (hscan _).mpr ⟨hwidth, rfl⟩, exec_destuffEnd _⟩

/-- Settles O15: `ds.out` holds `Codec.destuff bits`, which is the output of the rule's loop. -/
theorem destuffRunsTheRulesLoop : Obligations.DestuffRunsTheRulesLoop := by
  intro bits s hwidth
  rw [← Codec.destuff_eq_reference] at hwidth ⊢
  exact ⟨_, exec_destuff_eq_next.mpr ⟨hwidth, rfl⟩, rfl, rfl, rfl⟩

/-- Settles O14: the destuffer the rule describes is the one `DESTUFF.BIT` commits. -/
theorem destuffBitInspectsAfterFive : Obligations.DestuffBitInspectsAfterFive := by
  intro b s u hu
  have hafter : s.ds.after [b] = u := s.ds.after_bit b
  rw [← hafter] at hu ⊢
  exact exec_destuffBit_eq_next.mpr ⟨hu, rfl⟩

end Sys2Proof.Machine
end

section
/-!
PROOFS. The framer: what `FR.START` and `FR.FRAME` do case by case, and `encode` as the loop of the spec
(43_hdlc_framer.md R172 to R175).
-/

namespace Sys2Proof.Machine

/-- A framer is within the parameters container by container and register by register (R7, R64). -/
theorem Framer.fits_iff {p : Config.Params} {f : Framer} :
    f.fits p = true ↔
      holds p p.srcCap f.src = true ∧ holds p p.txCap f.tx = true ∧ Config.inWidth p.idxW f.chunkSize = true ∧
        Config.inWidth p.idxW f.k = true ∧ Config.inWidth p.cntW f.frameCount = true := by
  simp only [Framer.fits, Bool.and_eq_true, and_assoc]

theorem Framer.not_busy_iff {f : Framer} : f.busy = false ↔ f.phase ≠ .run := by simp [Framer.busy]

/-- The framer that an encode begins with, after `FR.START` (R172). -/
def Framer.started (f : Framer) : Framer := { f with tx := [], frameCount := 0, k := 0, phase := .run }

/-- `FR.START` is refused in phase RUN (R172). -/
theorem exec_frStart_of_run {s : State} (h : s.fr.phase = .run) : exec .frStart s = .refused .framerBusy :=
  if_pos (Framer.busy_iff.mpr h)

/-- The emptiness test comes before the chunk size (R172). -/
theorem exec_frStart_of_empty {s : State} (h : s.fr.phase ≠ .run) (hsrc : s.fr.src = []) :
    exec .frStart s = .next (takeCondition .inputError s) :=
  execFrStart_eq_next.mpr ⟨h, .inl ⟨hsrc, rfl⟩⟩

/-- A chunk size of 0 on a source that is not empty is refused (R172). -/
theorem exec_frStart_of_chunkSize_zero {s : State} (h : s.fr.phase ≠ .run) (hsrc : s.fr.src ≠ [])
    (hc : s.fr.chunkSize = 0) : exec .frStart s = .refused .chunkSizeZero := by
  have hbusy : ¬ s.fr.busy = true := mt Framer.busy_iff.mp h
  have hlen : ¬ s.fr.src.length = 0 := mt List.length_eq_zero_iff.mp hsrc
  change execFrStart s = _
  rw [execFrStart, if_neg hbusy, if_neg hlen, if_pos hc]

/-- Otherwise an encode begins (R172). -/
theorem exec_frStart_of_source {s : State} (h : s.fr.phase ≠ .run) (hsrc : s.fr.src ≠ []) (hc : 1 ≤ s.fr.chunkSize) :
    exec .frStart s = .next { s with fr := s.fr.started } :=
  execFrStart_eq_next.mpr ⟨h, .inr ⟨hsrc, by omega, rfl⟩⟩

/-- Settles O19: the four cases of `FR.START`, one after the other. -/
theorem frStartBeginsAnEncode : Obligations.FrStartBeginsAnEncode := fun _ =>
  ⟨exec_frStart_of_run, exec_frStart_of_empty, exec_frStart_of_chunkSize_zero, exec_frStart_of_source⟩

/-- The framer after the step its phase RUN selects: the next chunk of `SRC` is framed (R174). -/
def Framer.nextFrame (f : Framer) : Framer := f.afterChunk (slice f.src f.k f.chunkEnd)

theorem Framer.chunkReady_iff {f : Framer} : f.chunkReady = true ↔ f.k < f.src.length ∧ 1 ≤ f.chunkSize := by
  simp [Framer.chunkReady]

/-- In phase RUN with R174's precondition, `FR.FRAME` answers exactly when the framer with its next Frame is within the
parameters. -/
theorem exec_frFrame_eq_next {s t : State} (hrun : s.fr.phase = .run) (hready : s.fr.chunkReady = true) :
    exec .frFrame s = .next t ↔ s.fr.nextFrame.fits s.params = true ∧ t = { s with fr := s.fr.nextFrame } :=
  execFrFrame_eq_next.trans ⟨fun ⟨_, _, h⟩ => h, fun h => ⟨hrun, hready, h⟩⟩

/-- Settles O20: the framer of the rule is the one `FR.FRAME` commits, but for the private registers. -/
theorem frFrameEmitsTheNextFrame : Obligations.FrFrameEmitsTheNextFrame := by
  intro s hrun hk hc e chunk stuffed f hfit
  have hready : s.fr.chunkReady = true := Framer.chunkReady_iff.mpr ⟨hk, hc⟩
  exact ⟨{ s with fr := s.fr.nextFrame }, (exec_frFrame_eq_next hrun hready).mpr ⟨hfit, rfl⟩, rfl⟩

/-- What a Frame adds stays, so a framer that fits with its next Frame fitted before it. -/
theorem Framer.fits_of_nextFrame {p : Config.Params} {f : Framer} (h : f.nextFrame.fits p = true) : f.fits p = true := by
  obtain ⟨hsrc, htx, hc, hk, hcount⟩ := Framer.fits_iff.mp h
  have hle : f.tx.length ≤ f.nextFrame.tx.length := by simp [Framer.nextFrame]
  exact Framer.fits_iff.mpr
    ⟨hsrc, holds_mono hle htx, hc, inWidth_mono (Nat.le_add_right ..) hk, inWidth_mono (Nat.le_add_right ..) hcount⟩

/-- The framer after at most `turns` steps, taken while it is busy. -/
def Framer.afterRun : (turns : Nat) → Framer → Framer
  | 0, f => f
  | turns + 1, f => if f.busy then afterRun turns f.nextFrame else f

theorem Framer.afterRun_succ_of_busy {f : Framer} (h : f.busy = true) (turns : Nat) :
    f.afterRun (turns + 1) = f.nextFrame.afterRun turns := if_pos h

theorem Framer.afterRun_succ_of_not_busy {f : Framer} (h : ¬ f.busy = true) (turns : Nat) :
    f.afterRun (turns + 1) = f := if_neg h

theorem runFramer_succ_of_busy {s : State} (h : s.fr.busy = true) (turns : Nat) :
    runFramer (turns + 1) s = andThen (exec .frFrame s) (runFramer turns) := if_pos h

theorem runFramer_succ_of_not_busy {s : State} (h : ¬ s.fr.busy = true) (turns : Nat) :
    runFramer (turns + 1) s = .next s := if_neg h

theorem Framer.fits_of_afterRun {p : Config.Params} {turns : Nat} {f : Framer} (h : (f.afterRun turns).fits p = true) :
    f.fits p = true := by
  induction turns generalizing f with
  | zero => exact h
  | succ n ih =>
    by_cases hb : f.busy = true
    · rw [Framer.afterRun_succ_of_busy hb] at h
      exact Framer.fits_of_nextFrame (ih h)
    · rwa [Framer.afterRun_succ_of_not_busy hb] at h

/-- A framer that has framed none, some or all of the chunks of `encode(bits, c)`: its cursor counts the chunks, and
its phase is RUN exactly while bits of the source are left (R174). -/
structure Framer.InEncode (bits : BitSeq) (c : Nat) (f : Framer) : Prop where
  src : f.src = bits
  chunkSize : f.chunkSize = c
  chunkSize_pos : 1 ≤ c
  k : f.k = f.frameCount * c
  phase : f.phase = if bits.length ≤ f.k then .done else .run

namespace Framer.InEncode

variable {bits : BitSeq} {c : Nat} {f : Framer}

theorem busy_iff (h : f.InEncode bits c) : f.busy = true ↔ f.k < bits.length := by
  rw [Framer.busy_iff, h.phase]
  split
  · next hk => simp [hk]
  · next hk => simpa using hk

/-- R174's precondition holds whenever the phase is RUN. -/
theorem chunkReady (h : f.InEncode bits c) (hb : f.busy = true) : f.chunkReady = true := by
  rw [Framer.chunkReady_iff, h.src, h.chunkSize]
  exact ⟨h.busy_iff.mp hb, h.chunkSize_pos⟩

theorem nextFrame (h : f.InEncode bits c) : f.nextFrame.InEncode bits c where
  src := h.src
  chunkSize := h.chunkSize
  chunkSize_pos := h.chunkSize_pos
  k := by simp only [Framer.nextFrame, Framer.afterChunk_k, Framer.afterChunk_frameCount, h.k, h.chunkSize, Nat.succ_mul]
  phase := by simp only [Framer.nextFrame, Framer.afterChunk_phase, Framer.afterChunk_k, h.src]

theorem afterRun (h : f.InEncode bits c) (turns : Nat) : (f.afterRun turns).InEncode bits c := by
  induction turns generalizing f with
  | zero => exact h
  | succ n ih =>
    by_cases hb : f.busy = true
    · rw [Framer.afterRun_succ_of_busy hb]
      exact ih h.nextFrame
    · rwa [Framer.afterRun_succ_of_not_busy hb]

/-- Every frame takes at least one bit of the source, so as many turns as bits are left end the encode. -/
theorem afterRun_phase (h : f.InEncode bits c) {turns : Nat} (hturns : bits.length ≤ f.k + turns) :
    (f.afterRun turns).phase = .done := by
  induction turns generalizing f with
  | zero => exact h.phase.trans (if_pos hturns)
  | succ n ih =>
    by_cases hb : f.busy = true
    · have hk : f.nextFrame.k = f.k + c := congrArg (f.k + ·) h.chunkSize
      have hc : 1 ≤ c := h.chunkSize_pos
      rw [Framer.afterRun_succ_of_busy hb]
      exact ih h.nextFrame (by omega)
    · have hk : bits.length ≤ f.k := Nat.le_of_not_lt fun hlt => hb (h.busy_iff.mpr hlt)
      rw [Framer.afterRun_succ_of_not_busy hb, h.phase, if_pos hk]

/-- The loop of R175, from the framer's cursor, output and count, returns what the steps leave in them. -/
theorem encodeLoop_eq (h : f.InEncode bits c) (turns : Nat) :
    Reference.encodeLoop bits c turns f.k f.tx f.frameCount =
      ((f.afterRun turns).tx, (f.afterRun turns).frameCount) := by
  induction turns generalizing f with
  | zero => rfl
  | succ n ih =>
    rw [Reference.encodeLoop]
    by_cases hk : f.k < bits.length
    · have htx : f.nextFrame.tx = f.tx ++ Codec.frameBits (slice bits f.k (min (f.k + c) bits.length)) := by
        rw [Framer.nextFrame, Framer.afterChunk_tx, Framer.chunkEnd, h.src, h.chunkSize]
      have hnext : f.nextFrame.k = f.k + c := congrArg (f.k + ·) h.chunkSize
      rw [if_pos hk, Framer.afterRun_succ_of_busy (h.busy_iff.mpr hk), ← ih h.nextFrame, htx, hnext]
      simp only [Codec.frameBits, Codec.frameBody, List.append_assoc]
      rfl
    · rw [if_neg hk, Framer.afterRun_succ_of_not_busy (hk ∘ h.busy_iff.mp)]

end Framer.InEncode

/-- From a framer that fits, the steps of an encode answer exactly when the framer they end with fits, and write the framer
alone. -/
theorem runFramer_eq_next {bits : BitSeq} {c turns : Nat} {s t : State} (h : s.fr.InEncode bits c)
    (hs : s.fr.fits s.params = true) :
    runFramer turns s = .next t ↔
      (s.fr.afterRun turns).fits s.params = true ∧ t = { s with fr := s.fr.afterRun turns } := by
  induction turns generalizing s with
  | zero => exact ⟨fun ht => ⟨hs, (next_inj.mp ht).symm⟩, fun ⟨_, ht⟩ => next_inj.mpr ht.symm⟩
  | succ n ih =>
    by_cases hb : s.fr.busy = true
    · have hframe (u : State) := exec_frFrame_eq_next (t := u) (Framer.busy_iff.mp hb) (h.chunkReady hb)
      rw [runFramer_succ_of_busy hb, Framer.afterRun_succ_of_busy hb, andThen_eq_next]
      constructor
      · rintro ⟨u, hu, ht⟩
        obtain ⟨hfit, rfl⟩ := (hframe u).mp hu
        exact (ih h.nextFrame hfit).mp ht
      · intro ht
        have hfit : s.fr.nextFrame.fits s.params = true := Framer.fits_of_afterRun ht.1
        exact ⟨_, (hframe _).mpr ⟨hfit, rfl⟩, (ih h.nextFrame hfit).mpr ht⟩
    · rw [runFramer_succ_of_not_busy hb, Framer.afterRun_succ_of_not_busy hb]
      exact ⟨fun ht => ⟨hs, (next_inj.mp ht).symm⟩, fun ⟨_, ht⟩ => next_inj.mpr ht.symm⟩

/-- The framer with the operands of an encode written by the host. -/
def Framer.loaded (f : Framer) (bits : BitSeq) (c : Nat) : Framer := { f with src := bits, chunkSize := c }

/-- `FR.START` on a source that is not empty, with a chunk size of at least 1, begins its encode. -/
theorem Framer.started_inEncode {bits : BitSeq} {c : Nat} (f : Framer) (hbits : bits ≠ []) (hc : 1 ≤ c) :
    (f.loaded bits c).started.InEncode bits c where
  src := rfl
  chunkSize := rfl
  chunkSize_pos := hc
  k := (Nat.zero_mul c).symm
  phase := (if_neg (Nat.not_le_of_lt (List.length_pos_iff.mpr hbits))).symm

/-- The two host writes an encode begins with (R102). -/
theorem loadSrc_loadChunkSize_eq_next {bits : BitSeq} {c : Nat} {s t : State} :
    andThen (loadSrc bits s) (loadChunkSize c) = .next t ↔
      s.fr.busy = false ∧ ({ s.fr with src := bits } : Framer).fits s.params = true ∧
        (s.fr.loaded bits c).fits s.params = true ∧ t = { s with fr := s.fr.loaded bits c } := by
  rw [andThen_eq_next]
  constructor
  · rintro ⟨u, hu, ht⟩
    obtain ⟨hb, hfit, rfl⟩ := loadSrc_eq_next.mp hu
    obtain ⟨-, hloaded, rfl⟩ := loadChunkSize_eq_next.mp ht
    exact ⟨hb, hfit, hloaded, rfl⟩
  · rintro ⟨hb, hfit, hloaded, rfl⟩
    exact ⟨_, loadSrc_eq_next.mpr ⟨hb, hfit, rfl⟩, loadChunkSize_eq_next.mpr ⟨hb, hloaded, rfl⟩⟩

/-- A framer that fits still does with a source that the capacity of `SRC` holds. -/
theorem Framer.fits_withSrc {p : Config.Params} {f : Framer} {bits : BitSeq} (h : f.fits p = true)
    (hsrc : holds p p.srcCap bits = true) : ({ f with src := bits } : Framer).fits p = true :=
  Framer.fits_iff.mpr ⟨hsrc, (Framer.fits_iff.mp h).2⟩

/-- Of the two host writes, the second needs room for the chunk size only. -/
theorem Framer.fits_loaded {p : Config.Params} {f : Framer} {bits : BitSeq} {c : Nat}
    (h : ({ f with src := bits } : Framer).fits p = true) (hc : Config.inWidth p.idxW c = true) :
    (f.loaded bits c).fits p = true := by
  obtain ⟨hsrc, htx, -, hrest⟩ := Framer.fits_iff.mp h
  exact Framer.fits_iff.mpr ⟨hsrc, htx, hc, hrest⟩

/-- What `FR.START` clears takes no room. -/
theorem Framer.fits_started {p : Config.Params} {f : Framer} (h : f.fits p = true) : f.started.fits p = true := by
  obtain ⟨hsrc, -, hc, -, -⟩ := Framer.fits_iff.mp h
  exact Framer.fits_iff.mpr ⟨hsrc, holds_nil p p.txCap, hc, inWidth_zero p.idxW, inWidth_zero p.cntW⟩

/-- The framer at the end of `encode(bits, c)`, for a source that is not empty and a chunk size of at least 1 (R102). -/
def Framer.encoded (f : Framer) (bits : BitSeq) (c : Nat) : Framer := (f.loaded bits c).started.afterRun bits.length

section Encoded

variable {bits : BitSeq} {c : Nat} (f : Framer) (hbits : bits ≠ []) (hc : 1 ≤ c)
include hbits hc

theorem Framer.encoded_inEncode : (f.encoded bits c).InEncode bits c := (f.started_inEncode hbits hc).afterRun _

theorem Framer.encoded_phase : (f.encoded bits c).phase = .done :=
  (f.started_inEncode hbits hc).afterRun_phase (Nat.le_add_left ..)

/-- The steps of an encode compute what the rule's loop returns (R175). -/
theorem Framer.encode_eq_encoded :
    Reference.encode bits c = ((f.encoded bits c).tx, (f.encoded bits c).frameCount) :=
  (f.started_inEncode hbits hc).encodeLoop_eq bits.length

/-- The result of an encode is within the parameters exactly when what the rule's loop returns is. -/
theorem Framer.encoded_fits (p : Config.Params) :
    (f.encoded bits c).fits p =
      ({ f with
          src := bits, chunkSize := c, tx := (Reference.encode bits c).1, frameCount := (Reference.encode bits c).2,
          k := (Reference.encode bits c).2 * c } : Framer).fits p := by
  have hend := f.encoded_inEncode hbits hc
  simp only [Framer.fits, f.encode_eq_encoded hbits hc, hend.src, hend.chunkSize, hend.k]

end Encoded

/-- A call of `encode` in terms of the host writes and the steps of its expansion (R102). -/
theorem exec_encode_expansion (bits : BitSeq) (c : Nat) (s : State) :
    exec (.encode bits c) s =
      andThen (andThen (andThen (loadSrc bits s) (loadChunkSize c)) (exec .frStart)) (runFramer bits.length) := rfl

/-- Once its operands are written, an encode is `FR.START` and the steps that follow it. -/
theorem exec_encode_of_loads {bits : BitSeq} {c : Nat} {s : State} (hb : s.fr.busy = false)
    (hfit : ({ s.fr with src := bits } : Framer).fits s.params = true) (hc : Config.inWidth s.params.idxW c = true) :
    exec (.encode bits c) s =
      andThen (exec .frStart { s with fr := s.fr.loaded bits c }) (runFramer bits.length) := by
  rw [exec_encode_expansion, loadSrc_loadChunkSize_eq_next.mpr ⟨hb, hfit, Framer.fits_loaded hfit hc, rfl⟩, andThen_next]

/-- For a source that is not empty and a chunk size of at least 1, `encode` answers exactly when the framer is free and
`SRC` and the result are within the parameters; it changes the framer alone. -/
theorem exec_encode_eq_next {bits : BitSeq} {c : Nat} {s t : State} (hbits : bits ≠ []) (hc : 1 ≤ c) :
    exec (.encode bits c) s = .next t ↔
      s.fr.busy = false ∧ ({ s.fr with src := bits } : Framer).fits s.params = true ∧
        (s.fr.encoded bits c).fits s.params = true ∧ t = { s with fr := s.fr.encoded bits c } := by
  have hbegin := s.fr.started_inEncode hbits hc
  have hstart (hb : s.fr.busy = false) :
      exec .frStart { s with fr := s.fr.loaded bits c } = .next { s with fr := (s.fr.loaded bits c).started } :=
    exec_frStart_of_source (Framer.not_busy_iff.mp hb) hbits hc
  constructor
  · intro h
    rw [exec_encode_expansion, andThen_assoc] at h
    obtain ⟨u, hu, ht⟩ := andThen_eq_next.mp h
    obtain ⟨hb, hfit, hloaded, rfl⟩ := loadSrc_loadChunkSize_eq_next.mp hu
    rw [hstart hb, andThen_next] at ht
    exact ⟨hb, hfit, (runFramer_eq_next hbegin (Framer.fits_started hloaded)).mp ht⟩
  · rintro ⟨hb, hfit, hresult⟩
    have hstarted : (s.fr.loaded bits c).started.fits s.params = true := Framer.fits_of_afterRun hresult.1
    obtain ⟨-, -, hwidth, -⟩ := Framer.fits_iff.mp hstarted
    rw [exec_encode_of_loads (c := c) hb hfit hwidth, hstart hb, andThen_next]
    exact (runFramer_eq_next hbegin hstarted).mpr hresult

/-- Settles O22: the two stops are those of `FR.START`, and otherwise the steps compute what the rule's loop returns. -/
theorem encodeRunsTheRulesLoop : Obligations.EncodeRunsTheRulesLoop := by
  intro bits c s hb hfit
  have hphase : (s.fr.loaded bits c).phase ≠ .run := Framer.not_busy_iff.mp hb
  refine ⟨?_, ?_, ?_⟩
  · rintro rfl hwidth
    have herror := exec_frStart_of_empty (s := { s with fr := s.fr.loaded [] c }) hphase rfl
    rw [exec_encode_of_loads hb (Framer.fits_withSrc hfit (holds_nil ..)) hwidth, herror]
    rfl
  · rintro hbits rfl hsrc
    have hrefused := exec_frStart_of_chunkSize_zero (s := { s with fr := s.fr.loaded bits 0 }) hphase hbits rfl
    rw [exec_encode_of_loads hb hsrc (inWidth_zero _), hrefused, andThen_refused]
  · intro hbits hc hresult
    obtain ⟨hsrc, -⟩ := Framer.fits_iff.mp hresult
    have hend := s.fr.encoded_inEncode hbits hc
    rw [← s.fr.encoded_fits hbits hc] at hresult
    rw [s.fr.encode_eq_encoded hbits hc]
    exact ⟨_, (exec_encode_eq_next hbits hc).mpr ⟨hb, Framer.fits_withSrc hfit hsrc, hresult, rfl⟩, rfl, rfl,
      s.fr.encoded_phase hbits hc, hend.src, hend.chunkSize, hend.k, rfl⟩

end Sys2Proof.Machine
end

section
/-!
PROOFS. The deframer's command and its three steps: what each does, case by case (44_hdlc_deframer.md R192 to R198).
-/

namespace Sys2Proof.Machine

theorem Deframer.not_busy_iff {d : Deframer} :
    d.busy = false ↔ d.phase = .idle ∨ d.phase = .done ∨ d.phase = .aborted := by
  cases h : d.phase <;> simp [Deframer.busy, h]

/-- The deframer that a decode begins with, after `DF.START` (R192). -/
def Deframer.started (d : Deframer) : Deframer :=
  { d with out := [], framesOk := 0, framesFailed := 0, i := 0, start := 0, j := 0, phase := .hunt }

/-- `DF.START` is refused while the deframer is busy (R192). -/
theorem exec_dfStart_of_busy {s : State} (h : s.df.busy = true) : exec .dfStart s = .refused .deframerBusy := if_pos h

/-- `DF.START` begins a decode otherwise (R192). -/
theorem exec_dfStart_of_not_busy {s : State} (h : s.df.busy = false) :
    exec .dfStart s = .next { s with df := s.df.started } :=
  execDfStart_eq_next.mpr ⟨h, rfl⟩

/-- Settles O25: the two clauses are the phases that are not busy and those that are. -/
theorem dfStartBeginsADecode : Obligations.DfStartBeginsADecode := fun _ =>
  ⟨exec_dfStart_of_not_busy ∘ Deframer.not_busy_iff.mpr, exec_dfStart_of_busy ∘ Deframer.busy_iff.mpr⟩

/-- Settles O26: the three cases are the three ways `DF.HUNT` answers. -/
theorem dfHuntLooksForAnOpeningFlag : Obligations.DfHuntLooksForAnOpeningFlag := fun _ hp =>
  ⟨fun hend => execDfHunt_eq_next.mpr ⟨hp, .inl ⟨hend, rfl⟩⟩,
    fun hin hmiss hfit => execDfHunt_eq_next.mpr ⟨hp, .inr (.inl ⟨hin, hmiss, hfit, rfl⟩)⟩,
    fun hin hflag hfit => execDfHunt_eq_next.mpr ⟨hp, .inr (.inr ⟨hin, hflag, hfit, rfl⟩)⟩⟩

/-- Settles O27: the three cases are the three ways `DF.SEEK` answers. -/
theorem dfSeekLooksForTheClosingFlag : Obligations.DfSeekLooksForTheClosingFlag := fun _ hp =>
  ⟨fun hend => execDfSeek_eq_next.mpr ⟨hp, .inl ⟨hend, rfl⟩⟩,
    fun hin hmiss hfit => execDfSeek_eq_next.mpr ⟨hp, .inr (.inl ⟨hin, hmiss, hfit, rfl⟩)⟩,
    fun hin hflag => execDfSeek_eq_next.mpr ⟨hp, .inr (.inr ⟨hin, hflag, rfl⟩)⟩⟩

/-- With its cursors in order inside `RX`, the deframer reads the payload between them (R196). -/
theorem Deframer.payload_of_inside {d : Deframer} (hstart : d.start ≤ d.j) (hj : d.j ≤ d.rx.length) :
    d.payload = some (slice d.rx d.start d.j) := by
  have hend : d.start + (d.j - d.start) = d.j := Nat.add_sub_cancel' hstart
  refine memRead_eq_some.mpr ⟨hend.trans_le hj, ?_⟩
  rw [hend]

/-- The destuffed payload that `DF.CHECK` tests (R196). -/
def Deframer.destuffed (d : Deframer) : BitSeq := Codec.destuff (slice d.rx d.start d.j)

/-- The deframer after a frame whose recomputed Checksum is compared with the received one (R197, R198). -/
def Deframer.verified (d : Deframer) : Deframer :=
  if Codec.crc16 (payloadData d.destuffed) ≠ payloadCrc d.destuffed then
    { d with
      framesFailed := d.framesFailed + 1, i := d.j + 8, phase := .hunt
      crcReg := Codec.crc16 (payloadData d.destuffed), dsOnes := 0 }
  else
    { d with
      out := d.out ++ payloadData d.destuffed, framesOk := d.framesOk + 1, i := d.j + 8, phase := .hunt
      crcReg := Codec.crc16 (payloadData d.destuffed), dsOnes := 0 }

@[simp] theorem Deframer.verified_phase (d : Deframer) : d.verified.phase = .hunt := by
  unfold verified
  split <;> rfl

@[simp] theorem Deframer.verified_i (d : Deframer) : d.verified.i = d.j + 8 := by
  unfold verified
  split <;> rfl

@[simp] theorem Deframer.verified_rx (d : Deframer) : d.verified.rx = d.rx := by
  unfold verified
  split <;> rfl

section Check

variable {s : State} (hp : s.df.phase = .check) (hstart : s.df.start ≤ s.df.j) (hj : s.df.j ≤ s.df.rx.length)
include hp hstart hj

/-- A payload that destuffs to fewer than 16 bits aborts the decode (R196). -/
theorem exec_dfCheck_of_short (hshort : s.df.destuffed.length < 16) :
    exec .dfCheck s = .next { s with df := { s.df with phase := .aborted, dsOnes := 0 } } :=
  execDfCheck_eq_next.mpr ⟨hp, _, Deframer.payload_of_inside hstart hj, .inl ⟨hshort, rfl⟩⟩

/-- On a longer payload `DF.CHECK` answers exactly when the deframer with the frame recorded is within the parameters
(R198). -/
theorem exec_dfCheck_of_long {t : State} (hlong : 16 ≤ s.df.destuffed.length) :
    exec .dfCheck s = .next t ↔ s.df.verified.fits s.params = true ∧ t = { s with df := s.df.verified } := by
  have hdf : (verifyPayload s.df.destuffed { s with df := { s.df with dsOnes := 0 } }).df = s.df.verified :=
    verifyPayload_df ..
  have hverify : verifyPayload s.df.destuffed { s with df := { s.df with dsOnes := 0 } } =
      { s with df := s.df.verified } := by rw [verifyPayload_only_df, hdf]
  have hraw := Deframer.payload_of_inside hstart hj
  constructor
  · intro h
    obtain ⟨-, raw, hraw', hcase⟩ := execDfCheck_eq_next.mp h
    obtain rfl : slice s.df.rx s.df.start s.df.j = raw := Option.some.inj (hraw.symm.trans hraw')
    rcases hcase with ⟨hshort, -⟩ | ⟨-, hfit, rfl⟩
    · exact absurd hshort (Nat.not_lt.mpr hlong)
    · exact ⟨hdf ▸ hfit, hverify⟩
  · rintro ⟨hfit, rfl⟩
    exact execDfCheck_eq_next.mpr ⟨hp, _, hraw, .inr ⟨hlong, hdf.symm ▸ hfit, hverify.symm⟩⟩

end Check

/-- Settles O28: the deframer of the rule is the one `DF.CHECK` leaves, but for the private registers. -/
theorem dfCheckAbortsOrVerifies : Obligations.DfCheckAbortsOrVerifies := by
  intro s hp hstart hj p data receivedCrc d
  refine ⟨fun hshort => ⟨_, exec_dfCheck_of_short hp hstart hj hshort, rfl, rfl⟩, fun hlong hfit => ?_⟩
  have hverified : s.df.verified = { d with crcReg := Codec.crc16 data, dsOnes := 0 } := by
    by_cases hcrc : Codec.crc16 data ≠ receivedCrc
    · rw [show d = _ from if_pos hcrc]
      exact if_pos hcrc
    · rw [show d = _ from if_neg hcrc]
      exact if_neg hcrc
  have hfits : s.df.verified.fits s.params = true := hverified ▸ hfit
  refine ⟨_, (exec_dfCheck_of_long hp hstart hj hlong).mpr ⟨hfits, rfl⟩, ?_⟩
  rw [hverified]

end Sys2Proof.Machine
end

section
/-!
PROOFS. `decode` as the loop of the spec (44_hdlc_deframer.md R200): the steps of a busy deframer as a function of its state,
what every step of a decode keeps, and the induction over the turns of the rule's loop.
-/

namespace Sys2Proof.Machine

/-- A deframer is within the parameters container by container and register by register (R7, R64). -/
theorem Deframer.fits_iff {p : Config.Params} {d : Deframer} :
    d.fits p = true ↔
      holds p p.rxCap d.rx = true ∧ holds p p.outCap d.out = true ∧ Config.inWidth p.idxW d.i = true ∧
        Config.inWidth p.idxW d.start = true ∧ Config.inWidth p.idxW d.j = true ∧
        Config.inWidth p.cntW d.framesOk = true ∧ Config.inWidth p.cntW d.framesFailed = true := by
  simp only [Deframer.fits, Bool.and_eq_true, and_assoc]

/-! ## The step that the phase selects -/

/-- The deframer after `DF.HUNT` (R193). -/
def Deframer.afterHunt (d : Deframer) : Deframer :=
  if d.rx.length < d.i + 8 then { d with phase := .done }
  else if slice d.rx d.i (d.i + 8) ≠ Config.flag then { d with i := d.i + 1 }
  else { d with start := d.i + 8, j := d.i + 8, phase := .seek }

/-- The deframer after `DF.SEEK` (R194). -/
def Deframer.afterSeek (d : Deframer) : Deframer :=
  if d.rx.length < d.j + 8 then { d with phase := .done }
  else if slice d.rx d.j (d.j + 8) ≠ Config.flag then { d with j := d.j + 1 }
  else { d with phase := .check }

/-- The deframer after `DF.CHECK` (R196 to R198). -/
def Deframer.afterCheck (d : Deframer) : Deframer :=
  if d.destuffed.length < 16 then { d with phase := .aborted, dsOnes := 0 } else d.verified

/-- The deframer after the step its phase selects; in the phases that are not busy there is none (R100). -/
def Deframer.nextStep (d : Deframer) : Deframer :=
  match d.phase with
  | .hunt => d.afterHunt
  | .seek => d.afterSeek
  | .check => d.afterCheck
  | .idle | .done | .aborted => d

section NextStep

variable {d : Deframer}

theorem Deframer.nextStep_of_hunt (hp : d.phase = .hunt) : d.nextStep = d.afterHunt := by rw [nextStep, hp]

/-- With fewer than eight bits left the hunt ends (R193). -/
theorem Deframer.nextStep_of_hunt_end (hp : d.phase = .hunt) (hend : d.rx.length < d.i + 8) :
    d.nextStep = { d with phase := .done } := by
  rw [nextStep_of_hunt hp, afterHunt, if_pos hend]

/-- On eight bits that are no Flag the hunt goes on at the next bit (R193). -/
theorem Deframer.nextStep_of_hunt_miss (hp : d.phase = .hunt) (hin : d.i + 8 ≤ d.rx.length)
    (hmiss : slice d.rx d.i (d.i + 8) ≠ Config.flag) : d.nextStep = { d with i := d.i + 1 } := by
  rw [nextStep_of_hunt hp, afterHunt, if_neg (Nat.not_lt.mpr hin), if_pos hmiss]

/-- On a Flag the search for the closing Flag begins (R193). -/
theorem Deframer.nextStep_of_hunt_flag (hp : d.phase = .hunt) (hin : d.i + 8 ≤ d.rx.length)
    (hflag : slice d.rx d.i (d.i + 8) = Config.flag) :
    d.nextStep = { d with start := d.i + 8, j := d.i + 8, phase := .seek } := by
  rw [nextStep_of_hunt hp, afterHunt, if_neg (Nat.not_lt.mpr hin), if_neg (not_not.mpr hflag)]

theorem Deframer.nextStep_of_seek (hp : d.phase = .seek) : d.nextStep = d.afterSeek := by rw [nextStep, hp]

theorem Deframer.nextStep_of_check (hp : d.phase = .check) : d.nextStep = d.afterCheck := by rw [nextStep, hp]

theorem Deframer.nextStep_of_not_busy (hb : d.busy = false) : d.nextStep = d := by
  rcases not_busy_iff.mp hb with hp | hp | hp <;> rw [nextStep, hp]

theorem Deframer.iterate_nextStep_of_not_busy (hb : d.busy = false) (n : Nat) : nextStep^[n] d = d :=
  Function.iterate_fixed (nextStep_of_not_busy hb) n

end NextStep

/-- From a deframer that fits, `DF.HUNT` answers exactly when the deframer it leaves fits. -/
theorem exec_dfHunt_eq_next {s t : State} (hp : s.df.phase = .hunt) (hs : s.df.fits s.params = true) :
    exec .dfHunt s = .next t ↔ s.df.afterHunt.fits s.params = true ∧ t = { s with df := s.df.afterHunt } := by
  refine execDfHunt_eq_next.trans ?_
  unfold Deframer.afterHunt
  by_cases hend : s.df.rx.length < s.df.i + 8
  · have hfit : ({ s.df with phase := .done } : Deframer).fits s.params = true := hs
    simp [hp, hend, hfit, Nat.not_le.mpr hend]
  · by_cases hflag : slice s.df.rx s.df.i (s.df.i + 8) = Config.flag
    · simp [hp, hend, hflag, Nat.not_lt.mp hend]
    · simp [hp, hend, hflag, Nat.not_lt.mp hend]

/-- From a deframer that fits, `DF.SEEK` answers exactly when the deframer it leaves fits. -/
theorem exec_dfSeek_eq_next {s t : State} (hp : s.df.phase = .seek) (hs : s.df.fits s.params = true) :
    exec .dfSeek s = .next t ↔ s.df.afterSeek.fits s.params = true ∧ t = { s with df := s.df.afterSeek } := by
  have hfit (q : DfPhase) : ({ s.df with phase := q } : Deframer).fits s.params = true := hs
  refine execDfSeek_eq_next.trans ?_
  unfold Deframer.afterSeek
  by_cases hend : s.df.rx.length < s.df.j + 8
  · simp [hp, hend, hfit, Nat.not_le.mpr hend, takeCondition]
  · by_cases hflag : slice s.df.rx s.df.j (s.df.j + 8) = Config.flag
    · simp [hp, hend, hflag, hfit, Nat.not_lt.mp hend]
    · simp [hp, hend, hflag, Nat.not_lt.mp hend]

/-- From a deframer that fits, `DF.CHECK` answers exactly when the deframer it leaves fits. -/
theorem exec_dfCheck_eq_next {s t : State} (hp : s.df.phase = .check) (hstart : s.df.start ≤ s.df.j)
    (hj : s.df.j ≤ s.df.rx.length) (hs : s.df.fits s.params = true) :
    exec .dfCheck s = .next t ↔ s.df.afterCheck.fits s.params = true ∧ t = { s with df := s.df.afterCheck } := by
  unfold Deframer.afterCheck
  split
  · next hshort =>
    have hfit : ({ s.df with phase := .aborted, dsOnes := 0 } : Deframer).fits s.params = true := hs
    rw [exec_dfCheck_of_short hp hstart hj hshort, next_inj, hfit]
    simp only [true_and, eq_comm]
  · next hlong => exact exec_dfCheck_of_long hp hstart hj (Nat.not_lt.mp hlong)

/-! ## What the steps of a decode keep -/

/-- The cursors of a deframer during a decode, in every phase: in order and inside `RX`, and in phase CHECK with the closing
Flag inside it too. -/
structure Deframer.InDecode (d : Deframer) : Prop where
  i : d.i ≤ d.rx.length
  start : d.start ≤ d.j
  j : d.j ≤ d.rx.length
  closing : d.phase = .check → d.j + 8 ≤ d.rx.length

namespace Deframer.InDecode

variable {d : Deframer}

theorem afterHunt (h : d.InDecode) : d.afterHunt.InDecode := by
  unfold Deframer.afterHunt
  split
  · exact ⟨h.i, h.start, h.j, nofun⟩
  · next hend =>
    have hin : d.i + 8 ≤ d.rx.length := Nat.not_lt.mp hend
    split
    · exact ⟨by simp only; omega, h.start, h.j, h.closing⟩
    · exact ⟨h.i, le_rfl, hin, nofun⟩

theorem afterSeek (h : d.InDecode) (hp : d.phase = .seek) : d.afterSeek.InDecode := by
  unfold Deframer.afterSeek
  split
  · exact ⟨h.i, h.start, h.j, nofun⟩
  · next hend =>
    have hin : d.j + 8 ≤ d.rx.length := Nat.not_lt.mp hend
    split
    · exact ⟨h.i, Nat.le_succ_of_le h.start, by simp only; omega, by simp [hp]⟩
    · exact ⟨h.i, h.start, h.j, fun _ => hin⟩

theorem verified (h : d.InDecode) (hp : d.phase = .check) : d.verified.InDecode := by
  unfold Deframer.verified
  split <;> exact ⟨h.closing hp, h.start, h.j, nofun⟩

theorem afterCheck (h : d.InDecode) (hp : d.phase = .check) : d.afterCheck.InDecode := by
  unfold Deframer.afterCheck
  split
  · exact ⟨h.i, h.start, h.j, nofun⟩
  · exact h.verified hp

theorem nextStep (h : d.InDecode) : d.nextStep.InDecode := by
  unfold Deframer.nextStep
  split
  · exact h.afterHunt
  · next hp => exact h.afterSeek hp
  · next hp => exact h.afterCheck hp
  all_goals exact h

theorem iterate_nextStep (h : d.InDecode) (n : Nat) : (Deframer.nextStep^[n] d).InDecode :=
  Function.Iterate.rec _ h (fun _ => nextStep) n

/-- With its cursors inside `RX`, a deframer needs room for its containers and its counters only. -/
theorem fits_iff (h : d.InDecode) {p : Config.Params} :
    d.fits p = true ↔
      holds p p.rxCap d.rx = true ∧ holds p p.outCap d.out = true ∧ Config.inWidth p.cntW d.framesOk = true ∧
        Config.inWidth p.cntW d.framesFailed = true := by
  refine Deframer.fits_iff.trans ⟨fun ⟨hrx, hout, _, _, _, hcnt⟩ => ⟨hrx, hout, hcnt⟩, fun ⟨hrx, hout, hcnt⟩ => ?_⟩
  have hcursor {n : Nat} (hn : n ≤ d.rx.length) : Config.inWidth p.idxW n = true := by
    simp only [holds, Bool.and_eq_true] at hrx
    exact inWidth_mono hn hrx.2
  exact ⟨hrx, hout, hcursor h.i, hcursor (h.start.trans h.j), hcursor h.j, hcnt⟩

end Deframer.InDecode

/-- A later deframer of a decode: the input is the same, and the results have only grown. -/
structure Deframer.Extends (later d : Deframer) : Prop where
  rx : later.rx = d.rx
  out : d.out <+: later.out
  framesOk : d.framesOk ≤ later.framesOk
  framesFailed : d.framesFailed ≤ later.framesFailed

section Extends

variable (d : Deframer)

theorem Deframer.afterHunt_extends : d.afterHunt.Extends d := by
  unfold afterHunt
  split_ifs <;> exact ⟨rfl, List.prefix_rfl, le_rfl, le_rfl⟩

theorem Deframer.afterSeek_extends : d.afterSeek.Extends d := by
  unfold afterSeek
  split_ifs <;> exact ⟨rfl, List.prefix_rfl, le_rfl, le_rfl⟩

theorem Deframer.afterCheck_extends : d.afterCheck.Extends d := by
  unfold afterCheck verified
  split_ifs
  · exact ⟨rfl, List.prefix_rfl, le_rfl, le_rfl⟩
  · exact ⟨rfl, List.prefix_rfl, le_rfl, Nat.le_succ _⟩
  · exact ⟨rfl, List.prefix_append .., Nat.le_succ _, le_rfl⟩

theorem Deframer.nextStep_extends : d.nextStep.Extends d := by
  unfold nextStep
  split
  · exact d.afterHunt_extends
  · exact d.afterSeek_extends
  · exact d.afterCheck_extends
  all_goals exact ⟨rfl, List.prefix_rfl, le_rfl, le_rfl⟩

end Extends

/-- What a step adds stays, so a deframer that fits after a step of a decode fitted before it. -/
theorem Deframer.InDecode.fits_of_nextStep {p : Config.Params} {d : Deframer} (h : d.InDecode)
    (hfit : d.nextStep.fits p = true) : d.fits p = true := by
  obtain ⟨hrx, hout, hok, hfailed⟩ := h.nextStep.fits_iff.mp hfit
  have hext := d.nextStep_extends
  exact h.fits_iff.mpr
    ⟨hext.rx ▸ hrx, holds_mono hext.out.length_le hout, inWidth_mono hext.framesOk hok,
      inWidth_mono hext.framesFailed hfailed⟩

theorem Deframer.InDecode.fits_of_iterate {p : Config.Params} {d : Deframer} (h : d.InDecode) {n : Nat}
    (hfit : (Deframer.nextStep^[n] d).fits p = true) : d.fits p = true := by
  induction n generalizing d with
  | zero => exact hfit
  | succ n ih => exact h.fits_of_nextStep (ih h.nextStep hfit)

theorem Deframer.iterate_nextStep_rx (d : Deframer) (n : Nat) : (nextStep^[n] d).rx = d.rx :=
  Function.Iterate.rec (fun e : Deframer => e.rx = d.rx) rfl (fun e he => e.nextStep_extends.rx.trans he) n

/-- The selected step of a busy deframer answers exactly when the deframer it leaves fits, and writes the deframer alone. -/
theorem execDfSelected_eq_next_iff {s t : State} (hb : s.df.busy = true) (h : s.df.InDecode)
    (hs : s.df.fits s.params = true) :
    execDfSelected s = .next t ↔ s.df.nextStep.fits s.params = true ∧ t = { s with df := s.df.nextStep } := by
  unfold execDfSelected
  rcases Deframer.busy_iff.mp hb with hp | hp | hp
  · rw [hp, Deframer.nextStep_of_hunt hp]
    exact exec_dfHunt_eq_next hp hs
  · rw [hp, Deframer.nextStep_of_seek hp]
    exact exec_dfSeek_eq_next hp hs
  · rw [hp, Deframer.nextStep_of_check hp]
    exact exec_dfCheck_eq_next hp h.start h.j hs

theorem runDeframer_succ_of_busy {s : State} (h : s.df.busy = true) (turns : Nat) :
    runDeframer (turns + 1) s = andThen (execDfSelected s) (runDeframer turns) := if_pos h

theorem runDeframer_of_not_busy {s : State} (h : s.df.busy = false) (turns : Nat) : runDeframer turns s = .next s := by
  cases turns with
  | zero => rfl
  | succ n => exact if_neg (Bool.not_eq_true _ ▸ h)

/-- From a deframer that fits, the steps of a decode answer exactly when the deframer they end with fits, and write the
deframer alone. -/
theorem runDeframer_eq_next {turns : Nat} {s t : State} (h : s.df.InDecode) (hs : s.df.fits s.params = true) :
    runDeframer turns s = .next t ↔
      (Deframer.nextStep^[turns] s.df).fits s.params = true ∧ t = { s with df := Deframer.nextStep^[turns] s.df } := by
  have hstop {u : State} (hu : u.df.fits u.params = true) :
      (Host.Outcome.next u : Result) = .next t ↔ u.df.fits u.params = true ∧ t = u := by
    simp only [hu, true_and, next_inj, eq_comm]
  induction turns generalizing s with
  | zero => exact hstop hs
  | succ n ih =>
    cases hb : s.df.busy with
    | false =>
      rw [runDeframer_of_not_busy hb, Deframer.iterate_nextStep_of_not_busy hb]
      exact hstop hs
    | true =>
      have hstep (u : State) := execDfSelected_eq_next_iff (t := u) hb h hs
      have hrest := ih (s := { s with df := s.df.nextStep }) h.nextStep
      rw [runDeframer_succ_of_busy hb, Function.iterate_succ_apply, andThen_eq_next]
      constructor
      · rintro ⟨u, hu, ht⟩
        obtain ⟨hfit, rfl⟩ := (hstep u).mp hu
        exact (hrest hfit).mp ht
      · intro ht
        have hfit : s.df.nextStep.fits s.params = true := h.nextStep.fits_of_iterate ht.1
        exact ⟨_, (hstep _).mpr ⟨hfit, rfl⟩, (hrest hfit).mpr ht⟩

/-! ## The steps and the rule's loop -/

/-- The search of the inner loop goes forward. -/
theorem le_seekFlag (bits : BitSeq) (turns j : Nat) : j ≤ Reference.seekFlag bits turns j := by
  induction turns generalizing j with
  | zero => exact le_rfl
  | succ n ih =>
    unfold Reference.seekFlag
    split
    · exact (Nat.le_succ j).trans (ih (j + 1))
    · exact le_rfl

/-- The search of the inner loop stays inside the sequence. -/
theorem seekFlag_le_length {bits : BitSeq} {turns j : Nat} (hj : j ≤ bits.length) :
    Reference.seekFlag bits turns j ≤ bits.length := by
  induction turns generalizing j with
  | zero => exact hj
  | succ n ih =>
    unfold Reference.seekFlag
    split
    · next hmiss =>
      obtain ⟨hin, -⟩ := hmiss
      exact ih (by omega)
    · exact hj

/-- With turns enough, the inner loop stops at a Flag or with fewer than eight bits left. -/
theorem slice_seekFlag {bits : BitSeq} {turns j : Nat} (hturns : bits.length < j + 8 + turns)
    (hin : Reference.seekFlag bits turns j + 8 ≤ bits.length) :
    slice bits (Reference.seekFlag bits turns j) (Reference.seekFlag bits turns j + 8) = Config.flag := by
  induction turns generalizing j with
  | zero => exact absurd hin (Nat.not_le.mpr hturns)
  | succ n ih =>
    unfold Reference.seekFlag at hin ⊢
    split at hin
    · next hmiss =>
      rw [if_pos hmiss]
      exact ih (by omega) hin
    · next hstop =>
      rw [if_neg hstop]
      exact not_not.mp fun hne => hstop ⟨hin, hne⟩

namespace Deframer

variable {d : Deframer}

/-- In phase SEEK the steps move `df.j` to where the inner loop stops. -/
theorem iterate_nextStep_of_seek (hp : d.phase = .seek) (turns : Nat) :
    nextStep^[Reference.seekFlag d.rx turns d.j - d.j] d = { d with j := Reference.seekFlag d.rx turns d.j } := by
  induction turns generalizing d with
  | zero => simp [Reference.seekFlag]
  | succ n ih =>
    unfold Reference.seekFlag
    split
    · next hmiss =>
      have hstep : d.nextStep = { d with j := d.j + 1 } := by
        rw [nextStep_of_seek hp, afterSeek, if_neg (Nat.not_lt.mpr hmiss.1), if_pos hmiss.2]
      have hle : d.j + 1 ≤ Reference.seekFlag d.rx n (d.j + 1) := le_seekFlag ..
      rw [show Reference.seekFlag d.rx n (d.j + 1) - d.j = Reference.seekFlag d.rx n (d.j + 1) - (d.j + 1) + 1 by omega,
        Function.iterate_succ_apply, hstep]
      exact ih (d := { d with j := d.j + 1 }) hp
    · simp

/-- A deframer that has stopped with the results `r` of the rule's loop (R200). -/
structure Returns (d : Deframer) (r : Reference.Decoded) : Prop where
  out : d.out = r.data
  framesOk : d.framesOk = r.ok
  framesFailed : d.framesFailed = r.failed
  phase : d.phase = if r.abort then .aborted else .done

/-- A stopped deframer has returned its results, whatever number of turns it is given. -/
theorem iterate_nextStep_returns (hp : d.phase = .done ∨ d.phase = .aborted) (n : Nat) :
    (nextStep^[n] d).Returns ⟨d.out, d.framesOk, d.framesFailed, d.abort⟩ := by
  rw [iterate_nextStep_of_not_busy (not_busy_iff.mpr (.inr hp))]
  refine ⟨rfl, rfl, rfl, ?_⟩
  rcases hp with hp | hp <;> simp [abort, hp]

/-- The deframer that found an opening Flag at `df.i`, with `df.j` where the inner loop of R200 stops. -/
def atNextFlag (d : Deframer) (phase : DfPhase) : Deframer :=
  { d with start := d.i + 8, j := Reference.seekFlag d.rx d.rx.length (d.i + 8), phase }

/-- An opening Flag takes one step, and the search for the next Flag one step per bit. -/
theorem iterate_nextStep_atNextFlag (hp : d.phase = .hunt) (hin : d.i + 8 ≤ d.rx.length)
    (hflag : slice d.rx d.i (d.i + 8) = Config.flag) :
    nextStep^[(d.atNextFlag .seek).j - (d.i + 8) + 1] d = d.atNextFlag .seek := by
  rw [Function.iterate_succ_apply, nextStep_of_hunt_flag hp hin hflag]
  exact iterate_nextStep_of_seek (d := { d with start := d.i + 8, j := d.i + 8, phase := .seek }) rfl d.rx.length

/-- Without a closing Flag the frame is dropped in silence (R194). -/
theorem nextStep_atNextFlag_of_truncated (hend : d.rx.length < (d.atNextFlag .seek).j + 8) :
    (d.atNextFlag .seek).nextStep = d.atNextFlag .done := by
  rw [nextStep_of_seek rfl, afterSeek]
  exact if_pos hend

/-- A closing Flag leads to the check of the frame (R194). -/
theorem nextStep_atNextFlag_of_closed (hend : (d.atNextFlag .seek).j + 8 ≤ d.rx.length) :
    (d.atNextFlag .seek).nextStep = d.atNextFlag .check := by
  have hclosing := slice_seekFlag (j := d.i + 8) (by omega) hend
  rw [nextStep_of_seek rfl, afterSeek]
  exact (if_neg (Nat.not_lt.mpr hend)).trans (if_neg (not_not.mpr hclosing))

/-- The turn of the outer loop at an opening Flag: it ends the decode, or goes on from the deframer with the frame
recorded. -/
theorem decodeLoop_of_flag (hin : d.i + 8 ≤ d.rx.length) (hflag : slice d.rx d.i (d.i + 8) = Config.flag) (turns : Nat) :
    let recorded := (d.atNextFlag .check).verified
    Reference.decodeLoop d.rx (turns + 1) d.i d.out d.framesOk d.framesFailed =
      if d.rx.length < (d.atNextFlag .seek).j + 8 then ⟨d.out, d.framesOk, d.framesFailed, false⟩
      else if (d.atNextFlag .check).destuffed.length < 16 then ⟨d.out, d.framesOk, d.framesFailed, true⟩
      else Reference.decodeLoop d.rx turns recorded.i recorded.out recorded.framesOk recorded.framesFailed := by
  rw [Reference.decodeLoop, if_pos hin, if_neg (not_not.mpr hflag)]
  refine if_congr Iff.rfl rfl (if_congr Iff.rfl rfl ?_)
  by_cases hcrc : Codec.crc16 (payloadData (d.atNextFlag .check).destuffed) ≠ payloadCrc (d.atNextFlag .check).destuffed
  · rw [verified, if_pos hcrc]
    exact if_pos hcrc
  · rw [verified, if_neg hcrc]
    exact if_neg hcrc

/-- From phase HUNT at `df.i`, the steps compute what the outer loop of R200 returns from the index `df.i`: the turns of the
loop and the steps of the machine only have to be enough. -/
theorem iterate_nextStep_decodeLoop (hp : d.phase = .hunt) (h : d.InDecode) {turns n : Nat}
    (hturns : d.rx.length < d.i + turns) (hn : d.rx.length < d.i + n) :
    (nextStep^[n] d).Returns (Reference.decodeLoop d.rx turns d.i d.out d.framesOk d.framesFailed) := by
  induction turns generalizing d n with
  | zero => exact absurd hturns (Nat.not_lt.mpr h.i)
  | succ turns ih =>
    have hi := h.i
    obtain ⟨n, rfl⟩ : ∃ m, n = m + 1 := Nat.exists_eq_add_one.mpr (by omega)
    by_cases hin : d.i + 8 ≤ d.rx.length
    · by_cases hflag : slice d.rx d.i (d.i + 8) = Config.flag
      · have hstart : d.i + 8 ≤ (d.atNextFlag .seek).j := le_seekFlag ..
        have hj : (d.atNextFlag .seek).j ≤ d.rx.length := seekFlag_le_length hin
        have hsteps := iterate_nextStep_atNextFlag hp hin hflag
        obtain ⟨k, rfl⟩ : ∃ k, n = k + 2 + ((d.atNextFlag .seek).j - (d.i + 8)) :=
          ⟨n - ((d.atNextFlag .seek).j - (d.i + 8)) - 2, by omega⟩
        rw [decodeLoop_of_flag hin hflag, Nat.add_assoc, Function.iterate_add_apply, hsteps, Function.iterate_succ_apply]
        split
        · next hend =>
          rw [nextStep_atNextFlag_of_truncated hend]
          exact iterate_nextStep_returns (d := d.atNextFlag .done) (.inl rfl) _
        · next hend =>
          have hclosed := nextStep_atNextFlag_of_closed (Nat.not_lt.mp hend)
          rw [hclosed, Function.iterate_succ_apply, nextStep_of_check rfl, afterCheck]
          split
          · exact iterate_nextStep_returns (d := { d.atNextFlag .check with phase := .aborted, dsOnes := 0 }) (.inr rfl) _
          · have hcheck : (d.atNextFlag .check).InDecode := ⟨hi, hstart, hj, fun _ => Nat.not_lt.mp hend⟩
            have hrx : (d.atNextFlag .check).verified.rx = d.rx := verified_rx _
            have hnext : (d.atNextFlag .check).verified.i = (d.atNextFlag .seek).j + 8 := verified_i _
            rw [← hrx]
            exact ih (verified_phase _) (hcheck.verified rfl) (by rw [hrx, hnext]; omega) (by rw [hrx, hnext]; omega)
      · have hstep := nextStep_of_hunt_miss hp hin hflag
        rw [Reference.decodeLoop, if_pos hin, if_pos hflag, Function.iterate_succ_apply, hstep]
        exact ih (d := { d with i := d.i + 1 }) hp (hstep ▸ h.nextStep) (by simp only; omega) (by simp only; omega)
    · rw [Reference.decodeLoop, if_neg hin, Function.iterate_succ_apply, nextStep_of_hunt_end hp (Nat.not_le.mp hin)]
      exact iterate_nextStep_returns (d := { d with phase := .done }) (.inl rfl) n

end Deframer

/-- `DF.START` puts the cursors of a decode at the start of `RX`. -/
theorem Deframer.started_inDecode (d : Deframer) : d.started.InDecode :=
  ⟨Nat.zero_le _, le_rfl, Nat.zero_le _, nofun⟩

/-- What `DF.START` clears takes no room. -/
theorem Deframer.fits_started {p : Config.Params} {d : Deframer} (h : d.fits p = true) : d.started.fits p = true :=
  d.started_inDecode.fits_iff.mpr
    ⟨(Deframer.fits_iff.mp h).1, holds_nil p p.outCap, inWidth_zero p.cntW, inWidth_zero p.cntW⟩

/-- The deframer at the end of `decode(bits)` (R102). -/
def Deframer.decoded (d : Deframer) (bits : BitSeq) : Deframer :=
  nextStep^[2 * bits.length + 2] ({ d with rx := bits } : Deframer).started

section Decoded

variable (d : Deframer) (bits : BitSeq)

theorem Deframer.decoded_inDecode : (d.decoded bits).InDecode := (Deframer.started_inDecode _).iterate_nextStep _

theorem Deframer.decoded_rx : (d.decoded bits).rx = bits := Deframer.iterate_nextStep_rx ..

/-- The steps of a decode compute what the rule's loop returns (R200). -/
theorem Deframer.decoded_returns : (d.decoded bits).Returns (Reference.decode bits) :=
  iterate_nextStep_decodeLoop (d := ({ d with rx := bits } : Deframer).started) rfl (Deframer.started_inDecode _)
    (by simp only [started]; omega) (by simp only [started]; omega)

end Decoded

/-- A call of `decode` in terms of the host write, the command and the steps of its expansion (R102). -/
theorem exec_decode_expansion (bits : BitSeq) (s : State) :
    exec (.decode bits) s =
      andThen (andThen (loadRx bits s) (exec .dfStart)) (runDeframer (2 * bits.length + 2)) := rfl

/-- `decode` answers exactly when the deframer is free and `RX` and the result are within the parameters; it changes the
deframer alone. -/
theorem exec_decode_eq_next {bits : BitSeq} {s t : State} :
    exec (.decode bits) s = .next t ↔
      s.df.busy = false ∧ ({ s.df with rx := bits } : Deframer).fits s.params = true ∧
        (s.df.decoded bits).fits s.params = true ∧ t = { s with df := s.df.decoded bits } := by
  let loaded : State := { s with df := { s.df with rx := bits } }
  have hrun (hfit : loaded.df.fits s.params = true) :=
    runDeframer_eq_next (turns := 2 * bits.length + 2) (s := { s with df := loaded.df.started }) (t := t)
      (Deframer.started_inDecode _) (Deframer.fits_started hfit)
  have hstart (hb : s.df.busy = false) : exec .dfStart loaded = .next { s with df := loaded.df.started } :=
    exec_dfStart_of_not_busy hb
  rw [exec_decode_expansion, andThen_assoc, andThen_eq_next]
  constructor
  · rintro ⟨u, hu, ht⟩
    obtain ⟨hb, hfit, rfl⟩ := loadRx_eq_next.mp hu
    rw [hstart hb, andThen_next] at ht
    exact ⟨hb, hfit, (hrun hfit).mp ht⟩
  · rintro ⟨hb, hfit, hresult⟩
    refine ⟨loaded, loadRx_eq_next.mpr ⟨hb, hfit, rfl⟩, ?_⟩
    rw [hstart hb, andThen_next]
    exact (hrun hfit).mpr hresult

/-- Settles O30: the deframer that the steps end with holds what the rule's loop returns, and so it is within the parameters
when that is. -/
theorem decodeRunsTheRulesLoop : Obligations.DecodeRunsTheRulesLoop := by
  intro bits s hb hload hresult
  have hreturns := s.df.decoded_returns bits
  have hrx := s.df.decoded_rx bits
  have hfit : (s.df.decoded bits).fits s.params = true := by
    obtain ⟨hsrc, hout, -, -, -, hcnt⟩ := Deframer.fits_iff.mp hresult
    rw [(s.df.decoded_inDecode bits).fits_iff, hrx, hreturns.out, hreturns.framesOk, hreturns.framesFailed]
    exact ⟨hsrc, hout, hcnt⟩
  refine ⟨_, exec_decode_eq_next.mpr ⟨hb, hload, hfit, rfl⟩, hreturns.out, hreturns.framesOk, hreturns.framesFailed,
    ?_, ?_, hrx, rfl⟩
  · simp only [Deframer.abort, hreturns.phase]
    cases (Reference.decode bits).abort <;> rfl
  · simp only [Deframer.isDone, hreturns.phase]
    cases (Reference.decode bits).abort <;> rfl

end Sys2Proof.Machine
end

section
/-!
PROOFS. `RST` and power-on (70_reset_and_hazards.md R250, R251), and the inputs of a busy unit, which no event writes (R262).
-/

namespace Sys2Proof.Machine

/-- `RST` answers in every state and leaves the parameters and the host's port (R250). -/
theorem exec_rst (s : State) : exec .rst s = .next { State.reset with params := s.params, host := s.host } := rfl

/-- Settles O36: the reset values of the five units are the values the rule lists. -/
theorem rstClearsEveryUnit : Obligations.RstClearsEveryUnit := fun s => ⟨_, exec_rst s, rfl⟩

/-- Settles O37: what `RST` leaves in the units is what they hold after power-on. -/
theorem powerOnStateIsTheStateAfterRst : Obligations.PowerOnStateIsTheStateAfterRst := fun s => ⟨_, exec_rst s, rfl⟩

/-! ## What a step can do -/

/-- What is fetched is done in a state with the property `P`; what is rejected is done in none. -/
def Fetched.DoneIn (P : State → Prop) : Fetched → Prop
  | .run _ t => P t
  | .writeSrc _ t => P t
  | .writeChunkSize _ t => P t
  | .writeRx _ t => P t
  | .writeStatus t => P t
  | .idle t => P t
  | .reject _ => True

theorem fetchDecoded_doneIn {P : State → Prop} {s : State} (e : Encoding) (h : P s) : (fetchDecoded e s).DoneIn P := by
  unfold fetchDecoded
  split
  · exact h
  · trivial

theorem fetchStep_doneIn {P : State → Prop} {s : State} (u : Sequencer) (h : P s) : (fetchStep u s).DoneIn P := by
  unfold fetchStep
  split <;> exact h

section Fetch

variable {P : State → Prop} {s : State} (h : ∀ events, P (s.withEvents events))
include h

theorem fetchAction_doneIn (a : Action) (rest : List Event) : (fetchAction a rest s).DoneIn P := by
  cases a with
  | word w => exact fetchDecoded_doneIn _ (h rest)
  | loadSrc bits => exact h rest
  | loadChunkSize n => exact h rest
  | loadRx bits => exact h rest
  | run u =>
    rw [fetchAction]
    split
    · exact fetchStep_doneIn u (h s.host.events)
    · exact h rest

theorem fetchEvent_doneIn (e : Event) (rest : List Event) : (fetchEvent e rest s).DoneIn P := by
  cases e with
  | act a => exact fetchAction_doneIn h a rest
  | turn u => exact fetchStep_doneIn u (h rest)
  | call actions => exact fetchDecoded_doneIn _ (h rest)
  | wire bits => exact fetchDecoded_doneIn _ (h rest)
  | writeFrStatus v => exact h rest
  | writeDfStatus v => exact h rest

/-- Fetching changes the list of pending events alone. -/
theorem fetch_doneIn : (fetch s).DoneIn P := by
  unfold fetch
  split
  · exact fetchEvent_doneIn h _ _
  · split <;> exact fetchStep_doneIn _ (h s.host.events)

end Fetch

/-- A step that answers takes events off the host's list and then executes an instruction, lets the host write an input, or
does nothing more. -/
theorem step_eq_next {s t : State} (h : step s = .next t) :
    ∃ events, (∃ i, exec i (s.withEvents events) = .next t) ∨ (∃ bits, loadSrc bits (s.withEvents events) = .next t) ∨
      (∃ n, loadChunkSize n (s.withEvents events) = .next t) ∨ (∃ bits, loadRx bits (s.withEvents events) = .next t) ∨
      s.withEvents events = t := by
  have hdone : (fetch s).DoneIn fun u => ∃ events, s.withEvents events = u := fetch_doneIn fun events => ⟨events, rfl⟩
  unfold step at h
  generalize fetch s = f at h hdone
  cases f with
  | reject why => cases h
  | run i u =>
    obtain ⟨events, rfl⟩ := hdone
    exact ⟨events, .inl ⟨i, h⟩⟩
  | writeSrc bits u =>
    obtain ⟨events, rfl⟩ := hdone
    exact ⟨events, .inr (.inl ⟨bits, h⟩)⟩
  | writeChunkSize n u =>
    obtain ⟨events, rfl⟩ := hdone
    exact ⟨events, .inr (.inr (.inl ⟨n, h⟩))⟩
  | writeRx bits u =>
    obtain ⟨events, rfl⟩ := hdone
    exact ⟨events, .inr (.inr (.inr (.inl ⟨bits, h⟩)))⟩
  | writeStatus u | idle u =>
    obtain ⟨events, rfl⟩ := hdone
    exact ⟨events, .inr (.inr (.inr (.inr (next_inj.mp h))))⟩

/-! ## What an instruction leaves of the two sequencers -/

/-- The operations of the checksum unit, the stuffer and the destuffer leave both sequencers as they are (R21). -/
theorem exec_keeps_sequencers {i : Instr} {s t : State}
    (hi : unitOf i = .crc ∨ unitOf i = .stuffer ∨ unitOf i = .destuffer) (h : exec i s = .next t) :
    t.fr = s.fr ∧ t.df = s.df := by
  cases i with
  | crcInit | crcShift | crcFlush | crcRead | stuffRst | destuffRst | destuffEnd =>
    obtain rfl := next_inj.mp h
    exact ⟨rfl, rfl⟩
  | crc16 bits =>
    obtain rfl := next_inj.mp ((exec_crc16 bits s).symm.trans h)
    exact ⟨rfl, rfl⟩
  | stuffBit b =>
    obtain ⟨-, rfl⟩ := exec_stuffBit_eq_next.mp h
    exact ⟨rfl, rfl⟩
  | destuffBit b =>
    obtain ⟨-, rfl⟩ := exec_destuffBit_eq_next.mp h
    exact ⟨rfl, rfl⟩
  | stuff bits =>
    obtain ⟨-, rfl⟩ := exec_stuff_eq_next.mp h
    exact ⟨rfl, rfl⟩
  | destuff bits =>
    obtain ⟨-, rfl⟩ := exec_destuff_eq_next.mp h
    exact ⟨rfl, rfl⟩
  | _ => simp [unitOf] at hi

/-- `FR.START` answers while the framer is not busy, and leaves the deframer (R172). -/
theorem execFrStart_idle_and_df {s t : State} (h : execFrStart s = .next t) : s.fr.busy = false ∧ t.df = s.df := by
  obtain ⟨hp, ⟨-, rfl⟩ | ⟨-, -, rfl⟩⟩ := execFrStart_eq_next.mp h <;> exact ⟨Framer.not_busy_iff.mpr hp, rfl⟩

/-- A run of the framer's steps leaves the deframer. -/
theorem runFramer_df {turns : Nat} {s t : State} (h : runFramer turns s = .next t) : t.df = s.df := by
  refine runFramer_keeps (P := fun u => u.df = s.df) (fun u v hu hv => ?_) rfl h
  obtain ⟨-, -, -, rfl⟩ := execFrFrame_eq_next.mp hv
  exact hu

/-- `encode` answers while the framer is not busy, and leaves the deframer (R102, R262). -/
theorem exec_encode_idle_and_df {bits : BitSeq} {c : Nat} {s t : State} (h : exec (.encode bits c) s = .next t) :
    s.fr.busy = false ∧ t.df = s.df := by
  rw [exec_encode_expansion] at h
  obtain ⟨u, hu, hrun⟩ := andThen_eq_next.mp h
  obtain ⟨v, hv, hstart⟩ := andThen_eq_next.mp hu
  obtain ⟨hidle, -, -, rfl⟩ := loadSrc_loadChunkSize_eq_next.mp hv
  exact ⟨hidle, (runFramer_df hrun).trans (execFrStart_idle_and_df hstart).2⟩

/-- An operation of the framer leaves the deframer, and the source and chunk size of a busy framer. -/
theorem exec_framer_keeps_inputs {i : Instr} {s t : State} (hi : unitOf i = .framer) (h : exec i s = .next t) :
    (s.fr.busy = true → t.fr.src = s.fr.src ∧ t.fr.chunkSize = s.fr.chunkSize) ∧ t.df = s.df := by
  cases i with
  | frStart =>
    obtain ⟨hidle, hdf⟩ := execFrStart_idle_and_df h
    exact ⟨fun hb => absurd hidle (by simp [hb]), hdf⟩
  | frFrame =>
    obtain ⟨-, -, -, rfl⟩ := execFrFrame_eq_next.mp h
    exact ⟨fun _ => ⟨rfl, rfl⟩, rfl⟩
  | encode bits c =>
    obtain ⟨hidle, hdf⟩ := exec_encode_idle_and_df h
    exact ⟨fun hb => absurd hidle (by simp [hb]), hdf⟩
  | _ => cases hi

@[simp] theorem verifyPayload_rx (p : BitSeq) (s : State) : (verifyPayload p s).df.rx = s.df.rx := by
  rw [verifyPayload_df]
  split <;> rfl

/-- An operation of the deframer leaves the framer, and the input of a busy deframer. -/
theorem exec_deframer_keeps_inputs {i : Instr} {s t : State} (hi : unitOf i = .deframer) (h : exec i s = .next t) :
    t.fr = s.fr ∧ (s.df.busy = true → t.df.rx = s.df.rx) := by
  cases i with
  | dfStart =>
    obtain ⟨-, rfl⟩ := execDfStart_eq_next.mp h
    exact ⟨rfl, fun _ => rfl⟩
  | dfHunt =>
    obtain ⟨-, ⟨-, rfl⟩ | ⟨-, -, -, rfl⟩ | ⟨-, -, -, rfl⟩⟩ := execDfHunt_eq_next.mp h <;> exact ⟨rfl, fun _ => rfl⟩
  | dfSeek =>
    obtain ⟨-, ⟨-, rfl⟩ | ⟨-, -, -, rfl⟩ | ⟨-, -, rfl⟩⟩ := execDfSeek_eq_next.mp h <;> exact ⟨rfl, fun _ => rfl⟩
  | dfCheck =>
    obtain ⟨-, raw, -, ⟨-, rfl⟩ | ⟨-, -, rfl⟩⟩ := execDfCheck_eq_next.mp h
    · exact ⟨rfl, fun _ => rfl⟩
    · exact ⟨verifyPayload_fr .., fun _ => verifyPayload_rx ..⟩
  | decode bits =>
    obtain ⟨hidle, -, -, rfl⟩ := exec_decode_eq_next.mp h
    exact ⟨rfl, fun hb => absurd hidle (by simp [hb])⟩
  | flag | frame | checksumField | stuffedZero =>
    obtain ⟨hidle, -, rfl⟩ := pushRx_eq_next.mp h
    exact ⟨rfl, fun hb => absurd hidle (by simp [hb])⟩
  | _ => cases hi

/-! ## The inputs of a busy unit -/

/-- From `s` to `t` a busy unit keeps its inputs or is reset (R262). -/
def State.KeepsBusyInputs (s t : State) : Prop :=
  (s.fr.busy = true → t.fr.src = s.fr.src ∧ t.fr.chunkSize = s.fr.chunkSize ∨ t.fr = Framer.reset) ∧
  (s.df.busy = true → t.df.rx = s.df.rx ∨ t.df = Deframer.reset)

/-- What leaves the source and chunk size of a busy framer, and the input of a busy deframer, keeps the inputs. -/
theorem State.KeepsBusyInputs.intro {s t : State}
    (hfr : s.fr.busy = true → t.fr.src = s.fr.src ∧ t.fr.chunkSize = s.fr.chunkSize)
    (hdf : s.df.busy = true → t.df.rx = s.df.rx) : s.KeepsBusyInputs t :=
  ⟨fun hb => .inl (hfr hb), fun hb => .inl (hdf hb)⟩

theorem exec_keepsBusyInputs {i : Instr} {s t : State} (h : exec i s = .next t) : s.KeepsBusyInputs t := by
  cases hi : unitOf i with
  | crc | stuffer | destuffer =>
    obtain ⟨hfr, hdf⟩ := exec_keeps_sequencers (by simp [hi]) h
    exact .intro (fun _ => by simp [hfr]) (fun _ => by rw [hdf])
  | framer =>
    obtain ⟨hfr, hdf⟩ := exec_framer_keeps_inputs hi h
    exact .intro hfr (fun _ => by rw [hdf])
  | deframer =>
    obtain ⟨hfr, hdf⟩ := exec_deframer_keeps_inputs hi h
    exact .intro (fun _ => by simp [hfr]) hdf
  | all =>
    cases i with
    | rst =>
      obtain rfl := next_inj.mp ((exec_rst s).symm.trans h)
      exact ⟨fun _ => .inr rfl, fun _ => .inr rfl⟩
    | _ => cases hi

theorem loadSrc_keepsBusyInputs {bits : BitSeq} {s t : State} (h : loadSrc bits s = .next t) : s.KeepsBusyInputs t := by
  obtain ⟨hidle, -, rfl⟩ := loadSrc_eq_next.mp h
  exact .intro (fun hb => absurd hidle (by simp [hb])) fun _ => rfl

theorem loadChunkSize_keepsBusyInputs {n : Nat} {s t : State} (h : loadChunkSize n s = .next t) :
    s.KeepsBusyInputs t := by
  obtain ⟨hidle, -, rfl⟩ := loadChunkSize_eq_next.mp h
  exact .intro (fun hb => absurd hidle (by simp [hb])) fun _ => rfl

theorem loadRx_keepsBusyInputs {bits : BitSeq} {s t : State} (h : loadRx bits s = .next t) : s.KeepsBusyInputs t := by
  obtain ⟨hidle, -, rfl⟩ := loadRx_eq_next.mp h
  exact .intro (fun _ => ⟨rfl, rfl⟩) fun hb => absurd hidle (by simp [hb])

/-- Settles O45: whatever a step does after taking events off the list keeps the inputs of a busy unit or resets it. -/
theorem inputsAreStableWhileBusy : Obligations.InputsAreStableWhileBusy := by
  intro s t h
  obtain ⟨events, hdone⟩ := step_eq_next h
  change (s.withEvents events).KeepsBusyInputs t
  obtain ⟨i, h⟩ | ⟨bits, h⟩ | ⟨n, h⟩ | ⟨bits, h⟩ | rfl := hdone
  · exact exec_keepsBusyInputs h
  · exact loadSrc_keepsBusyInputs h
  · exact loadChunkSize_keepsBusyInputs h
  · exact loadRx_keepsBusyInputs h
  · exact .intro (fun _ => ⟨rfl, rfl⟩) fun _ => rfl

end Sys2Proof.Machine
end

section
/-!
PROOFS. The checksum bit by bit: the order of the bits in which it is sent, the feedback bits of the register step, and the
affine law (20_memory.md R66, 30_encoding.md R97, 40_crc16.md sections 2 and 4).
-/

namespace Sys2Proof.Codec

/-- One more bit doubles the number spelled so far. -/
theorem bitsToNat_append_singleton (s : BitSeq) (b : Bit) : bitsToNat (s ++ [b]) = Nat.bit b (bitsToNat s) := by
  simp only [bitsToNat, List.foldl_append, List.foldl_cons, List.foldl_nil, Nat.bit_val]

/-- The first bit of a sequence is the most significant, so bit `k` of its number is the bit `k` places before its end. -/
theorem bitsToNat_testBit (s : BitSeq) (k : Nat) : (bitsToNat s).testBit k = s.reverse.getD k false := by
  induction s using List.reverseRecOn generalizing k with
  | nil => simp [bitsToNat]
  | append_singleton s b ih =>
    rw [bitsToNat_append_singleton, List.reverse_append]
    cases k with
    | zero => exact Nat.testBit_bit_zero ..
    | succ k => exact (Nat.testBit_bit_succ ..).trans (ih k)

theorem int16_getLsbD (s : BitSeq) {k : Nat} (hk : k < 16) : (int16 s).getLsbD k = s.reverse.getD k false := by
  rw [int16, BitVec.getLsbD_ofNat, bitsToNat_testBit, decide_eq_true hk, Bool.true_and]

/-- Bit 15 of a Checksum is sent first (R66). -/
theorem bits16_getElem? (v : Checksum) {k : Nat} (hk : k < 16) : (bits16 v)[k]? = some (v.getLsbD (15 - k)) := by
  simp [bits16, List.getElem?_range hk]

theorem int16_bits16 (v : Checksum) : int16 (bits16 v) = v := by
  refine BitVec.eq_of_getLsbD_eq fun k hk => ?_
  rw [int16_getLsbD _ hk, List.getD_eq_getElem?_getD, List.getElem?_reverse (by simpa using hk), bits16_length,
    bits16_getElem? v (by omega), show 15 - (16 - 1 - k) = k by omega, Option.getD_some]

theorem bits16_int16 {s : BitSeq} (hs : s.length = 16) : bits16 (int16 s) = s := by
  refine List.ext_getElem? fun k => ?_
  by_cases hk : k < 16
  · have hlast : 15 - k < s.length := by omega
    rw [bits16_getElem? _ hk, int16_getLsbD s (by omega), List.getD_eq_getElem?_getD, List.getElem?_reverse hlast,
      show s.length - 1 - (15 - k) = k by omega, List.getElem?_eq_getElem (by omega), Option.getD_some]
  · rw [List.getElem?_eq_none (by rw [bits16_length]; omega), List.getElem?_eq_none (by omega)]

/-- The bits of `CRC_POLY` (R6) are the three taps of the circuit. -/
theorem crcPoly_getLsbD : ∀ k < 16, Config.crcPoly.getLsbD k = decide (k = 0 ∨ k = 5 ∨ k = 12) := by decide

/-- The register step bit by bit: the feedback bit is added where the polynomial has a 1 (R122). -/
theorem crcShift_getLsbD (r : Checksum) (b : Bit) (k : Nat) :
    (crcShift r b).getLsbD k =
      Bool.xor ((r <<< 1).getLsbD k) (Bool.xor b (r.getLsbD 15) && Config.crcPoly.getLsbD k) := by
  simp only [crcShift]
  generalize Bool.xor b (r.getLsbD 15) = feedback
  cases feedback with
  | false => rw [if_neg Bool.false_ne_true, Bool.false_and, Bool.xor_false]
  | true => rw [if_pos rfl, BitVec.getLsbD_xor, Bool.true_and]

/-- The register step is linear in the register and the input bit together. -/
theorem crcShift_xor (r r' : Checksum) (b b' : Bit) :
    crcShift (r ^^^ r') (Bool.xor b b') = crcShift r b ^^^ crcShift r' b' := by
  refine BitVec.eq_of_getLsbD_eq fun k _ => ?_
  simp only [crcShift_getLsbD, BitVec.getLsbD_xor, BitVec.shiftLeft_xor_distrib]
  generalize r.getLsbD 15 = m, r'.getLsbD 15 = m', Config.crcPoly.getLsbD k = p
  cases p <;> simp [Bool.xor_left_comm, Bool.xor_comm]

/-- Shifting sequences of equal length in is linear in the register and the sequence together. -/
theorem foldl_crcShift_xor {x y : BitSeq} (h : x.length = y.length) (r r' : Checksum) :
    (List.zipWith Bool.xor x y).foldl crcShift (r ^^^ r') = x.foldl crcShift r ^^^ y.foldl crcShift r' := by
  induction x generalizing y r r' with
  | nil =>
    obtain rfl : y = [] := List.length_eq_zero_iff.mp h.symm
    rfl
  | cons a x ih =>
    obtain _ | ⟨b, y⟩ := y
    · cases h
    · simp only [List.zipWith_cons_cons, List.foldl_cons, crcShift_xor]
      exact ih (Nat.succ.inj h) ..

theorem crcFlush_xor (r r' : Checksum) : crcFlush (r ^^^ r') = crcFlush r ^^^ crcFlush r' := by
  have hzeros : List.replicate Config.crcFlushSteps false =
      List.zipWith Bool.xor (List.replicate Config.crcFlushSteps false) (List.replicate Config.crcFlushSteps false) := rfl
  unfold crcFlush
  rw [← foldl_crcShift_xor rfl, ← hzeros]

/-- The affine law: of three messages of equal length the XOR of the Checksums is the Checksum of the XOR, since the three
initial values XOR to the initial value (40_crc16.md section 4). -/
theorem crc16_xor_xor {x y z : BitSeq} (hxy : x.length = y.length) (hxz : x.length = z.length) :
    crc16 (List.zipWith Bool.xor (List.zipWith Bool.xor x y) z) = crc16 x ^^^ crc16 y ^^^ crc16 z := by
  have hstart : Config.crcStart = Config.crcStart ^^^ Config.crcStart ^^^ Config.crcStart := by decide
  have hlen : (List.zipWith Bool.xor x y).length = z.length := by simp [← hxy, hxz]
  simp only [crc16, ← crcFlush_xor]
  rw [← foldl_crcShift_xor hxy, ← foldl_crcShift_xor hlen, ← hstart]

theorem zipWith_xor_replicate_false (x : BitSeq) : List.zipWith Bool.xor x (List.replicate x.length false) = x := by
  induction x with
  | nil => rfl
  | cons b x ih => simp [List.replicate_succ, ih]

end Sys2Proof.Codec

namespace Sys2Proof.Machine

/-- Settles O47: element `k` by the layout of `bits16`, and both inverses bit by bit. -/
theorem checksumBitOrder : Obligations.ChecksumBitOrder :=
  ⟨fun v _ hk => Codec.bits16_getElem? v hk, Codec.int16_bits16, fun _ => Codec.bits16_int16⟩

/-- Settles O3: the shift brings in the bit below, and the polynomial adds the feedback bit at its three taps. -/
theorem crcShiftFeedbackBits : Obligations.CrcShiftFeedbackBits := by
  intro b s t h k hk
  obtain rfl := next_inj.mp ((exec_crcShift b s).symm.trans h)
  simp only [Codec.crcShift_getLsbD, Codec.crcPoly_getLsbD k hk, BitVec.getLsbD_shiftLeft]
  split_ifs with h0 htap
  · simp [h0]
  · simp [h0, htap, hk]
  · simp [h0, htap, hk]

/-- Settles O7: the affine law with zeros for the third message. -/
theorem crc16IsAffine : Obligations.Crc16IsAffine := by
  intro x y s t u v w hlen ht hu hv hw
  obtain rfl := next_inj.mp ((exec_crc16 _ s).symm.trans ht)
  obtain rfl := next_inj.mp ((exec_crc16 _ s).symm.trans hu)
  obtain rfl := next_inj.mp ((exec_crc16 _ s).symm.trans hv)
  obtain rfl := next_inj.mp ((exec_crc16 _ s).symm.trans hw)
  have hzeros := Codec.zipWith_xor_replicate_false (List.zipWith Bool.xor x y)
  rw [List.length_zipWith, ← hlen, Nat.min_self] at hzeros
  have haffine := Codec.crc16_xor_xor hlen (List.length_replicate (n := x.length) (a := false)).symm
  rwa [hzeros] at haffine

/-- Settles O5: `CRC.READ` is an append to the port's list, and a call of `crc16` ends with one. -/
theorem crcReadHandsBackTheRegister : Obligations.CrcReadHandsBackTheRegister := by
  refine ⟨fun _ => rfl, fun bits s t h => ?_⟩
  obtain rfl := next_inj.mp ((exec_crc16 bits s).symm.trans h)
  exact ⟨rfl, rfl⟩

end Sys2Proof.Machine
end

section
/-!
PROOFS. What the scans of the stuffer and the destuffer say of each other: lengths, the trailing run of ones, the look-ahead
form, and the stuffing law (41_bit_stuffer.md sections 2 and 3; 42_bit_destuffer.md sections 2 and 3).
-/

namespace Sys2Proof.Codec

/-! ## The stuffer -/

/-- The scan copies every bit of its input and inserts others. -/
theorem length_le_scan_stuffStep (bits : BitSeq) (ones : Fin 5) :
    bits.length ≤ (scan stuffStep ones bits).1.length := by
  induction bits generalizing ones with
  | nil => exact Nat.zero_le _
  | cons b bits ih =>
    have hstep := (stuffStep_length ones b).1
    have hrest := ih (stuffStep ones b).2
    simp only [scan_cons, List.length_append, List.length_cons]
    omega

/-- One bit is inserted for every five ones in a row, those counted already included. -/
theorem scan_stuffStep_length_le (bits : BitSeq) (ones : Fin 5) :
    (scan stuffStep ones bits).1.length ≤ bits.length + (ones.val + bits.length) / 5 := by
  induction bits generalizing ones with
  | nil => exact Nat.zero_le _
  | cons b bits ih =>
    have hrest := ih (stuffStep ones b).2
    simp only [scan_cons, List.length_append, List.length_cons]
    cases b with
    | false =>
      simp only [stuffStep_zero, Fin.val_zero, List.length_singleton] at hrest ⊢
      omega
    | true =>
      by_cases h : ones.val + 1 = 5
      · simp only [stuffStep_one_of_fifth h, Fin.val_zero, List.length_cons, List.length_nil] at hrest ⊢
        omega
      · have hval : (ones + 1).val = ones.val + 1 := Fin.val_add_one_of_lt' (by omega)
        simp only [stuffStep_one_of_not_fifth h, hval, List.length_singleton] at hrest ⊢
        omega

@[simp] theorem trailingOnes_append_zero (s : BitSeq) : Machine.trailingOnes (s ++ [false]) = 0 := by
  simp [Machine.trailingOnes]

@[simp] theorem trailingOnes_append_one (s : BitSeq) :
    Machine.trailingOnes (s ++ [true]) = Machine.trailingOnes s + 1 := by
  simp [Machine.trailingOnes]

/-- The counter goes on counting the ones at the end of what has been emitted before and by the scan (R144). -/
theorem trailingOnes_scan (bits : BitSeq) {ones : Fin 5} {out : BitSeq} (h : ones.val = Machine.trailingOnes out) :
    (scan stuffStep ones bits).2.val = Machine.trailingOnes (out ++ (scan stuffStep ones bits).1) := by
  induction bits generalizing ones out with
  | nil => simpa using h
  | cons b bits ih =>
    simp only [scan_cons, ← List.append_assoc]
    cases b with
    | false => exact ih (by simp)
    | true =>
      by_cases hfive : ones.val + 1 = 5
      · have hzero : Machine.trailingOnes (out ++ [true, false]) = 0 := by
          simpa using trailingOnes_append_zero (out ++ [true])
        rw [stuffStep_one_of_fifth hfive]
        exact ih hzero.symm
      · have hval : (ones + 1).val = ones.val + 1 := Fin.val_add_one_of_lt' (by omega)
        rw [stuffStep_one_of_not_fifth hfive]
        exact ih (by rw [hval, h, trailingOnes_append_one])

/-! ## The destuffer -/

/-- The destuffer copies its bit or drops a 0. -/
theorem destuffStep_emits (ones : Fin 6) (b : Bit) :
    (destuffStep ones b).1 = [b] ∨ (destuffStep ones b).1 = [] ∧ b = false := by
  by_cases h : ones = 5
  · cases b <;> simp [h]
  · cases b
    · exact .inl (by rw [destuffStep_zero_of_not_pending h])
    · exact .inl (by rw [destuffStep_one_of_not_pending h])

theorem scan_destuffStep_sublist (bits : BitSeq) (ones : Fin 6) : (scan destuffStep ones bits).1.Sublist bits := by
  induction bits generalizing ones with
  | nil => exact List.Sublist.slnil
  | cons b bits ih =>
    rw [scan_cons]
    obtain hcopy | ⟨hdrop, -⟩ := destuffStep_emits ones b
    · rw [hcopy]
      exact (ih _).cons_cons b
    · rw [hdrop]
      exact (ih _).cons b

theorem scan_destuffStep_count_true (bits : BitSeq) (ones : Fin 6) :
    (scan destuffStep ones bits).1.count true = bits.count true := by
  induction bits generalizing ones with
  | nil => rfl
  | cons b bits ih =>
    rw [scan_cons]
    obtain hcopy | ⟨hdrop, rfl⟩ := destuffStep_emits ones b
    · rw [hcopy, List.singleton_append, List.count_cons, List.count_cons, ih]
    · rw [hdrop, List.nil_append, ih, List.count_cons_of_ne (by simp)]

/-- A pending inspection matters only when a 0 comes next. -/
theorem scan_destuffStep_pending {bits : BitSeq} (h : bits.head? ≠ some false) :
    (scan destuffStep 5 bits).1 = (scan destuffStep 0 bits).1 := by
  rcases bits with _ | ⟨_ | _, bits⟩
  · rfl
  · exact absurd rfl h
  · rfl

/-- The stuffer's counter read as a destuffer's: no inspection is pending. -/
theorem castSucc_not_pending (ones : Fin 5) : ones.castSucc ≠ 5 := (Fin.castSucc_lt_last ones).ne

/-- Before the fifth 1 the two counters count alike. -/
theorem castSucc_add_one_of_not_fifth {ones : Fin 5} (h : ones.val + 1 ≠ 5) :
    ones.castSucc + 1 = (ones + 1).castSucc := by
  have hlt : ones.val + 1 < 5 := by omega
  ext
  rw [Fin.val_castSucc, Fin.val_add_one_of_lt' hlt, Fin.val_add_one_of_lt' (Nat.lt_succ_of_lt hlt), Fin.val_castSucc]

/-- The look-ahead loop of R159, from an index, a counter and an output, appends what the scan of the rest emits: where the
loop looks at the bit after a fifth 1, the scan has an inspection pending. -/
theorem lookAheadLoop_eq_scan (x : BitSeq) {turns k : Nat} (ones : Fin 5) (out : BitSeq) (hturns : x.length ≤ k + turns) :
    Reference.lookAheadLoop x turns k ones.val out = out ++ (scan destuffStep ones.castSucc (x.drop k)).1 := by
  induction turns generalizing k ones out with
  | zero => simp [Reference.lookAheadLoop, List.drop_eq_nil_of_le (show x.length ≤ k from hturns)]
  | succ turns ih =>
    have hplain := castSucc_not_pending ones
    unfold Reference.lookAheadLoop
    split
    · next hk => simp [List.drop_eq_nil_of_le (List.getElem?_eq_none_iff.mp hk)]
    · next hk =>
      obtain ⟨hlt, hbit⟩ := List.getElem?_eq_some_iff.mp hk
      rw [List.drop_eq_getElem_cons hlt, hbit, scan_cons, destuffStep_one_of_not_pending hplain]
      split
      · next hfive =>
        have hpending : ones.castSucc + 1 = 5 := by
          obtain rfl : ones = 4 := by omega
          rfl
        rw [hpending, ← List.append_assoc]
        split
        · next hzero =>
          obtain ⟨hlt', hbit'⟩ := List.getElem?_eq_some_iff.mp hzero
          rw [List.drop_eq_getElem_cons hlt', hbit']
          exact ih 0 _ (by omega)
        · next hnonzero =>
          rw [scan_destuffStep_pending (by rwa [List.head?_drop])]
          exact ih 0 _ (by omega)
      · next hfive =>
        have hval : (ones + 1).val = ones.val + 1 := Fin.val_add_one_of_lt' (by omega)
        have hcast := castSucc_add_one_of_not_fifth hfive
        rw [hcast, ← hval, ← List.append_assoc]
        exact ih (ones + 1) _ (by omega)
    · next hk =>
      obtain ⟨hlt, hbit⟩ := List.getElem?_eq_some_iff.mp hk
      rw [List.drop_eq_getElem_cons hlt, hbit, scan_cons, destuffStep_zero_of_not_pending hplain, ← List.append_assoc]
      exact ih 0 _ (by omega)

theorem destuff_eq_lookAhead (bits : BitSeq) : destuff bits = Reference.destuffLookAhead bits :=
  (lookAheadLoop_eq_scan bits (turns := bits.length) (k := 0) 0 [] (Nat.le_add_left ..)).symm

/-- The destuffer, begun on the stuffer's counter, undoes the stuffer: the two counters stay equal, and the inserted 0 comes
when the destuffer's inspection is pending. -/
theorem scan_destuffStep_scan_stuffStep (bits : BitSeq) (ones : Fin 5) :
    (scan destuffStep ones.castSucc (scan stuffStep ones bits).1).1 = bits := by
  induction bits generalizing ones with
  | nil => rfl
  | cons b bits ih =>
    have hplain := castSucc_not_pending ones
    rw [scan_cons]
    cases b with
    | false =>
      simp only [stuffStep_zero, List.singleton_append, scan_cons, destuffStep_zero_of_not_pending hplain]
      exact congrArg (false :: ·) (ih 0)
    | true =>
      by_cases hfive : ones.val + 1 = 5
      · obtain rfl : ones = 4 := by omega
        exact congrArg (true :: ·) (ih 0)
      · have hval : (ones + 1).val = ones.val + 1 := Fin.val_add_one_of_lt' (by omega)
        have hcast := castSucc_add_one_of_not_fifth hfive
        simp only [stuffStep_one_of_not_fifth hfive, List.singleton_append, scan_cons,
          destuffStep_one_of_not_pending hplain, hcast]
        exact congrArg (true :: ·) (ih (ones + 1))

/-- The stuffing law (R162): every sequence comes back, whether or not it holds the Flag. -/
theorem destuff_stuff (bits : BitSeq) : destuff (stuff bits) = bits := scan_destuffStep_scan_stuffStep bits 0

end Sys2Proof.Codec

namespace Sys2Proof.Machine

/-- Settles O13: the bounds on the scan, from the counter 0. -/
theorem stuffedLengthIsBounded : Obligations.StuffedLengthIsBounded := by
  intro bits s t h
  obtain ⟨-, rfl⟩ := exec_stuff_eq_next.mp h
  have hle := Codec.scan_stuffStep_length_le bits 0
  rw [Fin.val_zero, Nat.zero_add] at hle
  exact ⟨Codec.length_le_scan_stuffStep bits 0, hle⟩

/-- Settles O16. -/
theorem destuffEqualsLookAheadForm : Obligations.DestuffEqualsLookAheadForm := by
  intro bits s t h
  obtain ⟨-, rfl⟩ := exec_destuff_eq_next.mp h
  exact Codec.destuff_eq_lookAhead bits

/-- Settles O17: every bit is copied but for the zeros that are dropped. -/
theorem destuffDropsOnlyZeros : Obligations.DestuffDropsOnlyZeros := by
  intro bits s t h
  obtain ⟨-, rfl⟩ := exec_destuff_eq_next.mp h
  exact ⟨Codec.scan_destuffStep_sublist bits 0, Codec.scan_destuffStep_count_true bits 0⟩

/-- Settles O18: the destuffer gives `x` back, which is no longer than its stuffed form and so within the width. -/
theorem stuffingLaw : Obligations.StuffingLaw := by
  intro x s hwidth
  rw [← Codec.stuff_eq_reference] at hwidth
  have hx : Config.inWidth s.params.idxW (Codec.destuff (Codec.stuff x)).length = true := by
    rw [Codec.destuff_stuff]
    exact inWidth_mono (Codec.length_le_scan_stuffStep x 0) hwidth
  exact ⟨_, _, exec_stuff_eq_next.mpr ⟨hwidth, rfl⟩, exec_destuff_eq_next.mpr ⟨hx, rfl⟩, Codec.destuff_stuff x⟩

end Sys2Proof.Machine
end

section
/-!
PROOFS. Slices, and the Frame as a sequence of bits: its payload comes back, and the Flag stands at its two ends only
(00_scope.md R9; 30_encoding.md R92, section 2).
-/

namespace Sys2Proof

theorem slice_getElem? (s : BitSeq) (a b k : Nat) : (slice s a b)[k]? = if k < b - a then s[a + k]? else none := by
  rw [slice, List.getElem?_take, List.getElem?_drop]

theorem slice_infix (s : BitSeq) (a b : Nat) : slice s a b <:+: s :=
  (List.take_prefix _ _).isInfix.trans (List.drop_suffix _ _).isInfix

@[simp] theorem slice_zero_length (s : BitSeq) : slice s 0 s.length = s := by simp [slice]

/-- A slice that ends within the first part of a concatenation is a slice of that part. -/
theorem slice_append_of_le_length {xs : BitSeq} {b : Nat} (h : b ≤ xs.length) (ys : BitSeq) (a : Nat) :
    slice (xs ++ ys) a b = slice xs a b := by
  refine List.ext_getElem? fun k => ?_
  simp only [slice_getElem?]
  split
  · exact List.getElem?_append_left (by omega)
  · rfl

/-- A slice that begins after the first part of a concatenation is a slice of the second part. -/
theorem slice_append_length_add (xs ys : BitSeq) (a b : Nat) :
    slice (xs ++ ys) (xs.length + a) (xs.length + b) = slice ys a b := by
  simp only [slice, List.drop_append, List.drop_eq_nil_of_le (Nat.le_add_right xs.length a), List.nil_append,
    Nat.add_sub_cancel_left, Nat.add_sub_add_left]

/-- The slice of a concatenation that is its second part. -/
theorem slice_append_length (xs ys : BitSeq) : slice (xs ++ ys) xs.length (xs.length + ys.length) = ys := by
  simpa using slice_append_length_add xs ys 0 ys.length

end Sys2Proof

namespace Sys2Proof.Codec

/-- The stuffed body, between the two Flags of a Frame. -/
theorem slice_frameBits (chunk : BitSeq) :
    slice (frameBits chunk) 8 (8 + (stuff (frameBody chunk)).length) = stuff (frameBody chunk) := by
  rw [frameBits, List.append_assoc]
  have h := slice_append_length_add Config.flag (stuff (frameBody chunk) ++ Config.flag) 0 (stuff (frameBody chunk)).length
  rwa [slice_append_of_le_length le_rfl, slice_zero_length] at h

theorem frameBits_length_ge (chunk : BitSeq) : 32 ≤ (frameBits chunk).length := by
  have hbody := length_le_scan_stuffStep (frameBody chunk) 0
  rw [frameBody_length] at hbody
  rw [frameBits_length]
  change 32 ≤ (scan stuffStep 0 (frameBody chunk)).1.length + 16
  omega

/-- The data of a body is its chunk (R92, R197). -/
theorem payloadData_frameBody (chunk : BitSeq) : Machine.payloadData (frameBody chunk) = chunk := by
  rw [Machine.payloadData, frameBody_length, Nat.add_sub_cancel, frameBody, slice_append_of_le_length le_rfl,
    slice_zero_length]

/-- The received Checksum of a body is the Checksum of its chunk (R92, R197). -/
theorem payloadCrc_frameBody (chunk : BitSeq) : Machine.payloadCrc (frameBody chunk) = crc16 chunk := by
  have hfield := slice_append_length chunk (bits16 (crc16 chunk))
  rw [bits16_length] at hfield
  rw [Machine.payloadCrc, frameBody_length, Nat.add_sub_cancel, frameBody, hfield, int16_bits16]

/-- Inside the Flag there are six ones. -/
theorem flag_ones : ∀ k < 6, Config.flag[k + 1]? = some true := by decide

/-- The bits of a Frame, part by part. -/
theorem frameBits_getElem? (chunk : BitSeq) (k : Nat) :
    (frameBits chunk)[k]? =
      if k < 8 then Config.flag[k]?
      else if k < 8 + (stuff (frameBody chunk)).length then (stuff (frameBody chunk))[k - 8]?
      else Config.flag[k - (8 + (stuff (frameBody chunk)).length)]? := by
  have hflag : Config.flag.length = 8 := rfl
  rw [frameBits, List.append_assoc, List.getElem?_append, List.getElem?_append, hflag]
  split
  · rfl
  · next h8 =>
    by_cases hk : k < 8 + (stuff (frameBody chunk)).length
    · rw [if_pos hk, if_pos (by omega)]
    · rw [if_neg hk, if_neg (by omega), Nat.sub_sub]

/-- A Flag inside a Frame is one of its two: anywhere else its six ones would lie inside the stuffed body, or one of its ones
on the first 0 of the closing Flag, or its first 0 on a 1 of the opening Flag. -/
theorem flag_at_end_of_frameBits {chunk : BitSeq} {p : Nat} (hin : p + 8 ≤ (frameBits chunk).length)
    (hflag : slice (frameBits chunk) p (p + 8) = Config.flag) : p = 0 ∨ p + 8 = (frameBits chunk).length := by
  rw [frameBits_length] at hin ⊢
  set n := (stuff (frameBody chunk)).length with hn
  have hbit {k : Nat} (hk : k < 8) : (frameBits chunk)[p + k]? = Config.flag[k]? := by
    rw [← hflag, slice_getElem?, if_pos (by omega)]
  have hone {k : Nat} (hk : k < 6) : (frameBits chunk)[p + k + 1]? = some true := (hbit (by omega)).trans (flag_ones k hk)
  by_contra! hother
  obtain ⟨hp0, hp⟩ := hother
  rcases Nat.lt_or_ge p 7 with hp7 | hp7
  · have hfirst := (frameBits_getElem? chunk p).symm.trans (hbit (k := 0) (by omega))
    rw [if_pos (by omega), show p = p - 1 + 1 by omega, flag_ones _ (by omega)] at hfirst
    cases hfirst
  · rcases Nat.lt_or_ge (p + 6) (8 + n) with hbody | hbody
    · have hsix : slice (stuff (frameBody chunk)) (p - 7) (p - 7 + 6) = List.replicate 6 true := by
        refine List.ext_getElem? fun k => ?_
        rw [slice_getElem?, Nat.add_sub_cancel_left, List.getElem?_replicate]
        split
        · next hk =>
          have h1 := hone hk
          rw [frameBits_getElem?, if_neg (by omega), if_pos (by omega)] at h1
          rw [← h1, show p + k + 1 - 8 = p - 7 + k by omega]
        · rfl
      exact stuff_no_six_ones _ (hsix ▸ slice_infix ..)
    · have hzero := frameBits_getElem? chunk (8 + n)
      have h1 := hone (k := 8 + n - p - 1) (by omega)
      rw [show p + (8 + n - p - 1) + 1 = 8 + n by omega, hzero, if_neg (by omega), if_neg (by omega),
        Nat.sub_self] at h1
      cases h1

theorem flag_prefix_frameBits (chunk : BitSeq) : slice (frameBits chunk) 0 8 = Config.flag := by
  rw [frameBits, List.append_assoc]
  exact slice_append_of_le_length (xs := Config.flag) le_rfl _ 0

theorem flag_suffix_frameBits (chunk : BitSeq) :
    slice (frameBits chunk) (8 + (stuff (frameBody chunk)).length) (8 + (stuff (frameBody chunk)).length + 8) =
      Config.flag := by
  have h := slice_append_length (Config.flag ++ stuff (frameBody chunk)) Config.flag
  rwa [List.length_append] at h

end Sys2Proof.Codec

namespace Sys2Proof.Machine

/-- Settles O24. -/
theorem flagStandsOnlyAtFrameEnds : Obligations.FlagStandsOnlyAtFrameEnds := by
  intro chunk p
  refine ⟨fun ⟨hin, hflag⟩ => Codec.flag_at_end_of_frameBits hin hflag, ?_⟩
  have hlen := Codec.frameBits_length chunk
  rintro (rfl | hend)
  · exact ⟨by omega, Codec.flag_prefix_frameBits chunk⟩
  · obtain rfl : p = 8 + (Codec.stuff (Codec.frameBody chunk)).length := by omega
    exact ⟨hend.le, Codec.flag_suffix_frameBits chunk⟩

end Sys2Proof.Machine
end

section
/-!
PROOFS. The decoder undoes the encoder in each of the four formats (30_encoding.md sections 1, 4, 5 and 6).
-/

namespace Sys2Proof

@[simp] theorem dataBit_commandWord :
    ∀ (u : BitVec 3) (b : Bit), Action.dataBit (.word (commandWord u 0b01#2 b)) = some b := by decide

/-- The data bits of an expansion, between its first action and its last ones, are the operand it was made from. -/
theorem expansionBits_of_words (first : Action) (u : BitVec 3) (bits : BitSeq) (last : List Action) :
    expansionBits ([first] ++ bits.map (fun b => .word (commandWord u 0b01#2 b)) ++ last) last.length = bits := by
  simp [expansionBits, List.filterMap_map]

/-- Two lists of actions that begin differently differ. -/
theorem ne_of_head?_ne {xs ys : List Action} (h : xs.head? ≠ ys.head?) : xs ≠ ys := mt (congrArg List.head?) h

theorem decodeExpansionList_crc16 (bits : BitSeq) : decodeExpansionList (crc16Expansion bits) = .ok (.crc16 bits) := by
  have hbits : expansionBits (crc16Expansion bits) 2 = bits := expansionBits_of_words ..
  rw [decodeExpansionList, hbits, if_pos rfl]

theorem decodeExpansionList_stuff (bits : BitSeq) : decodeExpansionList (stuffExpansion bits) = .ok (.stuff bits) := by
  have hbits : expansionBits (stuffExpansion bits) 0 = bits := by
    simpa [stuffExpansion] using expansionBits_of_words (.word 0b001000#6) 0b001#3 bits []
  have hcrc (x) : crc16Expansion x ≠ stuffExpansion bits := ne_of_head?_ne (by simp [crc16Expansion, stuffExpansion])
  rw [decodeExpansionList, if_neg (hcrc _), hbits, if_pos rfl]

theorem decodeExpansionList_destuff (bits : BitSeq) :
    decodeExpansionList (destuffExpansion bits) = .ok (.destuff bits) := by
  have hbits : expansionBits (destuffExpansion bits) 1 = bits := expansionBits_of_words ..
  have hcrc (x) : crc16Expansion x ≠ destuffExpansion bits := ne_of_head?_ne (by simp [crc16Expansion, destuffExpansion])
  have hstuff (x) : stuffExpansion x ≠ destuffExpansion bits := ne_of_head?_ne (by simp [stuffExpansion, destuffExpansion])
  rw [decodeExpansionList, if_neg (hcrc _), if_neg (hstuff _), hbits, if_pos rfl]

/-- An expansion that begins with a host write is none of the three that begin with a command word. -/
theorem decodeExpansionList_of_write {actions : List Action} (h : ∀ w, actions.head? ≠ some (.word w)) :
    decodeExpansionList actions =
      if encodeExpansion (expansionSource actions) (expansionChunkSize actions) = actions then
        .ok (.encode (expansionSource actions) (expansionChunkSize actions))
      else if decodeExpansion (expansionSource actions) = actions then .ok (.decode (expansionSource actions))
      else .error .notAnExpansion := by
  have hcrc (x) : crc16Expansion x ≠ actions := ne_of_head?_ne (h 0b000000#6).symm
  have hstuff (x) : stuffExpansion x ≠ actions := ne_of_head?_ne (h 0b001000#6).symm
  have hdestuff (x) : destuffExpansion x ≠ actions := ne_of_head?_ne (h 0b010000#6).symm
  rw [decodeExpansionList, if_neg (hcrc _), if_neg (hstuff _), if_neg (hdestuff _)]

theorem decodeExpansionList_encode (bits : BitSeq) (c : Nat) :
    decodeExpansionList (encodeExpansion bits c) = .ok (.encode bits c) := by
  rw [decodeExpansionList_of_write (by simp [encodeExpansion])]
  exact if_pos rfl

theorem decodeExpansionList_decode (bits : BitSeq) : decodeExpansionList (decodeExpansion bits) = .ok (.decode bits) := by
  have hencode (x c) : encodeExpansion x c ≠ decodeExpansion bits :=
    ne_of_head?_ne (by simp [encodeExpansion, decodeExpansion])
  rw [decodeExpansionList_of_write (by simp [decodeExpansion]), if_neg (hencode _ _)]
  exact if_pos rfl

/-- The chunk of a Frame is what is left of its destuffed payload without the Checksum (R92, R162). -/
theorem frameChunk_frameBits (chunk : BitSeq) : frameChunk (Codec.frameBits chunk) = chunk := by
  have hend : (Codec.frameBits chunk).length - 8 = 8 + (Codec.stuff (Codec.frameBody chunk)).length := by
    have := Codec.frameBits_length chunk
    omega
  simp only [frameChunk, hend, Codec.slice_frameBits, Codec.destuff_stuff]
  exact Codec.payloadData_frameBody chunk

/-- A sequence of more than eight bits is neither the Flag nor a stuffed zero. -/
theorem decodeWire_of_long {before bits : BitSeq} (h : 8 < bits.length) :
    decodeWire before bits =
      if bits.length = 16 then .ok (.checksumField (Codec.int16 bits))
      else if Codec.frameBits (frameChunk bits) = bits then .ok (.frame (frameChunk bits))
      else .error .notAWireItem := by
  have hflag : bits ≠ Config.flag := fun e => by simp [e, Config.flag] at h
  have hzero : bits ≠ Config.stuffedZero := fun e => by simp [e, Config.stuffedZero] at h
  rw [decodeWire, if_neg hflag, if_neg hzero]

theorem decodeWire_frame (before chunk : BitSeq) : decodeWire before (Codec.frameBits chunk) = .ok (.frame chunk) := by
  have hlen := Codec.frameBits_length_ge chunk
  rw [decodeWire_of_long (by omega), if_neg (by omega), frameChunk_frameBits, if_pos rfl]

theorem decodeWire_checksumField (before : BitSeq) (c : Checksum) :
    decodeWire before (Codec.bits16 c) = .ok (.checksumField c) := by
  have hlen := Codec.bits16_length c
  rw [decodeWire_of_long (by omega), if_pos hlen, Codec.int16_bits16]

/-- Settles O48, constructor by constructor: the words and phase codes by evaluation, and of the formats with operands of any
length the lemma of each row. -/
theorem decodeOfEncode : Obligations.DecodeOfEncode := by
  intro i _
  cases i with
  | crcInit | crcFlush | crcRead | stuffRst | destuffRst | destuffEnd | frStart | dfStart | rst => decide
  | crcShift b | stuffBit b | destuffBit b => cases b <;> decide
  | frFrame | dfHunt | dfSeek | dfCheck => decide
  | crc16 bits => exact decodeExpansionList_crc16 bits
  | stuff bits => exact decodeExpansionList_stuff bits
  | destuff bits => exact decodeExpansionList_destuff bits
  | encode bits c => exact decodeExpansionList_encode bits c
  | decode bits => exact decodeExpansionList_decode bits
  | flag | stuffedZero => decide
  | frame chunk => exact decodeWire_frame [] chunk
  | checksumField c => exact decodeWire_checksumField [] c

end Sys2Proof
end

section
/-!
PROOFS. The units beside each other: an operation writes its own unit only and reads no other (10_state.md R20, R21), so that
the framer and the deframer commute (20_memory.md R74).
-/

namespace Sys2Proof.Machine

/-! ## What an operation writes -/

/-- An operation of the checksum unit writes its register and the values handed back to the host. -/
theorem exec_crc_frame {i : Instr} {s t : State} (hi : unitOf i = .crc) (h : exec i s = .next t) :
    t = { s with crc := t.crc, host := { s.host with returned := t.host.returned } } := by
  cases i with
  | crcInit | crcShift | crcFlush | crcRead =>
    obtain rfl := next_inj.mp h
    rfl
  | crc16 bits =>
    obtain rfl := next_inj.mp ((exec_crc16 bits s).symm.trans h)
    rfl
  | _ => cases hi

theorem exec_stuffer_frame {i : Instr} {s t : State} (hi : unitOf i = .stuffer) (h : exec i s = .next t) :
    t = { s with st := t.st } := by
  cases i with
  | stuffRst =>
    obtain rfl := next_inj.mp h
    rfl
  | stuffBit b =>
    obtain ⟨-, rfl⟩ := exec_stuffBit_eq_next.mp h
    rfl
  | stuff bits =>
    obtain ⟨-, rfl⟩ := exec_stuff_eq_next.mp h
    rfl
  | _ => cases hi

theorem exec_destuffer_frame {i : Instr} {s t : State} (hi : unitOf i = .destuffer) (h : exec i s = .next t) :
    t = { s with ds := t.ds } := by
  cases i with
  | destuffRst | destuffEnd =>
    obtain rfl := next_inj.mp h
    rfl
  | destuffBit b =>
    obtain ⟨-, rfl⟩ := exec_destuffBit_eq_next.mp h
    rfl
  | destuff bits =>
    obtain ⟨-, rfl⟩ := exec_destuff_eq_next.mp h
    rfl
  | _ => cases hi

theorem execFrStart_frame {s t : State} (h : execFrStart s = .next t) : t = { s with fr := t.fr } := by
  obtain ⟨-, ⟨-, rfl⟩ | ⟨-, -, rfl⟩⟩ := execFrStart_eq_next.mp h <;> rfl

theorem execFrFrame_frame {s t : State} (h : execFrFrame s = .next t) : t = { s with fr := t.fr } := by
  obtain ⟨-, -, -, rfl⟩ := execFrFrame_eq_next.mp h
  rfl

theorem exec_framer_frame {i : Instr} {s t : State} (hi : unitOf i = .framer) (h : exec i s = .next t) :
    t = { s with fr := t.fr } := by
  cases i with
  | frStart => exact execFrStart_frame h
  | frFrame => exact execFrFrame_frame h
  | encode bits c =>
    rw [exec_encode_expansion] at h
    obtain ⟨u, hu, hrun⟩ := andThen_eq_next.mp h
    obtain ⟨v, hv, hstart⟩ := andThen_eq_next.mp hu
    obtain ⟨-, -, -, rfl⟩ := loadSrc_loadChunkSize_eq_next.mp hv
    refine runFramer_keeps (P := fun w => w = { s with fr := w.fr }) (fun w w' hw hw' => ?_) ?_ hrun
    · have hstep := execFrFrame_frame hw'
      rw [hw] at hstep
      exact hstep
    · exact execFrStart_frame (s := { s with fr := s.fr.loaded bits c }) hstart
  | _ => cases hi

theorem exec_deframer_frame {i : Instr} {s t : State} (hi : unitOf i = .deframer) (h : exec i s = .next t) :
    t = { s with df := t.df } := by
  cases i with
  | dfStart =>
    obtain ⟨-, rfl⟩ := execDfStart_eq_next.mp h
    rfl
  | dfHunt => obtain ⟨-, ⟨-, rfl⟩ | ⟨-, -, -, rfl⟩ | ⟨-, -, -, rfl⟩⟩ := execDfHunt_eq_next.mp h <;> rfl
  | dfSeek => obtain ⟨-, ⟨-, rfl⟩ | ⟨-, -, -, rfl⟩ | ⟨-, -, rfl⟩⟩ := execDfSeek_eq_next.mp h <;> rfl
  | dfCheck =>
    obtain ⟨-, raw, -, ⟨-, rfl⟩ | ⟨-, -, rfl⟩⟩ := execDfCheck_eq_next.mp h
    · rfl
    · exact verifyPayload_only_df ..
  | decode bits =>
    obtain ⟨-, -, -, rfl⟩ := exec_decode_eq_next.mp h
    rfl
  | flag | frame | checksumField | stuffedZero =>
    obtain ⟨-, -, rfl⟩ := pushRx_eq_next.mp h
    rfl
  | _ => cases hi

/-- Settles O41: the state after an operation is the state before it but for the operation's own unit. -/
theorem operationsWriteTheirOwnUnit : Obligations.OperationsWriteTheirOwnUnit := by
  intro i s t h
  cases hi : unitOf i with
  | crc =>
    rw [exec_crc_frame hi h]
    simp
  | stuffer =>
    rw [exec_stuffer_frame hi h]
    simp
  | destuffer =>
    rw [exec_destuffer_frame hi h]
    simp
  | framer =>
    rw [exec_framer_frame hi h]
    simp
  | deframer =>
    rw [exec_deframer_frame hi h]
    simp
  | all =>
    cases i with
    | rst =>
      obtain rfl := next_inj.mp ((exec_rst s).symm.trans h)
      simp
    | _ => cases hi

/-! ## What an operation reads -/

/-- An event does the same before and after a change of the state: the change can be made afterwards. -/
def Ignores (f : State → State) (op : State → Result) : Prop := ∀ s, op (f s) = mapNext f (op s)

@[simp] theorem mapNext_next (f : State → State) (s : State) : mapNext f (.next s) = .next (f s) := rfl
@[simp] theorem mapNext_fault (f : State → State) (e : Fault) : mapNext f (.fault e) = .fault e := rfl
@[simp] theorem mapNext_refused (f : State → State) (e : Refusal) : mapNext f (.refused e) = .refused e := rfl

@[simp] theorem mapNext_commit (f : State → State) (ok : Bool) (t : State) :
    mapNext f (commit ok t) = commit ok (f t) := by cases ok <;> rfl

section Ignores

variable {f : State → State}

theorem Ignores.andThen {op op' : State → Result} (h : Ignores f op) (h' : Ignores f op') :
    Ignores f fun s => andThen (op s) op' := by
  intro s
  simp only [h s]
  cases op s with
  | next t => exact h' t
  | fault e => rfl
  | refused e => rfl

theorem Ignores.feed {op : Bit → State → Result} (h : ∀ b, Ignores f (op b)) (bits : BitSeq) :
    Ignores f (feed op bits) := by
  induction bits with
  | nil => exact fun _ => rfl
  | cons b bits ih => exact (h b).andThen ih

theorem Ignores.runFramer (h : Ignores f execFrFrame) (hfr : ∀ s, (f s).fr = s.fr) (turns : Nat) :
    Ignores f (runFramer turns) := by
  induction turns with
  | zero => exact fun _ => rfl
  | succ n ih =>
    intro s
    unfold Machine.runFramer
    rw [hfr]
    split
    · exact h.andThen ih s
    · rfl

theorem Ignores.runDeframer (h : Ignores f execDfSelected) (hdf : ∀ s, (f s).df = s.df) (turns : Nat) :
    Ignores f (runDeframer turns) := by
  induction turns with
  | zero => exact fun _ => rfl
  | succ n ih =>
    intro s
    unfold Machine.runDeframer
    rw [hdf]
    split
    · exact h.andThen ih s
    · rfl

end Ignores

/-- The state with another checksum register. -/
def State.setCrc (s : State) (u : CrcUnit) : State := { s with crc := u }
/-- The state with another stuffer. -/
def State.setSt (s : State) (u : Stuffer) : State := { s with st := u }
/-- The state with another destuffer. -/
def State.setDs (s : State) (u : Destuffer) : State := { s with ds := u }
/-- The state with another framer. -/
def State.setFr (s : State) (u : Framer) : State := { s with fr := u }
/-- The state with another deframer. -/
def State.setDf (s : State) (u : Deframer) : State := { s with df := u }
/-- The state with one more value handed back to the host. -/
def State.handBack (s : State) (v : Checksum) : State :=
  { s with host := { s.host with returned := s.host.returned ++ [v] } }

/-- A change of the state that spares a unit, given by its field and the update of the field, and the parameters. -/
structure Spares {α : Type} (f : State → State) (get : State → α) (set : State → α → State) : Prop where
  params : ∀ s, (f s).params = s.params
  get : ∀ s, get (f s) = get s
  set : ∀ s u, f (set s u) = set (f s) u

section Spares

variable {α : Type} {f : State → State} {get : State → α} {set : State → α → State} (hf : Spares f get set)
include hf

/-- An event that writes a unit as a function of its old value. -/
theorem Spares.ignores_next (g : α → α) : Ignores f fun s => .next (set s (g (get s))) := fun s => by
  simp only [mapNext_next, hf.get, hf.set]

/-- An event that writes a unit as a function of its old value if the parameters allow it. -/
theorem Spares.ignores_commit (ok : Config.Params → α → Bool) (g : α → α) :
    Ignores f fun s => commit (ok s.params (get s)) (set s (g (get s))) := fun s => by
  simp only [mapNext_commit, hf.get, hf.set, hf.params]

theorem Spares.next_at (s : State) (u : α) : (.next (set (f s) u) : Result) = mapNext f (.next (set s u)) :=
  congrArg _ (hf.set s u).symm

theorem Spares.commit_at (fits : Config.Params → Bool) (s : State) (u : α) :
    commit (fits (f s).params) (set (f s) u) = mapNext f (commit (fits s.params) (set s u)) := by
  rw [mapNext_commit, hf.set, hf.params]

end Spares

section Reads

variable {f : State → State} {i : Instr}

/-- The operations of the checksum unit read it alone; the values handed back are only appended to. -/
theorem exec_crc_ignores (hf : Spares f State.crc State.setCrc) (hback : ∀ s v, f (s.handBack v) = (f s).handBack v)
    (hi : unitOf i = .crc) : Ignores f (exec i) := by
  have hinit : Ignores f execCrcInit := hf.ignores_next fun _ => { reg := Config.crcStart }
  have hshift (b : Bit) : Ignores f (execCrcShift b) := hf.ignores_next fun u => { reg := Codec.crcShift u.reg b }
  have hflush : Ignores f execCrcFlush := hf.ignores_next fun u => { reg := Codec.crcFlush u.reg }
  have hread : Ignores f execCrcRead := fun s => by
    change Host.Outcome.next ((f s).handBack (f s).crc.reg) = .next (f (s.handBack s.crc.reg))
    rw [hback, hf.get]
  cases i with
  | crcInit => exact hinit
  | crcShift b => exact hshift b
  | crcFlush => exact hflush
  | crcRead => exact hread
  | crc16 bits => exact ((hinit.andThen (.feed hshift bits)).andThen hflush).andThen hread
  | _ => cases hi

theorem exec_stuffer_ignores (hf : Spares f State.st State.setSt) (hi : unitOf i = .stuffer) : Ignores f (exec i) := by
  have hrst : Ignores f execStuffRst := hf.ignores_next fun _ => Stuffer.reset
  have hbit (b : Bit) : Ignores f (execStuffBit b) :=
    hf.ignores_commit (fun p u => Stuffer.fits p { u with out := memAppend u.out (Codec.stuffStep u.ones b).1 })
      fun u => { ones := (Codec.stuffStep u.ones b).2, out := memAppend u.out (Codec.stuffStep u.ones b).1 }
  cases i with
  | stuffRst => exact hrst
  | stuffBit b => exact hbit b
  | stuff bits => exact hrst.andThen (.feed hbit bits)
  | _ => cases hi

theorem exec_destuffer_ignores (hf : Spares f State.ds State.setDs) (hi : unitOf i = .destuffer) :
    Ignores f (exec i) := by
  have hrst : Ignores f execDestuffRst := hf.ignores_next fun _ => Destuffer.reset
  have hbit (b : Bit) : Ignores f (execDestuffBit b) :=
    hf.ignores_commit (fun p u => Destuffer.fits p { u with out := memAppend u.out (Codec.destuffStep u.ones b).1 })
      fun u => { ones := (Codec.destuffStep u.ones b).2, out := memAppend u.out (Codec.destuffStep u.ones b).1 }
  have hend : Ignores f execDestuffEnd := hf.ignores_next fun u => { u with ones := 0 }
  cases i with
  | destuffRst => exact hrst
  | destuffBit b => exact hbit b
  | destuffEnd => exact hend
  | destuff bits => exact (hrst.andThen (.feed hbit bits)).andThen hend
  | _ => cases hi

section Framer

variable (hf : Spares f State.fr State.setFr)
include hf

theorem commitFramer_ignores (s : State) (u : Framer) :
    commitFramer ((f s).setFr u) = mapNext f (commitFramer (s.setFr u)) :=
  hf.commit_at u.fits s u

theorem loadSrc_ignores (bits : BitSeq) : Ignores f (loadSrc bits) := fun s => by
  unfold loadSrc
  rw [hf.get]
  split
  · rfl
  · exact commitFramer_ignores hf s { s.fr with src := bits }

theorem loadChunkSize_ignores (n : Nat) : Ignores f (loadChunkSize n) := fun s => by
  unfold loadChunkSize
  rw [hf.get]
  split
  · rfl
  · exact commitFramer_ignores hf s { s.fr with chunkSize := n }

theorem execFrStart_ignores : Ignores f execFrStart := fun s => by
  unfold execFrStart
  rw [hf.get]
  split_ifs
  · rfl
  · simp only [takeCondition, hf.get]
    exact hf.next_at s { s.fr with phase := .error, tx := [], frameCount := 0, k := 0 }
  · rfl
  · exact hf.next_at s s.fr.started

theorem execFrFrame_ignores : Ignores f execFrFrame := fun s => by
  unfold execFrFrame
  rw [hf.get]
  split_ifs
  · rfl
  · rfl
  · cases s.fr.nextChunk with
    | none => rfl
    | some chunk => exact commitFramer_ignores hf s (s.fr.afterChunk chunk)

theorem exec_framer_ignores (hi : unitOf i = .framer) : Ignores f (exec i) := by
  cases i with
  | frStart => exact execFrStart_ignores hf
  | frFrame => exact execFrFrame_ignores hf
  | encode bits c =>
    exact (((loadSrc_ignores hf bits).andThen (loadChunkSize_ignores hf c)).andThen (execFrStart_ignores hf)).andThen
      ((execFrFrame_ignores hf).runFramer hf.get bits.length)
  | _ => cases hi

end Framer

section Deframer

variable (hf : Spares f State.df State.setDf)
include hf

theorem commitDeframer_ignores (s : State) (u : Deframer) :
    commitDeframer ((f s).setDf u) = mapNext f (commitDeframer (s.setDf u)) :=
  hf.commit_at u.fits s u

theorem loadRx_ignores (bits : BitSeq) : Ignores f (loadRx bits) := fun s => by
  unfold loadRx
  rw [hf.get]
  split
  · rfl
  · exact commitDeframer_ignores hf s { s.df with rx := bits }

theorem pushRx_ignores (bits : BitSeq) : Ignores f (pushRx bits) := fun s => by
  unfold pushRx
  rw [hf.get]
  exact loadRx_ignores hf _ s

theorem execDfStart_ignores : Ignores f execDfStart := fun s => by
  unfold execDfStart
  rw [hf.get]
  split
  · rfl
  · exact hf.next_at s s.df.started

theorem execDfHunt_ignores : Ignores f execDfHunt := fun s => by
  unfold execDfHunt
  rw [hf.get]
  split_ifs
  · rfl
  · exact hf.next_at s { s.df with phase := .done }
  · cases s.df.window s.df.i with
    | none => rfl
    | some w =>
      dsimp only
      split_ifs
      · exact commitDeframer_ignores hf s { s.df with i := s.df.i + 1 }
      · exact commitDeframer_ignores hf s { s.df with start := s.df.i + 8, j := s.df.i + 8, phase := .seek }

theorem execDfSeek_ignores : Ignores f execDfSeek := fun s => by
  unfold execDfSeek
  rw [hf.get]
  split_ifs
  · rfl
  · simp only [takeCondition, hf.get]
    exact hf.next_at s { s.df with phase := .done }
  · cases s.df.window s.df.j with
    | none => rfl
    | some w =>
      dsimp only
      split_ifs
      · exact commitDeframer_ignores hf s { s.df with j := s.df.j + 1 }
      · exact hf.next_at s { s.df with phase := .check }

theorem execDfCheck_ignores : Ignores f execDfCheck := fun s => by
  unfold execDfCheck
  rw [hf.get]
  split_ifs
  · rfl
  · cases s.df.payload with
    | none => rfl
    | some raw =>
      simp only [verifyPayload, takeCondition]
      split_ifs
      · exact hf.next_at s { s.df with phase := .aborted, dsOnes := 0 }
      · exact commitDeframer_ignores hf s { s.df with
          phase := .hunt, framesFailed := s.df.framesFailed + 1, i := s.df.j + 8
          crcReg := Codec.crc16 (payloadData (Codec.destuff raw)), dsOnes := 0 }
      · exact commitDeframer_ignores hf s (Deframer.accept
          { s.df with crcReg := Codec.crc16 (payloadData (Codec.destuff raw)), dsOnes := 0 }
          (payloadData (Codec.destuff raw)))

theorem execDfSelected_ignores : Ignores f execDfSelected := fun s => by
  unfold execDfSelected
  rw [hf.get]
  cases s.df.phase with
  | hunt => exact execDfHunt_ignores hf s
  | seek => exact execDfSeek_ignores hf s
  | check => exact execDfCheck_ignores hf s
  | idle | done | aborted => rfl

theorem exec_deframer_ignores (hi : unitOf i = .deframer) : Ignores f (exec i) := by
  cases i with
  | dfStart => exact execDfStart_ignores hf
  | dfHunt => exact execDfHunt_ignores hf
  | dfSeek => exact execDfSeek_ignores hf
  | dfCheck => exact execDfCheck_ignores hf
  | decode bits =>
    exact ((loadRx_ignores hf bits).andThen (execDfStart_ignores hf)).andThen
      ((execDfSelected_ignores hf).runDeframer hf.get (2 * bits.length + 2))
  | flag | frame | checksumField | stuffedZero => exact pushRx_ignores hf _
  | _ => cases hi

end Deframer

end Reads

/-- Settles O42: putting another state into the other units spares the operation's own unit. -/
theorem operationsReadTheirOwnUnit : Obligations.OperationsReadTheirOwnUnit := fun _ s c st ds fr df =>
  ⟨fun hi => exec_crc_ignores (f := ({ · with st := st, ds := ds, fr := fr, df := df }))
      ⟨fun _ => rfl, fun _ => rfl, fun _ _ => rfl⟩ (fun _ _ => rfl) hi s,
    fun hi => exec_stuffer_ignores (f := ({ · with crc := c, ds := ds, fr := fr, df := df }))
      ⟨fun _ => rfl, fun _ => rfl, fun _ _ => rfl⟩ hi s,
    fun hi => exec_destuffer_ignores (f := ({ · with crc := c, st := st, fr := fr, df := df }))
      ⟨fun _ => rfl, fun _ => rfl, fun _ _ => rfl⟩ hi s,
    fun hi => exec_framer_ignores (f := ({ · with crc := c, st := st, ds := ds, df := df }))
      ⟨fun _ => rfl, fun _ => rfl, fun _ _ => rfl⟩ hi s,
    fun hi => exec_deframer_ignores (f := ({ · with crc := c, st := st, ds := ds, fr := fr }))
      ⟨fun _ => rfl, fun _ => rfl, fun _ _ => rfl⟩ hi s⟩

/-- Settles O43: each operation ignores what the other writes, so each can be done after the other. -/
theorem framerAndDeframerCommute : Obligations.FramerAndDeframerCommute := by
  intro i j s t u hi hj ht hu
  have hfr : t = s.setFr t.fr := exec_framer_frame hi ht
  have hdf : u = s.setDf u.df := exec_deframer_frame hj hu
  have hj' : exec j (s.setFr t.fr) = .next (u.setFr t.fr) :=
    (exec_deframer_ignores (f := (·.setFr t.fr)) ⟨fun _ => rfl, fun _ => rfl, fun _ _ => rfl⟩ hj s).trans
      (by rw [hu, mapNext_next])
  have hi' : exec i (s.setDf u.df) = .next (t.setDf u.df) :=
    (exec_framer_ignores (f := (·.setDf u.df)) ⟨fun _ => rfl, fun _ => rfl, fun _ _ => rfl⟩ hi s).trans
      (by rw [ht, mapNext_next])
  have hsame : t.setDf u.df = u.setFr t.fr := by
    rw [hfr, hdf]
    rfl
  rw [← hfr] at hj'
  rw [← hdf, hsame] at hi'
  exact ⟨_, hj', hi'⟩

end Sys2Proof.Machine
end

section
/-!
PROOFS. What the operations keep of the results and the phases: the stuffer's counter, stopped units, containers that only
grow, the deframer's transitions and its validated output (41_bit_stuffer.md R144; 10_state.md section 7; 20_memory.md R61;
44_hdlc_deframer.md R199; 60_exceptions.md R231, R232), and the inner registers after a frame (log 3).
-/

namespace Sys2Proof.Machine

section Keeps

variable {i : Instr} {s t : State} (h : exec i s = .next t) (hrst : i ≠ .rst)
include h hrst

theorem exec_keeps_st (hi : unitOf i ≠ .stuffer) : t.st = s.st := by
  obtain ⟨-, -, -, hunits⟩ := operationsWriteTheirOwnUnit i s t h
  obtain ⟨-, hst, -⟩ := hunits hrst
  exact hst hi

theorem exec_keeps_ds (hi : unitOf i ≠ .destuffer) : t.ds = s.ds := by
  obtain ⟨-, -, -, hunits⟩ := operationsWriteTheirOwnUnit i s t h
  obtain ⟨-, -, hds, -⟩ := hunits hrst
  exact hds hi

theorem exec_keeps_fr (hi : unitOf i ≠ .framer) : t.fr = s.fr := by
  obtain ⟨-, -, -, hunits⟩ := operationsWriteTheirOwnUnit i s t h
  obtain ⟨-, -, -, hfr, -⟩ := hunits hrst
  exact hfr hi

theorem exec_keeps_df (hi : unitOf i ≠ .deframer) : t.df = s.df := by
  obtain ⟨-, -, -, hunits⟩ := operationsWriteTheirOwnUnit i s t h
  obtain ⟨-, -, -, -, hdf⟩ := hunits hrst
  exact hdf hi

end Keeps

/-! ## The stuffer's counter -/

/-- Settles O11: `STUFF.BIT` and `stuff` scan on from the counter and the output, and everything else resets the stuffer or
leaves it. -/
theorem stuffCounterIsTrailingRun : Obligations.StuffCounterIsTrailingRun := by
  intro i s t hones h
  by_cases hi : unitOf i = .stuffer
  · cases i with
    | stuffRst =>
      obtain rfl := next_inj.mp h
      rfl
    | stuffBit b =>
      obtain ⟨-, rfl⟩ := exec_stuffBit_eq_next.mp h
      exact Codec.trailingOnes_scan [b] hones
    | stuff bits =>
      obtain ⟨-, rfl⟩ := exec_stuff_eq_next.mp h
      exact Codec.trailingOnes_scan (out := []) bits rfl
    | _ => cases hi
  · by_cases hrst : i = .rst
    · subst hrst
      obtain rfl := next_inj.mp ((exec_rst s).symm.trans h)
      rfl
    · rwa [exec_keeps_st h hrst hi]

/-! ## Stopped units -/

/-- Settles O40: the steps of a sequencer need a busy phase, so what is left for a stopped unit is its `START`, its call, `RST`
and, for the deframer, the arrival of wire items. -/
theorem stoppedUnitsStayStopped : Obligations.StoppedUnitsStayStopped := by
  intro i s t h hrst
  refine ⟨fun hstopped hstart hcall => ?_, fun hstopped hstart hcall => ?_⟩
  · by_cases hi : unitOf i = .framer
    · cases i with
      | frStart => exact absurd rfl hstart
      | encode bits c => exact absurd rfl (hcall bits c)
      | frFrame =>
        obtain ⟨hp, -⟩ := execFrFrame_eq_next.mp h
        simp [hp] at hstopped
      | _ => cases hi
    · exact exec_keeps_fr h hrst hi
  · by_cases hi : unitOf i = .deframer
    · cases i with
      | dfStart => exact absurd rfl hstart
      | decode bits => exact absurd rfl (hcall bits)
      | dfHunt =>
        obtain ⟨hp, -⟩ := execDfHunt_eq_next.mp h
        simp [hp] at hstopped
      | dfSeek =>
        obtain ⟨hp, -⟩ := execDfSeek_eq_next.mp h
        simp [hp] at hstopped
      | dfCheck =>
        obtain ⟨hp, -⟩ := execDfCheck_eq_next.mp h
        simp [hp] at hstopped
      | flag | frame | checksumField | stuffedZero =>
        obtain ⟨-, -, rfl⟩ := pushRx_eq_next.mp h
        rfl
      | _ => cases hi
    · rw [exec_keeps_df h hrst hi]

/-! ## The deframer's steps -/

/-- What each step of the deframer does to its results: nothing, or it records a frame. -/
theorem exec_df_step_results {i : Instr} {s t : State} (hi : i = .dfHunt ∨ i = .dfSeek ∨ i = .dfCheck)
    (h : exec i s = .next t) :
    t.df.rx = s.df.rx ∧
      ((t.df.out = s.df.out ∧ t.df.framesOk = s.df.framesOk ∧ t.df.framesFailed = s.df.framesFailed) ∨
        t.df.phase = .hunt ∧
          ((t.df.out = s.df.out ∧ t.df.framesOk = s.df.framesOk ∧ t.df.framesFailed = s.df.framesFailed + 1) ∨
            ∃ data, t.df.out = s.df.out ++ data ∧ t.df.framesOk = s.df.framesOk + 1 ∧
              t.df.framesFailed = s.df.framesFailed)) := by
  rcases hi with rfl | rfl | rfl
  · obtain ⟨-, ⟨-, rfl⟩ | ⟨-, -, -, rfl⟩ | ⟨-, -, -, rfl⟩⟩ := execDfHunt_eq_next.mp h <;>
      exact ⟨rfl, .inl ⟨rfl, rfl, rfl⟩⟩
  · obtain ⟨-, ⟨-, rfl⟩ | ⟨-, -, -, rfl⟩ | ⟨-, -, rfl⟩⟩ := execDfSeek_eq_next.mp h <;>
      exact ⟨rfl, .inl ⟨rfl, rfl, rfl⟩⟩
  · obtain ⟨-, raw, -, ⟨-, rfl⟩ | ⟨-, -, rfl⟩⟩ := execDfCheck_eq_next.mp h
    · exact ⟨rfl, .inl ⟨rfl, rfl, rfl⟩⟩
    · rw [verifyPayload_df]
      split
      · exact ⟨rfl, .inr ⟨rfl, .inl ⟨rfl, rfl, rfl⟩⟩⟩
      · exact ⟨rfl, .inr ⟨rfl, .inr ⟨_, rfl, rfl, rfl⟩⟩⟩

/-- Settles O33: of the three things a step does to the results, each clause singles one out. -/
theorem validatedOutputIsKept : Obligations.ValidatedOutputIsKept := by
  intro i s t hi h
  obtain ⟨-, ⟨hout, hok, hfailed⟩ | ⟨hp, ⟨hout, hok, hfailed⟩ | ⟨data, hout, hok, hfailed⟩⟩⟩ :=
    exec_df_step_results hi h
  · simp [hout, hok, hfailed]
  · simp [hout, hp]
  · simp [hout, hok, hfailed, hp]

/-- Settles O29: each primitive of the deframer that answers takes a row of the table or leaves the phase. -/
theorem deframerFollowsItsTransitions : Obligations.DeframerFollowsItsTransitions := by
  intro i s t hformat h
  by_cases hi : unitOf i = .deframer
  · cases i with
    | dfStart =>
      obtain ⟨hidle, rfl⟩ := execDfStart_eq_next.mp h
      rcases Deframer.not_busy_iff.mp hidle with hp | hp | hp <;> simp [hp, dfEdge]
    | dfHunt =>
      obtain ⟨hp, ⟨-, rfl⟩ | ⟨-, -, -, rfl⟩ | ⟨-, -, -, rfl⟩⟩ := execDfHunt_eq_next.mp h <;> simp [hp, dfEdge]
    | dfSeek =>
      obtain ⟨hp, ⟨-, rfl⟩ | ⟨-, -, -, rfl⟩ | ⟨-, -, rfl⟩⟩ := execDfSeek_eq_next.mp h <;>
        simp [hp, dfEdge, takeCondition]
    | dfCheck =>
      obtain ⟨hp, raw, -, ⟨-, rfl⟩ | ⟨-, -, rfl⟩⟩ := execDfCheck_eq_next.mp h
      · simp [hp, dfEdge, takeCondition]
      · rw [verifyPayload_df]
        split <;> simp [hp, dfEdge]
    | flag | frame | checksumField | stuffedZero =>
      obtain ⟨-, -, rfl⟩ := pushRx_eq_next.mp h
      exact .inl rfl
    | decode bits => exact absurd rfl hformat
    | _ => cases hi
  · by_cases hrst : i = .rst
    · subst hrst
      obtain rfl := next_inj.mp ((exec_rst s).symm.trans h)
      exact .inr (by cases s.df.phase <;> rfl)
    · exact .inl (by rw [exec_keeps_df h hrst hi])

/-- Settles O31: what an answered decode leaves has returned its results, in phase DONE or ABORTED. -/
theorem decodeEndsInATerminalPhase : Obligations.DecodeEndsInATerminalPhase := by
  intro bits s t h
  obtain ⟨-, -, -, rfl⟩ := exec_decode_eq_next.mp h
  have hphase := (s.df.decoded_returns bits).phase
  cases hab : (Reference.decode bits).abort with
  | true => exact .inr (hphase.trans (by rw [hab]; rfl))
  | false => exact .inl (hphase.trans (by rw [hab]; rfl))

/-! ## Containers -/

section Containers

variable {i : Instr} {s t : State} (hformat : i.format = .k ∨ i.format = .s) (h : exec i s = .next t)
include hformat h

theorem exec_stuffer_appends (hi : unitOf i = .stuffer) (hrst : i ≠ .stuffRst) : s.st.out <+: t.st.out := by
  cases i with
  | stuffRst => exact absurd rfl hrst
  | stuffBit b =>
    obtain ⟨-, rfl⟩ := exec_stuffBit_eq_next.mp h
    exact List.prefix_append ..
  | stuff bits => simp [Instr.format] at hformat
  | _ => cases hi

theorem exec_destuffer_appends (hi : unitOf i = .destuffer) (hrst : i ≠ .destuffRst) : s.ds.out <+: t.ds.out := by
  cases i with
  | destuffRst => exact absurd rfl hrst
  | destuffBit b =>
    obtain ⟨-, rfl⟩ := exec_destuffBit_eq_next.mp h
    exact List.prefix_append ..
  | destuffEnd =>
    obtain rfl := next_inj.mp ((exec_destuffEnd s).symm.trans h)
    exact List.prefix_rfl
  | destuff bits => simp [Instr.format] at hformat
  | _ => cases hi

theorem exec_framer_appends (hi : unitOf i = .framer) : t.fr.src = s.fr.src ∧ (i ≠ .frStart → s.fr.tx <+: t.fr.tx) := by
  cases i with
  | frStart =>
    obtain ⟨-, ⟨-, rfl⟩ | ⟨-, -, rfl⟩⟩ := execFrStart_eq_next.mp h <;> exact ⟨rfl, fun hne => absurd rfl hne⟩
  | frFrame =>
    obtain ⟨-, -, -, rfl⟩ := execFrFrame_eq_next.mp h
    exact ⟨rfl, fun _ => List.prefix_append ..⟩
  | encode bits c => simp [Instr.format] at hformat
  | _ => cases hi

theorem exec_deframer_appends (hi : unitOf i = .deframer) :
    t.df.rx = s.df.rx ∧ (i ≠ .dfStart → s.df.out <+: t.df.out) := by
  have hstep (hstep : i = .dfHunt ∨ i = .dfSeek ∨ i = .dfCheck) :
      t.df.rx = s.df.rx ∧ (i ≠ .dfStart → s.df.out <+: t.df.out) :=
    ⟨(exec_df_step_results hstep h).1, fun _ => (validatedOutputIsKept i s t hstep h).1⟩
  cases i with
  | dfStart =>
    obtain ⟨-, rfl⟩ := execDfStart_eq_next.mp h
    exact ⟨rfl, fun hne => absurd rfl hne⟩
  | dfHunt => exact hstep (.inl rfl)
  | dfSeek => exact hstep (.inr (.inl rfl))
  | dfCheck => exact hstep (.inr (.inr rfl))
  | decode | flag | frame | checksumField | stuffedZero => simp [Instr.format] at hformat
  | _ => cases hi

end Containers

/-- Settles O44: a command or step of another unit leaves a container, and one of its own unit leaves or extends it. -/
theorem containersAreReadOrAppended : Obligations.ContainersAreReadOrAppended := by
  intro i s t hformat hrst h
  have hfr : t.fr.src = s.fr.src ∧ (i ≠ .frStart → s.fr.tx <+: t.fr.tx) := by
    by_cases hi : unitOf i = .framer
    · exact exec_framer_appends hformat h hi
    · simp [exec_keeps_fr h hrst hi]
  have hdf : t.df.rx = s.df.rx ∧ (i ≠ .dfStart → s.df.out <+: t.df.out) := by
    by_cases hi : unitOf i = .deframer
    · exact exec_deframer_appends hformat h hi
    · simp [exec_keeps_df h hrst hi]
  have hst (hne : i ≠ .stuffRst) : s.st.out <+: t.st.out := by
    by_cases hi : unitOf i = .stuffer
    · exact exec_stuffer_appends hformat h hi hne
    · rw [exec_keeps_st h hrst hi]
  have hds (hne : i ≠ .destuffRst) : s.ds.out <+: t.ds.out := by
    by_cases hi : unitOf i = .destuffer
    · exact exec_destuffer_appends hformat h hi hne
    · rw [exec_keeps_ds h hrst hi]
  exact ⟨hfr.1, hdf.1, hfr.2, hdf.2, hst, hds⟩

/-! ## The inner registers -/

/-- The counter that framing a chunk leaves is the run of ones before the closing Flag: the opening Flag ends with a 0, so
the run lies in the stuffed body. -/
theorem Framer.afterChunk_stOnes (f : Framer) (chunk : BitSeq) :
    (f.afterChunk chunk).stOnes.val =
      trailingOnes ((f.afterChunk chunk).tx.take ((f.afterChunk chunk).tx.length - 8)) := by
  have hflag : f.tx ++ Config.flag = f.tx ++ [false, true, true, true, true, true, true] ++ [false] := by
    simp [Config.flag]
  have hbody : (f.afterChunk chunk).tx.take ((f.afterChunk chunk).tx.length - 8) =
      f.tx ++ Config.flag ++ Codec.stuff (Codec.frameBody chunk) := by
    have hlen : Config.flag.length = 8 := rfl
    simp only [Framer.afterChunk_tx, Codec.frameBits, ← List.append_assoc]
    rw [List.length_append, hlen, Nat.add_sub_cancel, List.take_left']
    rfl
  rw [hbody]
  exact Codec.trailingOnes_scan (out := f.tx ++ Config.flag) (Codec.frameBody chunk)
    (by rw [hflag, Codec.trailingOnes_append_zero]; rfl)

/-- Settles O21. -/
theorem privateUnitsAfterAFrame : Obligations.PrivateUnitsAfterAFrame := by
  constructor
  · intro s t h
    obtain ⟨-, -, -, rfl⟩ := execFrFrame_eq_next.mp h
    exact ⟨rfl, Framer.afterChunk_stOnes ..⟩
  · intro s t h
    obtain ⟨hp, raw, hraw, ⟨-, rfl⟩ | ⟨-, -, rfl⟩⟩ := execDfCheck_eq_next.mp h
    · exact ⟨rfl, fun _ => rfl, nofun⟩
    · have hrecorded : (verifyPayload (Codec.destuff raw) { s with df := { s.df with dsOnes := 0 } }).df.dsOnes = 0 ∧
          (verifyPayload (Codec.destuff raw) { s with df := { s.df with dsOnes := 0 } }).df.phase = .hunt ∧
          (verifyPayload (Codec.destuff raw) { s with df := { s.df with dsOnes := 0 } }).df.crcReg =
            Codec.crc16 (payloadData (Codec.destuff raw)) := by
        rw [verifyPayload_df]
        split <;> exact ⟨rfl, rfl, rfl⟩
      obtain ⟨hones, hhunt, hcrc⟩ := hrecorded
      refine ⟨hones, fun hab => absurd (hhunt.symm.trans hab) (by decide), fun _ hstart => ?_⟩
      obtain ⟨-, rfl⟩ := memRead_eq_some.mp hraw
      rw [hcrc, Nat.add_sub_cancel' hstart]

end Sys2Proof.Machine
end

section
/-!
PROOFS. What one step does with the event at the head of the list, and with none: it runs the decoded instruction, the step that
a phase selects, or a write of the host (30_encoding.md sections 4 and 5; 70_reset_and_hazards.md section 2; 10_state.md section
7), and where the steps of the two sequencers stop (log 7).
-/

namespace Sys2Proof.Machine

/-! ## Fetching and doing -/

/-- Doing what is fetched. -/
def Fetched.perform : Fetched → Result
  | .run i t => exec i t
  | .writeSrc bits t => loadSrc bits t
  | .writeChunkSize n t => loadChunkSize n t
  | .writeRx bits t => loadRx bits t
  | .writeStatus t => ignoreStatusWrite t
  | .idle t => .next t
  | .reject why => .refused (.undecodable why)

theorem step_eq_perform (s : State) : step s = (fetch s).perform := by
  unfold step
  cases fetch s <;> rfl

/-- With an event pending, a step does that event. -/
theorem step_cons (e : Event) (rest : List Event) (s : State) :
    step (s.withEvents (e :: rest)) = (fetchEvent e rest (s.withEvents (e :: rest))).perform := step_eq_perform _

theorem perform_fetchDecoded {e : Encoding} {i : Instr} (h : decodeInstr e = .ok i) (s : State) :
    (fetchDecoded e s).perform = exec i s := by
  rw [fetchDecoded, h]
  rfl

/-- Settles O50. -/
theorem stepRunsTheDecodedInstruction : Obligations.StepRunsTheDecodedInstruction := fun _ s rest =>
  ⟨fun _ h => (step_cons ..).trans (perform_fetchDecoded h (s.withEvents rest)),
    fun _ h => (step_cons ..).trans (perform_fetchDecoded h (s.withEvents rest)),
    fun _ h => (step_cons ..).trans (perform_fetchDecoded h (s.withEvents rest))⟩

/-- A step of the framer by itself is `FR.FRAME` while it is busy, and nothing otherwise (R100). -/
theorem perform_fetchStep_framer (s : State) :
    (fetchStep .framer s).perform = if s.fr.busy then exec .frFrame s else .next s := by
  unfold fetchStep State.phaseEncoding Framer.busy
  cases s.fr.phase <;> rfl

/-- A step of the deframer by itself is the one its phase selects (R100). -/
theorem perform_fetchStep_deframer (s : State) : (fetchStep .deframer s).perform = execDfSelected s := by
  unfold fetchStep State.phaseEncoding execDfSelected
  cases s.df.phase <;> rfl

theorem execDfSelected_of_hunt {s : State} (hp : s.df.phase = .hunt) : execDfSelected s = exec .dfHunt s := by
  rw [execDfSelected, hp]
  rfl

theorem execDfSelected_of_seek {s : State} (hp : s.df.phase = .seek) : execDfSelected s = exec .dfSeek s := by
  rw [execDfSelected, hp]
  rfl

theorem execDfSelected_of_check {s : State} (hp : s.df.phase = .check) : execDfSelected s = exec .dfCheck s := by
  rw [execDfSelected, hp]
  rfl

theorem execDfSelected_of_not_busy {s : State} (hb : s.df.busy = false) : execDfSelected s = .next s := by
  rcases Deframer.not_busy_iff.mp hb with hp | hp | hp <;> rw [execDfSelected, hp]

theorem step_turn_framer (s : State) (rest : List Event) :
    step (s.withEvents (.turn .framer :: rest)) =
      if s.fr.busy then exec .frFrame (s.withEvents rest) else .next (s.withEvents rest) :=
  (step_cons ..).trans (perform_fetchStep_framer (s.withEvents rest))

theorem step_turn_deframer (s : State) (rest : List Event) :
    step (s.withEvents (.turn .deframer :: rest)) = execDfSelected (s.withEvents rest) :=
  (step_cons ..).trans (perform_fetchStep_deframer (s.withEvents rest))

/-- Settles O51: a turn of a unit is the step it takes by itself. -/
theorem phaseSelectsTheStep : Obligations.PhaseSelectsTheStep := by
  intro s rest
  rw [step_turn_framer, step_turn_deframer]
  exact ⟨fun hp => if_pos (Framer.busy_iff.mpr hp), fun hp => if_neg (mt Framer.busy_iff.mp hp),
    fun hp => execDfSelected_of_hunt hp, fun hp => execDfSelected_of_seek hp, fun hp => execDfSelected_of_check hp,
    fun hp => execDfSelected_of_not_busy (Deframer.not_busy_iff.mpr hp)⟩

theorem step_nil {s : State} (h : s.host.events = []) :
    step s = if s.fr.busy then exec .frFrame s else execDfSelected s := by
  rw [step_eq_perform, fetch, h, ← perform_fetchStep_deframer]
  cases hb : s.fr.busy with
  | true => exact (perform_fetchStep_framer s).trans (if_pos hb)
  | false => rfl

/-- Settles O52: with no event pending, a step is the step of the framer if it is busy, else that of the deframer. -/
theorem busyUnitsGoOnByThemselves : Obligations.BusyUnitsGoOnByThemselves := by
  intro s h
  rw [step_nil h]
  have hdf (hb : s.fr.busy = false) : (if s.fr.busy then exec .frFrame s else execDfSelected s) = execDfSelected s :=
    if_neg (by simp [hb])
  exact ⟨fun hb => if_pos hb, fun hb hp => (hdf hb).trans (execDfSelected_of_hunt hp),
    fun hb hp => (hdf hb).trans (execDfSelected_of_seek hp), fun hb hp => (hdf hb).trans (execDfSelected_of_check hp),
    fun ⟨hb, hd⟩ => (hdf hb).trans (execDfSelected_of_not_busy hd)⟩

/-! ## The host's writes -/

theorem commit_of_fits {ok : Bool} (h : ok = true) (t : State) : commit ok t = .next t := if_pos h

theorem commit_of_not_fits {ok : Bool} (h : ok = false) (t : State) : commit ok t = .refused .capacityExceeded :=
  if_neg (by simp [h])

section Writes

variable {s : State}

theorem loadSrc_of_busy (hb : s.fr.busy = true) (bits : BitSeq) : loadSrc bits s = .refused .framerBusy := if_pos hb

theorem loadSrc_of_not_busy (hb : s.fr.busy = false) (bits : BitSeq) :
    loadSrc bits s = commitFramer { s with fr := { s.fr with src := bits } } := if_neg (by simp [hb])

theorem loadChunkSize_of_busy (hb : s.fr.busy = true) (n : Nat) : loadChunkSize n s = .refused .framerBusy := if_pos hb

theorem loadChunkSize_of_not_busy (hb : s.fr.busy = false) (n : Nat) :
    loadChunkSize n s = commitFramer { s with fr := { s.fr with chunkSize := n } } := if_neg (by simp [hb])

theorem loadRx_of_busy (hb : s.df.busy = true) (bits : BitSeq) : loadRx bits s = .refused .deframerBusy := if_pos hb

theorem loadRx_of_not_busy (hb : s.df.busy = false) (bits : BitSeq) :
    loadRx bits s = commitDeframer { s with df := { s.df with rx := bits } } := if_neg (by simp [hb])

theorem step_loadSrc (bits : BitSeq) (rest : List Event) :
    step (s.withEvents (.act (.loadSrc bits) :: rest)) = loadSrc bits (s.withEvents rest) := step_cons ..

theorem step_loadChunkSize (n : Nat) (rest : List Event) :
    step (s.withEvents (.act (.loadChunkSize n) :: rest)) = loadChunkSize n (s.withEvents rest) := step_cons ..

theorem step_loadRx (bits : BitSeq) (rest : List Event) :
    step (s.withEvents (.act (.loadRx bits) :: rest)) = loadRx bits (s.withEvents rest) := step_cons ..

end Writes

/-- Settles O39: each write is a test of the phase and then of the parameters. -/
theorem hostWritesInputsOfIdleUnits : Obligations.HostWritesInputsOfIdleUnits := by
  intro s rest bits n v
  rw [step_loadSrc, step_loadChunkSize, step_loadRx]
  let u := s.withEvents rest
  exact ⟨fun hb hfit => loadSrc_eq_next.mpr ⟨hb, hfit, rfl⟩, fun hb hfit => loadChunkSize_eq_next.mpr ⟨hb, hfit, rfl⟩,
    fun hb hfit => loadRx_eq_next.mpr ⟨hb, hfit, rfl⟩,
    fun hb hfit => (loadSrc_of_not_busy (s := u) hb bits).trans (commit_of_not_fits hfit _),
    fun hb hfit => (loadChunkSize_of_not_busy (s := u) hb n).trans (commit_of_not_fits hfit _),
    fun hb hfit => (loadRx_of_not_busy (s := u) hb bits).trans (commit_of_not_fits hfit _),
    fun hb => loadSrc_of_busy (s := u) hb bits, fun hb => loadChunkSize_of_busy (s := u) hb n,
    fun hb => loadRx_of_busy (s := u) hb bits,
    step_cons .., step_cons ..⟩

/-- Settles O46: each item is a push of its bits onto `RX`. -/
theorem wireItemsArriveAtRx : Obligations.WireItemsArriveAtRx := by
  intro s chunk c i bits hmem d
  have hpush : exec i s = loadRx (s.df.rx ++ bits) s := by
    simp only [List.mem_cons, Prod.mk.injEq, List.not_mem_nil, or_false] at hmem
    rcases hmem with ⟨rfl, rfl⟩ | ⟨rfl, rfl⟩ | ⟨rfl, rfl⟩ | ⟨rfl, rfl⟩ <;> rfl
  rw [hpush]
  exact ⟨fun hb hfit => loadRx_eq_next.mpr ⟨hb, hfit, rfl⟩,
    fun hb hfit => (loadRx_of_not_busy hb _).trans (commit_of_not_fits hfit _), fun hb => loadRx_of_busy hb _⟩

/-- Settles O38, phase by phase. -/
theorem statusViewsMirrorThePhases : Obligations.StatusViewsMirrorThePhases := by
  intro s
  have hfr : (s.fr.status.getLsbD 2 = true ↔ s.fr.phase = .error) ∧ (s.fr.status.getLsbD 1 = true ↔ s.fr.phase = .done) ∧
      (s.fr.status.getLsbD 0 = true ↔ s.fr.phase = .run) ∧ s.fr.status ∈ [0b000#3, 0b001#3, 0b010#3, 0b100#3] := by
    unfold Framer.status Framer.inputError Framer.isDone Framer.busy
    cases s.fr.phase <;> decide
  have hdf : (s.df.status.getLsbD 2 = true ↔ s.df.phase = .aborted) ∧ (s.df.status.getLsbD 1 = true ↔ s.df.phase = .done) ∧
      (s.df.status.getLsbD 0 = true ↔ s.df.phase = .hunt ∨ s.df.phase = .seek ∨ s.df.phase = .check) ∧
      s.df.status ∈ [0b000#3, 0b001#3, 0b010#3, 0b100#3] := by
    unfold Deframer.status Deframer.abort Deframer.isDone Deframer.busy
    cases s.df.phase <;> decide
  obtain ⟨herror, hdone, hrun, hview⟩ := hfr
  obtain ⟨habort, hdone', hbusy, hview'⟩ := hdf
  exact ⟨herror, hdone, hrun, habort, hdone', hbusy, hview, hview'⟩

/-! ## The steps of the sequencers, with the check of the parameters left open -/

section Steps

variable {s : State}

/-- In phase RUN with R174's precondition, `FR.FRAME` commits the framer with its next Frame. -/
theorem exec_frFrame_of_ready (hrun : s.fr.phase = .run) (hready : s.fr.chunkReady = true) :
    exec .frFrame s = commitFramer { s with fr := s.fr.nextFrame } := by
  change execFrFrame s = _
  rw [execFrFrame, if_neg (not_not.mpr hrun), if_neg (by simp [hready]), Framer.nextChunk_of_ready hready]
  rfl

theorem exec_dfHunt_of_end (hp : s.df.phase = .hunt) (hend : s.df.rx.length < s.df.i + 8) :
    exec .dfHunt s = .next { s with df := { s.df with phase := .done } } :=
  execDfHunt_eq_next.mpr ⟨hp, .inl ⟨hend, rfl⟩⟩

theorem exec_dfHunt_of_inside (hp : s.df.phase = .hunt) (hin : s.df.i + 8 ≤ s.df.rx.length) :
    exec .dfHunt s =
      if slice s.df.rx s.df.i (s.df.i + 8) ≠ Config.flag then commitDeframer { s with df := { s.df with i := s.df.i + 1 } }
      else commitDeframer { s with df := { s.df with start := s.df.i + 8, j := s.df.i + 8, phase := .seek } } := by
  change execDfHunt s = _
  have hend : ¬ s.df.i + 8 > s.df.rx.length := Nat.not_lt.mpr hin
  rw [execDfHunt, if_neg (not_not.mpr hp), if_neg hend, Deframer.window_of_inside hend]

theorem exec_dfSeek_of_end (hp : s.df.phase = .seek) (hend : s.df.rx.length < s.df.j + 8) :
    exec .dfSeek s = .next { s with df := { s.df with phase := .done } } :=
  execDfSeek_eq_next.mpr ⟨hp, .inl ⟨hend, rfl⟩⟩

theorem exec_dfSeek_of_inside (hp : s.df.phase = .seek) (hin : s.df.j + 8 ≤ s.df.rx.length) :
    exec .dfSeek s =
      if slice s.df.rx s.df.j (s.df.j + 8) ≠ Config.flag then commitDeframer { s with df := { s.df with j := s.df.j + 1 } }
      else .next { s with df := { s.df with phase := .check } } := by
  change execDfSeek s = _
  have hend : ¬ s.df.j + 8 > s.df.rx.length := Nat.not_lt.mpr hin
  rw [execDfSeek, if_neg (not_not.mpr hp), if_neg hend, Deframer.window_of_inside hend]

/-- A payload of at least 16 bits is verified, and the deframer with the frame recorded committed (R198). -/
theorem exec_dfCheck_of_long_commit (hp : s.df.phase = .check) (hstart : s.df.start ≤ s.df.j)
    (hj : s.df.j ≤ s.df.rx.length) (hlong : 16 ≤ s.df.destuffed.length) :
    exec .dfCheck s = commitDeframer { s with df := s.df.verified } := by
  have hverify : verifyPayload s.df.destuffed { s with df := { s.df with dsOnes := 0 } } =
      { s with df := s.df.verified } := by
    rw [verifyPayload_only_df, verifyPayload_df]
    rfl
  change execDfCheck s = _
  rw [execDfCheck, if_neg (not_not.mpr hp), Deframer.payload_of_inside hstart hj, ← hverify]
  exact if_neg (Nat.not_lt.mpr hlong)

/-- A payload that lies outside `RX` faults (R63). -/
theorem exec_dfCheck_of_outside (hp : s.df.phase = .check) (hout : s.df.rx.length < s.df.start ∨ s.df.rx.length < s.df.j) :
    exec .dfCheck s = .fault .readOutsideContainer := by
  have hraw : s.df.payload = none := memRead_eq_none.mpr (by omega)
  change execDfCheck s = _
  rw [execDfCheck, if_neg (not_not.mpr hp), hraw]

end Steps

/-- Settles O53: the tests of the four steps, each in the state that fails it. -/
theorem stepsOutsideTheirPhaseAreRefused : Obligations.StepsOutsideTheirPhaseAreRefused := by
  intro s
  refine ⟨fun hp => if_pos hp, fun hp => if_pos hp, fun hp => if_pos hp, fun hp => if_pos hp, fun hp hleft => ?_,
    exec_dfCheck_of_outside, fun hp hin hmiss hfit => ?_, fun hp hin hflag hfit => ?_, fun hp hin hmiss hfit => ?_⟩
  · have hready : s.fr.chunkReady = false := by
      rw [Bool.eq_false_iff, ne_eq, Framer.chunkReady_iff]
      omega
    exact (if_neg (not_not.mpr hp)).trans (if_pos hready)
  · rw [exec_dfHunt_of_inside hp hin, if_pos hmiss]
    exact commit_of_not_fits hfit _
  · rw [exec_dfHunt_of_inside hp hin, if_neg (not_not.mpr hflag)]
    exact commit_of_not_fits hfit _
  · rw [exec_dfSeek_of_inside hp hin, if_pos hmiss]
    exact commit_of_not_fits hfit _

end Sys2Proof.Machine
end

section
/-!
PROOFS. The invariant of the machine: every step keeps it, no step from it faults or lacks its precondition, and a busy unit has
a step to take (10_state.md sections 1, 5 and 6; 20_memory.md section 1; 70_reset_and_hazards.md section 4).
-/

namespace Sys2Proof.Machine

/-! ## Consistency, phase by phase -/

section Consistent

variable {f : Framer} {d : Deframer}

theorem Framer.consistent_of_run (hp : f.phase = .run) (hk : f.k < f.src.length) (hc : 1 ≤ f.chunkSize)
    (hcount : f.k = f.frameCount * f.chunkSize) : f.Consistent := by
  simp only [Framer.Consistent, hp]
  exact ⟨nofun, fun _ => ⟨hk, hc, hcount⟩, nofun, nofun⟩

theorem Framer.consistent_of_done (hp : f.phase = .done) (hcount : 1 ≤ f.frameCount) : f.Consistent := by
  simp only [Framer.Consistent, hp]
  exact ⟨nofun, nofun, fun _ => hcount, nofun⟩

theorem Framer.consistent_of_error (hp : f.phase = .error) (htx : f.tx = []) (hcount : f.frameCount = 0) (hk : f.k = 0) :
    f.Consistent := by
  simp only [Framer.Consistent, hp]
  exact ⟨nofun, nofun, nofun, fun _ => ⟨htx, hcount, hk⟩⟩

/-- While the framer is not busy, its phase says nothing of the source and the chunk size. -/
theorem Framer.Consistent.load (h : f.Consistent) (hb : f.busy = false) (bits : BitSeq) (c : Nat) :
    ({ f with src := bits, chunkSize := c } : Framer).Consistent := by
  obtain ⟨hidle, -, hdone, herror⟩ := h
  exact ⟨hidle, fun hp => absurd hp (Framer.not_busy_iff.mp hb), hdone, herror⟩

theorem Deframer.consistent_of_stopped (hp : d.phase = .done ∨ d.phase = .aborted) : d.Consistent := by
  rcases hp with hp | hp <;> simp [Deframer.Consistent, hp]

theorem Deframer.consistent_of_hunt (hp : d.phase = .hunt) (hi : d.i ≤ d.rx.length) : d.Consistent := by
  simpa [Deframer.Consistent, hp] using hi

theorem Deframer.consistent_of_seek (hp : d.phase = .seek) (hflag : slice d.rx d.i (d.i + 8) = Config.flag)
    (hstart : d.start = d.i + 8) (hle : d.start ≤ d.j) (hj : d.j ≤ d.rx.length) : d.Consistent := by
  simp only [Deframer.Consistent, hp]
  exact ⟨nofun, nofun, fun _ => ⟨hflag, hstart, hle, hj⟩, nofun⟩

theorem Deframer.consistent_of_check (hp : d.phase = .check) (hflag : slice d.rx d.i (d.i + 8) = Config.flag)
    (hstart : d.start = d.i + 8) (hle : d.start ≤ d.j) (hj : d.j + 8 ≤ d.rx.length)
    (hclosing : slice d.rx d.j (d.j + 8) = Config.flag) : d.Consistent := by
  simp only [Deframer.Consistent, hp]
  exact ⟨nofun, nofun, nofun, fun _ => ⟨hflag, hstart, hle, hj, hclosing⟩⟩

/-- While the deframer is not busy, its phase says nothing of the input. -/
theorem Deframer.Consistent.load (h : d.Consistent) (hb : d.busy = false) (bits : BitSeq) :
    ({ d with rx := bits } : Deframer).Consistent := by
  obtain ⟨hidle, -⟩ := h
  have hp := Deframer.not_busy_iff.mp hb
  refine ⟨hidle, ?_, ?_, ?_⟩ <;> intro hbusy <;> simp [show d.phase = _ from hbusy] at hp

end Consistent

/-! ## The invariant, unit by unit -/

/-- The framer's part of the invariant. -/
def State.FramerInv (s : State) : Prop := s.fr.fits s.params = true ∧ s.fr.Consistent

/-- The deframer's part of the invariant. -/
def State.DeframerInv (s : State) : Prop := s.df.fits s.params = true ∧ s.df.Consistent

theorem State.inv_iff {s : State} :
    s.Inv ↔ s.params.legal = true ∧ s.st.fits s.params = true ∧ s.ds.fits s.params = true ∧
      s.FramerInv ∧ s.DeframerInv := by
  simp only [State.Inv, memory_wf_iff, State.FramerInv, State.DeframerInv]
  tauto

/-- The reset values of the units meet the invariant with any legal parameters: the one value that takes room is the chunk size
of 80 (R43). -/
theorem reset_inv {p : Config.Params} (hlegal : p.legal = true) (host : HostPort) :
    ({ State.reset with params := p, host := host } : State).Inv := by
  have hempty (cap : Option Nat) : holds p cap [] = true := holds_nil p cap
  have hfr : Framer.reset.fits p = true :=
    Framer.fits_iff.mpr ⟨hempty _, hempty _, hlegal, inWidth_zero _, inWidth_zero _⟩
  have hdf : Deframer.reset.fits p = true :=
    Deframer.fits_iff.mpr ⟨hempty _, hempty _, inWidth_zero _, inWidth_zero _, inWidth_zero _, inWidth_zero _,
      inWidth_zero _⟩
  exact State.inv_iff.mpr ⟨hlegal, hempty _, hempty _, ⟨hfr, fun _ => ⟨rfl, rfl, rfl⟩, nofun, nofun, nofun⟩,
    hdf, fun _ => ⟨rfl, rfl, rfl⟩, nofun, nofun, nofun⟩

/-- Settles O55. -/
theorem resetMeetsTheInvariant : Obligations.ResetMeetsTheInvariant := reset_inv (p := Config.unbounded) rfl _

section FramerInv

variable {s t : State}

theorem loadSrc_keeps_framerInv {bits : BitSeq} (hs : s.FramerInv) (h : loadSrc bits s = .next t) : t.FramerInv := by
  obtain ⟨hb, hfit, rfl⟩ := loadSrc_eq_next.mp h
  exact ⟨hfit, hs.2.load hb bits s.fr.chunkSize⟩

theorem loadChunkSize_keeps_framerInv {n : Nat} (hs : s.FramerInv) (h : loadChunkSize n s = .next t) : t.FramerInv := by
  obtain ⟨hb, hfit, rfl⟩ := loadChunkSize_eq_next.mp h
  exact ⟨hfit, hs.2.load hb s.fr.src n⟩

theorem execFrStart_keeps_framerInv (hs : s.FramerInv) (h : execFrStart s = .next t) : t.FramerInv := by
  obtain ⟨hp, ⟨-, rfl⟩ | ⟨hsrc, hc, rfl⟩⟩ := execFrStart_eq_next.mp h
  · exact ⟨Framer.fits_started hs.1, Framer.consistent_of_error rfl rfl rfl rfl⟩
  · exact ⟨Framer.fits_started hs.1,
      Framer.consistent_of_run rfl (List.length_pos_iff.mpr hsrc) (Nat.one_le_iff_ne_zero.mpr hc) (Nat.zero_mul _).symm⟩

theorem Framer.Consistent.nextFrame {f : Framer} (h : f.Consistent) (hp : f.phase = .run) : f.nextFrame.Consistent := by
  obtain ⟨-, hrun, -, -⟩ := h
  obtain ⟨-, hc, hcount⟩ := hrun hp
  have hphase : f.nextFrame.phase = if f.src.length ≤ f.k + f.chunkSize then .done else .run := rfl
  split at hphase
  · exact Framer.consistent_of_done hphase (Nat.le_add_left ..)
  · next hleft =>
    refine Framer.consistent_of_run hphase (Nat.not_le.mp hleft) hc ?_
    change f.k + f.chunkSize = (f.frameCount + 1) * f.chunkSize
    rw [Nat.succ_mul, ← hcount]

theorem execFrFrame_keeps_framerInv (hs : s.FramerInv) (h : execFrFrame s = .next t) : t.FramerInv := by
  obtain ⟨hp, -, hfit, rfl⟩ := execFrFrame_eq_next.mp h
  exact ⟨hfit, hs.2.nextFrame hp⟩

theorem exec_framer_keeps_framerInv {i : Instr} (hi : unitOf i = .framer) (hs : s.FramerInv) (h : exec i s = .next t) :
    t.FramerInv := by
  cases i with
  | frStart => exact execFrStart_keeps_framerInv hs h
  | frFrame => exact execFrFrame_keeps_framerInv hs h
  | encode bits c =>
    rw [exec_encode_expansion] at h
    obtain ⟨u, hu, hrun⟩ := andThen_eq_next.mp h
    obtain ⟨v, hv, hstart⟩ := andThen_eq_next.mp hu
    obtain ⟨w, hsrc, hsize⟩ := andThen_eq_next.mp hv
    have hloaded := loadChunkSize_keeps_framerInv (loadSrc_keeps_framerInv hs hsrc) hsize
    exact runFramer_keeps (fun _ _ => execFrFrame_keeps_framerInv) (execFrStart_keeps_framerInv hloaded hstart) hrun
  | _ => cases hi

end FramerInv

section DeframerInv

variable {s t : State}

theorem loadRx_keeps_deframerInv {bits : BitSeq} (hs : s.DeframerInv) (h : loadRx bits s = .next t) : t.DeframerInv := by
  obtain ⟨hb, hfit, rfl⟩ := loadRx_eq_next.mp h
  exact ⟨hfit, hs.2.load hb bits⟩

theorem execDfStart_keeps_deframerInv (hs : s.DeframerInv) (h : execDfStart s = .next t) : t.DeframerInv := by
  obtain ⟨-, rfl⟩ := execDfStart_eq_next.mp h
  exact ⟨Deframer.fits_started hs.1, Deframer.consistent_of_hunt rfl (Nat.zero_le _)⟩

theorem execDfHunt_keeps_deframerInv (hs : s.DeframerInv) (h : execDfHunt s = .next t) : t.DeframerInv := by
  obtain ⟨hp, ⟨-, rfl⟩ | ⟨hin, -, hfit, rfl⟩ | ⟨hin, hflag, hfit, rfl⟩⟩ := execDfHunt_eq_next.mp h
  · exact ⟨hs.1, Deframer.consistent_of_stopped (.inl rfl)⟩
  · exact ⟨hfit, Deframer.consistent_of_hunt hp (by simp only; omega)⟩
  · exact ⟨hfit, Deframer.consistent_of_seek rfl hflag rfl le_rfl hin⟩

theorem execDfSeek_keeps_deframerInv (hs : s.DeframerInv) (h : execDfSeek s = .next t) : t.DeframerInv := by
  obtain ⟨hfit, -, -, hseek, -⟩ := hs
  obtain ⟨hp, hcase⟩ := execDfSeek_eq_next.mp h
  obtain ⟨hopening, hstart, hle, -⟩ := hseek hp
  obtain ⟨-, rfl⟩ | ⟨hin, -, hfit', rfl⟩ | ⟨hin, hflag, rfl⟩ := hcase
  · exact ⟨hfit, Deframer.consistent_of_stopped (.inl rfl)⟩
  · exact ⟨hfit', Deframer.consistent_of_seek hp hopening hstart (Nat.le_succ_of_le hle) (by simp only; omega)⟩
  · exact ⟨hfit, Deframer.consistent_of_check rfl hopening hstart hle hin hflag⟩

theorem execDfCheck_keeps_deframerInv (hs : s.DeframerInv) (h : execDfCheck s = .next t) : t.DeframerInv := by
  obtain ⟨hfit, -, -, -, hcheck⟩ := hs
  obtain ⟨hp, raw, -, ⟨-, rfl⟩ | ⟨-, hfit', rfl⟩⟩ := execDfCheck_eq_next.mp h
  · exact ⟨hfit, Deframer.consistent_of_stopped (.inr rfl)⟩
  · obtain ⟨-, -, -, hj, -⟩ := hcheck hp
    refine ⟨by rwa [verifyPayload_params], ?_⟩
    rw [verifyPayload_df]
    split <;> exact Deframer.consistent_of_hunt rfl hj

theorem execDfSelected_keeps_deframerInv (hs : s.DeframerInv) (h : execDfSelected s = .next t) : t.DeframerInv := by
  obtain h | h | h | rfl := execDfSelected_eq_next h
  · exact execDfHunt_keeps_deframerInv hs h
  · exact execDfSeek_keeps_deframerInv hs h
  · exact execDfCheck_keeps_deframerInv hs h
  · exact hs

theorem exec_deframer_keeps_deframerInv {i : Instr} (hi : unitOf i = .deframer) (hs : s.DeframerInv)
    (h : exec i s = .next t) : t.DeframerInv := by
  cases i with
  | dfStart => exact execDfStart_keeps_deframerInv hs h
  | dfHunt => exact execDfHunt_keeps_deframerInv hs h
  | dfSeek => exact execDfSeek_keeps_deframerInv hs h
  | dfCheck => exact execDfCheck_keeps_deframerInv hs h
  | decode bits =>
    rw [exec_decode_expansion] at h
    obtain ⟨u, hu, hrun⟩ := andThen_eq_next.mp h
    obtain ⟨v, hv, hstart⟩ := andThen_eq_next.mp hu
    have hstarted := execDfStart_keeps_deframerInv (loadRx_keeps_deframerInv hs hv) hstart
    exact runDeframer_keeps (fun _ _ => execDfSelected_keeps_deframerInv) hstarted hrun
  | flag | frame | checksumField | stuffedZero => exact loadRx_keeps_deframerInv hs h
  | _ => cases hi

end DeframerInv

theorem exec_stuffer_fits {i : Instr} {s t : State} (hi : unitOf i = .stuffer) (h : exec i s = .next t) :
    t.st.fits s.params = true := by
  cases i with
  | stuffRst =>
    obtain rfl := next_inj.mp ((exec_stuffRst s).symm.trans h)
    exact holds_nil ..
  | stuffBit b =>
    obtain ⟨hfit, rfl⟩ := exec_stuffBit_eq_next.mp h
    exact hfit
  | stuff bits =>
    obtain ⟨hwidth, rfl⟩ := exec_stuff_eq_next.mp h
    exact hwidth
  | _ => cases hi

theorem exec_destuffer_fits {i : Instr} {s t : State} (hi : unitOf i = .destuffer) (hs : s.ds.fits s.params = true)
    (h : exec i s = .next t) : t.ds.fits s.params = true := by
  cases i with
  | destuffRst =>
    obtain rfl := next_inj.mp ((exec_destuffRst s).symm.trans h)
    exact holds_nil ..
  | destuffEnd =>
    obtain rfl := next_inj.mp ((exec_destuffEnd s).symm.trans h)
    exact hs
  | destuffBit b =>
    obtain ⟨hfit, rfl⟩ := exec_destuffBit_eq_next.mp h
    exact hfit
  | destuff bits =>
    obtain ⟨hwidth, rfl⟩ := exec_destuff_eq_next.mp h
    exact hwidth
  | _ => cases hi

/-! ## Every step keeps the invariant -/

theorem exec_keeps_inv {i : Instr} {s t : State} (hs : s.Inv) (h : exec i s = .next t) : t.Inv := by
  obtain ⟨hlegal, hst, hds, hfr, hdf⟩ := State.inv_iff.mp hs
  cases hi : unitOf i with
  | crc =>
    rw [exec_crc_frame hi h]
    exact State.inv_iff.mpr ⟨hlegal, hst, hds, hfr, hdf⟩
  | stuffer =>
    have hfit := exec_stuffer_fits hi h
    rw [exec_stuffer_frame hi h]
    exact State.inv_iff.mpr ⟨hlegal, hfit, hds, hfr, hdf⟩
  | destuffer =>
    have hfit := exec_destuffer_fits hi hds h
    rw [exec_destuffer_frame hi h]
    exact State.inv_iff.mpr ⟨hlegal, hst, hfit, hfr, hdf⟩
  | framer =>
    have hinv := exec_framer_keeps_framerInv hi hfr h
    rw [exec_framer_frame hi h] at hinv ⊢
    exact State.inv_iff.mpr ⟨hlegal, hst, hds, hinv, hdf⟩
  | deframer =>
    have hinv := exec_deframer_keeps_deframerInv hi hdf h
    rw [exec_deframer_frame hi h] at hinv ⊢
    exact State.inv_iff.mpr ⟨hlegal, hst, hds, hfr, hinv⟩
  | all =>
    cases i with
    | rst =>
      obtain rfl := next_inj.mp ((exec_rst s).symm.trans h)
      exact reset_inv hlegal s.host
    | _ => cases hi

/-- Settles O56: whatever a step does after taking events off the list keeps the invariant. -/
theorem stepKeepsTheInvariant : Obligations.StepKeepsTheInvariant := by
  intro s t hs h
  obtain ⟨events, hdone⟩ := step_eq_next h
  have hevents : (s.withEvents events).Inv := hs
  obtain ⟨hlegal, hst, hds, hfr, hdf⟩ := State.inv_iff.mp hevents
  obtain ⟨i, h⟩ | ⟨bits, h⟩ | ⟨n, h⟩ | ⟨bits, h⟩ | rfl := hdone
  · exact exec_keeps_inv hevents h
  · have hinv := loadSrc_keeps_framerInv hfr h
    obtain ⟨-, -, rfl⟩ := loadSrc_eq_next.mp h
    exact State.inv_iff.mpr ⟨hlegal, hst, hds, hinv, hdf⟩
  · have hinv := loadChunkSize_keeps_framerInv hfr h
    obtain ⟨-, -, rfl⟩ := loadChunkSize_eq_next.mp h
    exact State.inv_iff.mpr ⟨hlegal, hst, hds, hinv, hdf⟩
  · have hinv := loadRx_keeps_deframerInv hdf h
    obtain ⟨-, -, rfl⟩ := loadRx_eq_next.mp h
    exact State.inv_iff.mpr ⟨hlegal, hst, hds, hfr, hinv⟩
  · exact hevents

/-! ## Stops that no state of the invariant meets -/

/-- A read outside a container, a step out of its phase, or `FR.FRAME` without its precondition (log 7). -/
def Unreachable (bad : Result) : Prop :=
  (∃ e, bad = .fault e) ∨ bad = .refused .stepNotSelected ∨ bad = .refused .framePrecondition

/-- A composition stops where its first part does or, after that has answered, where its second part does. -/
theorem andThen_ne {r bad : Result} {f : State → Result} (hr : r ≠ bad) (hf : ∀ t, r = .next t → f t ≠ bad) :
    andThen r f ≠ bad := by
  cases r with
  | next t => exact hf t rfl
  | fault e => exact hr
  | refused e => exact hr

/-- The selected step of a deframer that meets the invariant leaves another deframer or commits it: in phases HUNT and SEEK the
steps test their range first, and in phase CHECK the invariant puts the payload inside `RX`. -/
theorem execDfSelected_writes_df {s : State} (hs : s.DeframerInv) :
    ∃ d, execDfSelected s = .next { s with df := d } ∨ execDfSelected s = commitDeframer { s with df := d } := by
  cases hb : s.df.busy with
  | false => exact ⟨s.df, .inl (execDfSelected_of_not_busy hb)⟩
  | true =>
    rcases Deframer.busy_iff.mp hb with hp | hp | hp
    · rw [execDfSelected_of_hunt hp]
      rcases Nat.lt_or_ge s.df.rx.length (s.df.i + 8) with hend | hin
      · exact ⟨_, .inl (exec_dfHunt_of_end hp hend)⟩
      · rw [exec_dfHunt_of_inside hp hin]
        split <;> exact ⟨_, .inr rfl⟩
    · rw [execDfSelected_of_seek hp]
      rcases Nat.lt_or_ge s.df.rx.length (s.df.j + 8) with hend | hin
      · exact ⟨_, .inl (exec_dfSeek_of_end hp hend)⟩
      · rw [exec_dfSeek_of_inside hp hin]
        split
        · exact ⟨_, .inr rfl⟩
        · exact ⟨_, .inl rfl⟩
    · rw [execDfSelected_of_check hp]
      obtain ⟨-, -, -, -, hcheck⟩ := hs
      obtain ⟨-, -, hstart, hj, -⟩ := hcheck hp
      have hj' : s.df.j ≤ s.df.rx.length := by omega
      rcases Nat.lt_or_ge s.df.destuffed.length 16 with hshort | hlong
      · exact ⟨_, .inl (exec_dfCheck_of_short hp hstart hj' hshort)⟩
      · exact ⟨_, .inr (exec_dfCheck_of_long_commit hp hstart hj' hlong)⟩

section Runs

variable {bad : Result} {P : State → Prop} (hnext : ∀ t, .next t ≠ bad)
include hnext

theorem feed_ne {f : Bit → State → Result} (hf : ∀ b s, P s → f b s ≠ bad)
    (hkeep : ∀ b s t, P s → f b s = .next t → P t)
    {bits : BitSeq} {s : State} (hs : P s) : feed f bits s ≠ bad := by
  induction bits generalizing s with
  | nil => exact hnext s
  | cons b bits ih => exact andThen_ne (hf b s hs) fun t ht => ih (hkeep b s t hs ht)

theorem runFramer_ne (hf : ∀ s, P s → s.fr.busy = true → execFrFrame s ≠ bad)
    (hkeep : ∀ s t, P s → execFrFrame s = .next t → P t) {turns : Nat} {s : State} (hs : P s) :
    runFramer turns s ≠ bad := by
  induction turns generalizing s with
  | zero => exact hnext s
  | succ n ih =>
    unfold runFramer
    split
    · next hb => exact andThen_ne (hf s hs hb) fun t ht => ih (hkeep s t hs ht)
    · exact hnext s

theorem runDeframer_ne (hf : ∀ s, P s → execDfSelected s ≠ bad)
    (hkeep : ∀ s t, P s → execDfSelected s = .next t → P t)
    {turns : Nat} {s : State} (hs : P s) : runDeframer turns s ≠ bad := by
  induction turns generalizing s with
  | zero => exact hnext s
  | succ n ih =>
    unfold runDeframer
    split
    · exact andThen_ne (hf s hs) fun t ht => ih (hkeep s t hs ht)
    · exact hnext s

end Runs

namespace Unreachable

variable {bad : Result} (hbad : Unreachable bad) {s : State}
include hbad

theorem next_ne (t : State) : .next t ≠ bad := by
  rcases hbad with ⟨e, rfl⟩ | rfl | rfl <;> nofun

theorem refused_ne {e : Refusal} (h : e ≠ .stepNotSelected) (h' : e ≠ .framePrecondition) : .refused e ≠ bad := by
  rcases hbad with ⟨e, rfl⟩ | rfl | rfl
  · nofun
  · exact fun he => h (by cases he; rfl)
  · exact fun he => h' (by cases he; rfl)

theorem commit_ne {ok : Bool} {t : State} : commit ok t ≠ bad := by
  cases ok
  · exact hbad.refused_ne (by decide) (by decide)
  · exact hbad.next_ne t

theorem loadSrc_ne (bits : BitSeq) : loadSrc bits s ≠ bad := by
  unfold loadSrc
  split
  · exact hbad.refused_ne (by decide) (by decide)
  · exact hbad.commit_ne

theorem loadChunkSize_ne (n : Nat) : loadChunkSize n s ≠ bad := by
  unfold loadChunkSize
  split
  · exact hbad.refused_ne (by decide) (by decide)
  · exact hbad.commit_ne

theorem loadRx_ne (bits : BitSeq) : loadRx bits s ≠ bad := by
  unfold loadRx
  split
  · exact hbad.refused_ne (by decide) (by decide)
  · exact hbad.commit_ne

theorem execFrStart_ne : execFrStart s ≠ bad := by
  unfold execFrStart
  split_ifs
  · exact hbad.refused_ne (by decide) (by decide)
  · exact hbad.next_ne _
  · exact hbad.refused_ne (by decide) (by decide)
  · exact hbad.next_ne _

theorem execDfStart_ne : execDfStart s ≠ bad := by
  unfold execDfStart
  split
  · exact hbad.refused_ne (by decide) (by decide)
  · exact hbad.next_ne _

/-- In phase RUN the invariant is R174's precondition. -/
theorem execFrFrame_ne (hs : s.FramerInv) (hb : s.fr.busy = true) : execFrFrame s ≠ bad := by
  obtain ⟨-, -, hrun, -⟩ := hs
  have hp := Framer.busy_iff.mp hb
  obtain ⟨hk, hc, -⟩ := hrun hp
  have hcommit : execFrFrame s = _ := exec_frFrame_of_ready hp (Framer.chunkReady_iff.mpr ⟨hk, hc⟩)
  rw [hcommit]
  exact hbad.commit_ne

theorem execDfSelected_ne (hs : s.DeframerInv) : execDfSelected s ≠ bad := by
  obtain ⟨d, h | h⟩ := execDfSelected_writes_df hs
  · exact h ▸ hbad.next_ne _
  · exact h ▸ hbad.commit_ne

/-- No command, call or wire item meets one of these stops: the steps a call takes are the ones the phase selects. -/
theorem exec_ne {i : Instr} (hi : i.format ≠ .s) (hfr : s.FramerInv) (hdf : s.DeframerInv) : exec i s ≠ bad := by
  have hstuff (bits : BitSeq) (u : State) : feed execStuffBit bits u ≠ bad :=
    feed_ne (P := fun _ => True) hbad.next_ne (fun _ _ _ => hbad.commit_ne) (fun _ _ _ _ _ => trivial) trivial
  have hdestuff (bits : BitSeq) (u : State) : feed execDestuffBit bits u ≠ bad :=
    feed_ne (P := fun _ => True) hbad.next_ne (fun _ _ _ => hbad.commit_ne) (fun _ _ _ _ _ => trivial) trivial
  cases i with
  | crcInit | crcShift | crcFlush | crcRead | stuffRst | destuffRst | destuffEnd | rst => exact hbad.next_ne _
  | crc16 bits => exact exec_crc16 bits s ▸ hbad.next_ne _
  | stuffBit b => exact hbad.commit_ne
  | destuffBit b => exact hbad.commit_ne
  | stuff bits => exact hstuff bits _
  | destuff bits => exact andThen_ne (hdestuff bits _) fun t _ => hbad.next_ne _
  | frStart => exact hbad.execFrStart_ne
  | dfStart => exact hbad.execDfStart_ne
  | flag | frame | checksumField | stuffedZero => exact hbad.loadRx_ne _
  | encode bits c =>
    rw [exec_encode_expansion]
    refine andThen_ne (andThen_ne (andThen_ne (hbad.loadSrc_ne bits)
      fun _ _ => hbad.loadChunkSize_ne c) fun _ _ => hbad.execFrStart_ne) fun t ht => ?_
    obtain ⟨u, hu, hstart⟩ := andThen_eq_next.mp ht
    obtain ⟨v, hv, hsize⟩ := andThen_eq_next.mp hu
    have hloaded := loadChunkSize_keeps_framerInv (loadSrc_keeps_framerInv hfr hv) hsize
    exact runFramer_ne hbad.next_ne (fun _ => hbad.execFrFrame_ne) (fun _ _ => execFrFrame_keeps_framerInv)
      (execFrStart_keeps_framerInv hloaded hstart)
  | decode bits =>
    rw [exec_decode_expansion]
    refine andThen_ne (andThen_ne (hbad.loadRx_ne bits) fun _ _ => hbad.execDfStart_ne)
      fun t ht => ?_
    obtain ⟨u, hu, hstart⟩ := andThen_eq_next.mp ht
    exact runDeframer_ne hbad.next_ne (fun _ => hbad.execDfSelected_ne) (fun _ _ => execDfSelected_keeps_deframerInv)
      (execDfStart_keeps_deframerInv (loadRx_keeps_deframerInv hdf hu) hstart)
  | frFrame | dfHunt | dfSeek | dfCheck => exact absurd rfl hi

end Unreachable
end Sys2Proof.Machine

namespace Sys2Proof

/-- A command word that decodes names a command. -/
theorem format_of_decodeCommand {w : BitVec 6} {i : Instr} (h : decodeCommand w = .ok i) : i.format = .k := by
  unfold decodeCommand at h
  split at h <;> cases h <;> rfl

theorem format_of_decodeExpansionList {actions : List Action} {i : Instr} (h : decodeExpansionList actions = .ok i) :
    i.format = .p := by
  unfold decodeExpansionList at h
  split_ifs at h <;> cases h <;> rfl

theorem format_of_decodeWire {before bits : BitSeq} {i : Instr} (h : decodeWire before bits = .ok i) : i.format = .w := by
  unfold decodeWire at h
  split_ifs at h <;> cases h <;> rfl

end Sys2Proof

namespace Sys2Proof.Machine

section Unreachable

variable {bad : Result} (hbad : Unreachable bad) {s : State} (hfr : s.FramerInv) (hdf : s.DeframerInv)
include hbad hfr hdf

theorem perform_fetchDecoded_ne {e : Encoding} (he : ∀ i, decodeInstr e = .ok i → i.format ≠ .s) :
    (fetchDecoded e s).perform ≠ bad := by
  unfold fetchDecoded
  cases hd : decodeInstr e with
  | ok i => exact hbad.exec_ne (he i hd) hfr hdf
  | error why => exact hbad.refused_ne nofun nofun

theorem perform_fetchStep_ne (u : Sequencer) : (fetchStep u s).perform ≠ bad := by
  cases u with
  | framer =>
    rw [perform_fetchStep_framer]
    split
    · next hb => exact hbad.execFrFrame_ne hfr hb
    · exact hbad.next_ne s
  | deframer =>
    rw [perform_fetchStep_deframer]
    exact hbad.execDfSelected_ne hdf

end Unreachable

theorem Unreachable.step_ne {bad : Result} (hbad : Unreachable bad) {s : State} (hs : s.Inv) : step s ≠ bad := by
  obtain ⟨-, -, -, hfr, hdf⟩ := State.inv_iff.mp hs
  have hdecoded (rest : List Event) {e : Encoding} (he : ∀ i, decodeInstr e = .ok i → i.format ≠ .s) :
      (fetchDecoded e (s.withEvents rest)).perform ≠ bad := perform_fetchDecoded_ne (s := s.withEvents rest) hbad hfr hdf he
  have hstep (rest : List Event) (u : Sequencer) : (fetchStep u (s.withEvents rest)).perform ≠ bad :=
    perform_fetchStep_ne (s := s.withEvents rest) hbad hfr hdf u
  rw [step_eq_perform]
  unfold fetch
  split
  · next e rest _ =>
    cases e with
    | act a =>
      cases a with
      | word w => exact hdecoded rest fun i hi => by simp [format_of_decodeCommand hi]
      | loadSrc bits => exact hbad.loadSrc_ne bits
      | loadChunkSize n => exact hbad.loadChunkSize_ne n
      | loadRx bits => exact hbad.loadRx_ne bits
      | run u =>
        unfold fetchEvent fetchAction
        dsimp only
        split
        · exact hstep s.host.events u
        · exact hbad.next_ne _
    | turn u => exact hstep rest u
    | call actions => exact hdecoded rest fun i hi => by simp [format_of_decodeExpansionList hi]
    | wire bits => exact hdecoded rest fun i hi => by simp [format_of_decodeWire hi]
    | writeFrStatus v | writeDfStatus v => exact hbad.next_ne _
  · split <;> exact hstep s.host.events _

/-- Settles O57. -/
theorem invariantStatesNeverFault : Obligations.InvariantStatesNeverFault := fun _ hs =>
  ⟨fun e => Unreachable.step_ne (.inl ⟨e, rfl⟩) hs, Unreachable.step_ne (.inr (.inl rfl)) hs,
    Unreachable.step_ne (.inr (.inr rfl)) hs⟩

/-! ## Progress -/

@[simp] theorem Framer.fits_unbounded (f : Framer) : f.fits Config.unbounded = true := rfl

@[simp] theorem Deframer.fits_unbounded (d : Deframer) : d.fits Config.unbounded = true := rfl

theorem commitFramer_of_unbounded {t : State} (h : t.params = Config.unbounded) : commitFramer t = .next t :=
  commit_of_fits (by rw [h, Framer.fits_unbounded]) t

theorem commitDeframer_of_unbounded {t : State} (h : t.params = Config.unbounded) : commitDeframer t = .next t :=
  commit_of_fits (by rw [h, Deframer.fits_unbounded]) t

/-- Settles O58: the framer frames its next chunk, and the deframer's selected step leaves or commits another deframer. -/
theorem busyUnitsCanStep : Obligations.BusyUnitsCanStep := by
  intro s u rest hs hp hb
  obtain ⟨-, -, -, ⟨-, -, hrun, -⟩, hdf⟩ := State.inv_iff.mp hs
  cases u with
  | framer =>
    have hphase := Framer.busy_iff.mp hb
    obtain ⟨hk, hc, -⟩ := hrun hphase
    have hframe := exec_frFrame_of_ready (s := s.withEvents rest) hphase (Framer.chunkReady_iff.mpr ⟨hk, hc⟩)
    rw [step_turn_framer, if_pos (show s.fr.busy = true from hb), hframe]
    exact ⟨_, commitFramer_of_unbounded hp, rfl⟩
  | deframer =>
    rw [step_turn_deframer]
    obtain ⟨d, h | h⟩ := execDfSelected_writes_df (s := s.withEvents rest) hdf
    · exact ⟨_, h, rfl⟩
    · exact ⟨_, h.trans (commitDeframer_of_unbounded hp), rfl⟩

end Sys2Proof.Machine
end

section
/-!
PROOFS. The open widths and capacities: what does not fit is refused, a cursor inside `RX` always fits, and with unbounded
parameters nothing is refused for capacity (20_memory.md section 1; 92_eei_decisions.md D5, D6).
-/

namespace Sys2Proof.Machine

/-! ## Refusals -/

theorem stuffStep_emits_length (ones : Fin 5) (b : Bit) :
    (Codec.stuffStep ones b).1.length = if b = true ∧ ones = 4 then 2 else 1 := by
  cases b with
  | false => rfl
  | true =>
    by_cases h : ones.val + 1 = 5
    · obtain rfl : ones = 4 := by omega
      rfl
    · rw [Codec.stuffStep_one_of_not_fifth h, if_neg (by omega), List.length_singleton]

theorem destuffStep_emits_length (ones : Fin 6) (b : Bit) :
    (Codec.destuffStep ones b).1.length = if b = false ∧ ones = 5 then 0 else 1 := by
  by_cases h : ones = 5
  · cases b <;> simp [h]
  · cases b
    · simp [Codec.destuffStep_zero_of_not_pending h, h]
    · simp [Codec.destuffStep_one_of_not_pending h]

/-- A cursor inside `RX` is representable where the length of `RX` is. -/
theorem Deframer.inWidth_of_le_rx {p : Config.Params} {d : Deframer} (h : d.fits p = true) {n : Nat}
    (hn : n ≤ d.rx.length) : Config.inWidth p.idxW n = true := by
  obtain ⟨hrx, -⟩ := Deframer.fits_iff.mp h
  simp only [holds, Bool.and_eq_true] at hrx
  exact inWidth_mono hn hrx.2

/-- A commit is refused for capacity only where the check fails. -/
theorem commit_ne_capacity {ok : Bool} (h : ok = true) (t : State) : commit ok t ≠ .refused .capacityExceeded := by
  rw [commit_of_fits h]
  nofun

/-- Other cursors that are representable fit where the deframer fitted; the phase takes no room. -/
theorem Deframer.fits_move {p : Config.Params} {d : Deframer} (h : d.fits p = true) {i start j : Nat}
    (hi : Config.inWidth p.idxW i = true) (hstart : Config.inWidth p.idxW start = true)
    (hj : Config.inWidth p.idxW j = true) (phase : DfPhase) : ({ d with i, start, j, phase } : Deframer).fits p = true := by
  obtain ⟨hrx, hout, -, -, -, hcnt⟩ := Deframer.fits_iff.mp h
  exact Deframer.fits_iff.mpr ⟨hrx, hout, hi, hstart, hj, hcnt⟩

/-- A step that moves a cursor inside `RX` is not refused for capacity where everything fits. -/
theorem exec_dfHunt_ne_capacity {s : State} (hs : s.df.fits s.params = true) :
    exec .dfHunt s ≠ .refused .capacityExceeded := by
  by_cases hp : s.df.phase = .hunt
  · rcases Nat.lt_or_ge s.df.rx.length (s.df.i + 8) with hend | hin
    · rw [exec_dfHunt_of_end hp hend]
      nofun
    · obtain ⟨-, -, hi, hstart, hj, -⟩ := Deframer.fits_iff.mp hs
      have hnext : Config.inWidth s.params.idxW (s.df.i + 1) = true := Deframer.inWidth_of_le_rx hs (by omega)
      have hfound : Config.inWidth s.params.idxW (s.df.i + 8) = true := Deframer.inWidth_of_le_rx hs hin
      rw [exec_dfHunt_of_inside hp hin]
      split
      · exact commit_ne_capacity (Deframer.fits_move hs hnext hstart hj _) _
      · exact commit_ne_capacity (Deframer.fits_move hs hi hfound hfound _) _
  · rw [show exec .dfHunt s = .refused .stepNotSelected from if_pos hp]
    nofun

theorem exec_dfSeek_ne_capacity {s : State} (hs : s.df.fits s.params = true) :
    exec .dfSeek s ≠ .refused .capacityExceeded := by
  by_cases hp : s.df.phase = .seek
  · rcases Nat.lt_or_ge s.df.rx.length (s.df.j + 8) with hend | hin
    · rw [exec_dfSeek_of_end hp hend]
      nofun
    · obtain ⟨-, -, hi, hstart, -⟩ := Deframer.fits_iff.mp hs
      have hnext : Config.inWidth s.params.idxW (s.df.j + 1) = true := Deframer.inWidth_of_le_rx hs (by omega)
      rw [exec_dfSeek_of_inside hp hin]
      split
      · exact commit_ne_capacity (Deframer.fits_move hs hi hstart hnext _) _
      · nofun
  · rw [show exec .dfSeek s = .refused .stepNotSelected from if_pos hp]
    nofun

/-- The inner registers take no room, so a recorded frame fits as the rule's deframer does. -/
theorem Deframer.verified_fits (d : Deframer) (p : Config.Params) :
    d.verified.fits p =
      (if Codec.crc16 (payloadData d.destuffed) ≠ payloadCrc d.destuffed then
        { d with framesFailed := d.framesFailed + 1, i := d.j + 8, phase := .hunt }
      else
        { d with
          out := d.out ++ payloadData d.destuffed, framesOk := d.framesOk + 1, i := d.j + 8, phase := .hunt }).fits p := by
  unfold verified
  split <;> rfl

/-- Settles O59: the check that commits each primitive, and for the two steps that move a cursor the length of `RX`. -/
theorem capacityOverrunsAreRefused : Obligations.CapacityOverrunsAreRefused := by
  intro s
  refine ⟨fun b hwidth => ?_, fun b hwidth => ?_, ?_, ?_, fun hwf => ?_⟩
  · rw [← stuffStep_emits_length, ← List.length_append] at hwidth
    exact commit_of_not_fits hwidth _
  · rw [← destuffStep_emits_length, ← List.length_append] at hwidth
    exact commit_of_not_fits hwidth _
  · intro chunk stuffed f hp hk hc hfit
    rw [exec_frFrame_of_ready hp (Framer.chunkReady_iff.mpr ⟨hk, hc⟩)]
    exact commit_of_not_fits hfit _
  · intro p data receivedCrc d hp hstart hj hlong hfit
    rw [exec_dfCheck_of_long_commit hp hstart hj hlong]
    exact commit_of_not_fits ((s.df.verified_fits s.params).trans hfit) _
  · obtain ⟨-, -, -, hfit⟩ := memory_wf_iff.mp hwf
    exact ⟨exec_dfHunt_ne_capacity hfit, exec_dfSeek_ne_capacity hfit⟩

/-! ## Unbounded parameters -/

section Unbounded

variable {s : State} (hs : s.params = Config.unbounded)
include hs

theorem commitStuffer_unbounded_ne : commitStuffer s ≠ .refused .capacityExceeded :=
  commit_ne_capacity (by rw [hs]; rfl) s

theorem commitDestuffer_unbounded_ne : commitDestuffer s ≠ .refused .capacityExceeded :=
  commit_ne_capacity (by rw [hs]; rfl) s

theorem commitFramer_unbounded_ne : commitFramer s ≠ .refused .capacityExceeded :=
  commit_ne_capacity (by rw [hs]; rfl) s

theorem commitDeframer_unbounded_ne : commitDeframer s ≠ .refused .capacityExceeded :=
  commit_ne_capacity (by rw [hs]; rfl) s

theorem loadSrc_unbounded_ne (bits : BitSeq) : loadSrc bits s ≠ .refused .capacityExceeded := by
  unfold loadSrc
  split
  · nofun
  · exact commitFramer_unbounded_ne hs

theorem loadChunkSize_unbounded_ne (n : Nat) : loadChunkSize n s ≠ .refused .capacityExceeded := by
  unfold loadChunkSize
  split
  · nofun
  · exact commitFramer_unbounded_ne hs

theorem loadRx_unbounded_ne (bits : BitSeq) : loadRx bits s ≠ .refused .capacityExceeded := by
  unfold loadRx
  split
  · nofun
  · exact commitDeframer_unbounded_ne hs

theorem execFrFrame_unbounded_ne : execFrFrame s ≠ .refused .capacityExceeded := by
  unfold execFrFrame
  split_ifs
  · nofun
  · nofun
  · split
    · nofun
    · exact commitFramer_unbounded_ne hs

theorem execDfCheck_unbounded_ne : execDfCheck s ≠ .refused .capacityExceeded := by
  unfold execDfCheck
  split_ifs
  · nofun
  · split
    · nofun
    · dsimp only
      split_ifs
      · nofun
      · exact commitDeframer_unbounded_ne (by rwa [verifyPayload_params])

theorem execDfSelected_unbounded_ne : execDfSelected s ≠ .refused .capacityExceeded := by
  have hfit : s.df.fits s.params = true := hs ▸ s.df.fits_unbounded
  unfold execDfSelected
  split
  · exact exec_dfHunt_ne_capacity hfit
  · exact exec_dfSeek_ne_capacity hfit
  · exact execDfCheck_unbounded_ne hs
  all_goals nofun

end Unbounded

theorem execFrStart_ne_capacity (s : State) : execFrStart s ≠ .refused .capacityExceeded := by
  unfold execFrStart
  split_ifs <;> nofun

theorem execDfStart_ne_capacity (s : State) : execDfStart s ≠ .refused .capacityExceeded := by
  unfold execDfStart
  split <;> nofun

/-- An operation leaves the parameters. -/
theorem exec_params {i : Instr} {s t : State} (h : exec i s = .next t) : t.params = s.params :=
  (operationsWriteTheirOwnUnit i s t h).1

/-- Settles O60: the parameters stay unbounded through the expansion of a call, and with them no check fails. -/
theorem unboundedNeverExceedsCapacity : Obligations.UnboundedNeverExceedsCapacity := by
  intro i s hs
  have hnext (t : State) : (.next t : Result) ≠ .refused .capacityExceeded := nofun
  cases i with
  | crcInit | crcShift | crcFlush | crcRead | stuffRst | destuffRst | destuffEnd | rst => exact hnext _
  | crc16 bits => exact exec_crc16 bits s ▸ hnext _
  | stuffBit b => exact commitStuffer_unbounded_ne hs
  | destuffBit b => exact commitDestuffer_unbounded_ne hs
  | stuff bits =>
    exact feed_ne (f := execStuffBit) (P := fun u => u.params = Config.unbounded) hnext
      (fun b u hu => commitStuffer_unbounded_ne hu)
      (fun b u v hu hv => (exec_params (i := .stuffBit b) hv).trans hu) hs
  | destuff bits =>
    exact andThen_ne (feed_ne (f := execDestuffBit) (P := fun u => u.params = Config.unbounded) hnext
      (fun b u hu => commitDestuffer_unbounded_ne hu)
      (fun b u v hu hv => (exec_params (i := .destuffBit b) hv).trans hu) hs) fun t _ => hnext _
  | frStart => exact execFrStart_ne_capacity s
  | dfStart => exact execDfStart_ne_capacity s
  | frFrame => exact execFrFrame_unbounded_ne hs
  | dfHunt => exact exec_dfHunt_ne_capacity (hs ▸ s.df.fits_unbounded)
  | dfSeek => exact exec_dfSeek_ne_capacity (hs ▸ s.df.fits_unbounded)
  | dfCheck => exact execDfCheck_unbounded_ne hs
  | flag | frame | checksumField | stuffedZero => exact loadRx_unbounded_ne hs _
  | encode bits c =>
    have hloaded {u : State} (hu : loadSrc bits s = .next u) : u.params = Config.unbounded := by
      obtain ⟨-, -, rfl⟩ := loadSrc_eq_next.mp hu
      exact hs
    rw [exec_encode_expansion]
    refine andThen_ne (andThen_ne (andThen_ne (loadSrc_unbounded_ne hs bits)
      fun _ hu => loadChunkSize_unbounded_ne (hloaded hu) c) fun _ _ => execFrStart_ne_capacity _) fun t ht => ?_
    obtain ⟨u, hu, hstart⟩ := andThen_eq_next.mp ht
    obtain ⟨-, -, -, rfl⟩ := loadSrc_loadChunkSize_eq_next.mp hu
    exact runFramer_ne (P := fun u => u.params = Config.unbounded) hnext (fun u hu _ => execFrFrame_unbounded_ne hu)
      (fun u v hu hv => (exec_params (i := .frFrame) hv).trans hu) ((exec_params hstart).trans hs)
  | decode bits =>
    rw [exec_decode_expansion]
    refine andThen_ne (andThen_ne (loadRx_unbounded_ne hs bits) fun _ _ => execDfStart_ne_capacity _) fun t ht => ?_
    obtain ⟨u, hu, hstart⟩ := andThen_eq_next.mp ht
    obtain ⟨-, -, rfl⟩ := loadRx_eq_next.mp hu
    refine runDeframer_ne (P := fun u => u.params = Config.unbounded) hnext (fun u hu => execDfSelected_unbounded_ne hu)
      (fun u v hu hv => ?_) ((exec_params hstart).trans hs)
    obtain h | h | h | rfl := execDfSelected_eq_next hv
    · exact (exec_params (i := .dfHunt) h).trans hu
    · exact (exec_params (i := .dfSeek) h).trans hu
    · exact (exec_params (i := .dfCheck) h).trans hu
    · exact hu

end Sys2Proof.Machine
end

section
/-!
PROOFS. The expansion of a whole-sequence operation, issued action by action, comes to the same as the operation (30_encoding.md
section 6, R102; logs 5 and 9).
-/

namespace Sys2Proof.Machine

/-! ## Several steps -/

/-- A number of steps of the machine, behind the host's interface. -/
def runSteps (n : Nat) (s : State) : Result := Host.Core.run Sys2Proof.core n s

theorem runSteps_zero (s : State) : runSteps 0 s = .next s := rfl

section Core

variable {M : Host.Core} {s : M.State} (n : Nat)

theorem core_run_of_next {t : M.State} (h : M.step s = .next t) : M.run (n + 1) s = M.run n t := by
  simp only [Host.Core.run, h]

theorem core_run_of_fault {e : M.Fault} (h : M.step s = .fault e) : M.run (n + 1) s = .fault e := by
  simp only [Host.Core.run, h]

theorem core_run_of_refused {e : M.Refusal} (h : M.step s = .refused e) : M.run (n + 1) s = .refused e := by
  simp only [Host.Core.run, h]

end Core

theorem runSteps_succ (n : Nat) (s : State) : runSteps (n + 1) s = andThen (step s) (runSteps n) := by
  cases h : step s with
  | next t => exact core_run_of_next (M := Sys2Proof.core) n h
  | fault e => exact core_run_of_fault (M := Sys2Proof.core) n h
  | refused e => exact core_run_of_refused (M := Sys2Proof.core) n h

theorem runSteps_one (s : State) : runSteps 1 s = step s := by
  rw [runSteps_succ]
  cases step s <;> rfl

theorem runSteps_add (m n : Nat) (s : State) : runSteps (m + n) s = andThen (runSteps m s) (runSteps n) := by
  induction m generalizing s with
  | zero => rw [Nat.zero_add, runSteps_zero, andThen_next]
  | succ m ih =>
    rw [Nat.succ_add, runSteps_succ, runSteps_succ, andThen_assoc]
    exact congrArg _ (funext ih)

/-! ## Actions that come to an operation -/

/-- From every state with the property `P`, the actions, issued one step at a time, come to the operation, whatever events
follow them. -/
def Realises (P : State → Prop) (actions : List Action) (op : State → Result) : Prop :=
  ∀ s rest, P s → ∃ n, runSteps n (s.withEvents (actions.map Event.act ++ rest)) = op (s.withEvents rest)

/-- An operation that depends on no event pending. -/
def IgnoresEvents (op : State → Result) : Prop := ∀ events, Ignores (·.withEvents events) op

theorem IgnoresEvents.andThen {op op' : State → Result} (h : IgnoresEvents op) (h' : IgnoresEvents op') :
    IgnoresEvents fun s => andThen (op s) op' := fun events => (h events).andThen (h' events)

theorem IgnoresEvents.feed {op : Bit → State → Result} (h : ∀ b, IgnoresEvents (op b)) (bits : BitSeq) :
    IgnoresEvents (feed op bits) := fun events => .feed (fun b => h b events) bits

theorem withEvents_spares_fr (events : List Event) : Spares (·.withEvents events) State.fr State.setFr :=
  ⟨fun _ => rfl, fun _ => rfl, fun _ _ => rfl⟩

theorem withEvents_spares_df (events : List Event) : Spares (·.withEvents events) State.df State.setDf :=
  ⟨fun _ => rfl, fun _ => rfl, fun _ _ => rfl⟩

theorem exec_ignoresEvents (i : Instr) (hi : unitOf i ≠ .all) : IgnoresEvents (exec i) := by
  intro events
  cases hu : unitOf i with
  | crc => exact exec_crc_ignores ⟨fun _ => rfl, fun _ => rfl, fun _ _ => rfl⟩ (fun _ _ => rfl) hu
  | stuffer => exact exec_stuffer_ignores ⟨fun _ => rfl, fun _ => rfl, fun _ _ => rfl⟩ hu
  | destuffer => exact exec_destuffer_ignores ⟨fun _ => rfl, fun _ => rfl, fun _ _ => rfl⟩ hu
  | framer => exact exec_framer_ignores (withEvents_spares_fr events) hu
  | deframer => exact exec_deframer_ignores (withEvents_spares_df events) hu
  | all => exact absurd hu hi

theorem loadSrc_ignoresEvents (bits : BitSeq) : IgnoresEvents (loadSrc bits) := fun events =>
  loadSrc_ignores (withEvents_spares_fr events) bits

theorem loadChunkSize_ignoresEvents (n : Nat) : IgnoresEvents (loadChunkSize n) := fun events =>
  loadChunkSize_ignores (withEvents_spares_fr events) n

theorem loadRx_ignoresEvents (bits : BitSeq) : IgnoresEvents (loadRx bits) := fun events =>
  loadRx_ignores (withEvents_spares_df events) bits

section Realises

variable {P Q : State → Prop} {as bs : List Action} {op op' : State → Result}

/-- Actions one after the other come to the operations one after the other. -/
theorem Realises.append (h : Realises P as op) (hop : IgnoresEvents op) (hQ : ∀ s t, P s → op s = .next t → Q t)
    (h' : Realises Q bs op') : Realises P (as ++ bs) fun s => andThen (op s) op' := by
  intro s rest hs
  obtain ⟨m, hm⟩ := h s (bs.map Event.act ++ rest) hs
  rw [hop] at hm
  simp only [List.map_append, List.append_assoc, hop rest s]
  cases hr : op s with
  | next t =>
    obtain ⟨n, hn⟩ := h' t rest (hQ s t hs hr)
    refine ⟨m + n, ?_⟩
    rw [runSteps_add, hm, hr]
    exact hn
  | fault e => exact ⟨m, hm.trans (by rw [hr]; rfl)⟩
  | refused e => exact ⟨m, hm.trans (by rw [hr]; rfl)⟩

/-- The same, for what is realised from every state. -/
theorem Realises.andThen (h : Realises (fun _ => True) as op) (hop : IgnoresEvents op)
    (h' : Realises (fun _ => True) bs op') : Realises (fun _ => True) (as ++ bs) fun s => andThen (op s) op' :=
  h.append hop (fun _ _ _ _ => trivial) h'

/-- An action that takes one step. -/
theorem realises_of_step {a : Action}
    (h : ∀ (s : State) rest, step (s.withEvents (.act a :: rest)) = op (s.withEvents rest)) :
    Realises P [a] op := fun s rest _ => ⟨1, (runSteps_one _).trans (h s rest)⟩

theorem realises_word {w : BitVec 6} {i : Instr} (h : decodeInstr (.command w) = .ok i) : Realises P [.word w] (exec i) :=
  realises_of_step fun s rest => (stepRunsTheDecodedInstruction i s rest).1 w h

/-- One command word per bit comes to feeding the bits. -/
theorem realises_feed {word : Bit → BitVec 6} {instr : Bit → Instr}
    (h : ∀ b, decodeInstr (.command (word b)) = .ok (instr b))
    (hop : ∀ b, IgnoresEvents (exec (instr b))) (bits : BitSeq) :
    Realises P (bits.map fun b => .word (word b)) (feed (fun b => exec (instr b)) bits) := by
  induction bits generalizing P with
  | nil => exact fun s rest _ => ⟨0, rfl⟩
  | cons b bits ih =>
    exact (realises_word (h b)).append (Q := fun _ => True) (hop b) (fun _ _ _ _ => trivial) ih

end Realises

/-! ## Waiting for a busy unit -/

/-- The step a unit takes by itself. -/
def unitStep (u : Sequencer) (s : State) : Result := (fetchStep u s).perform

/-- The steps of a unit while it is busy, at most `turns` of them. -/
def runUnit (u : Sequencer) (turns : Nat) : State → Result :=
  match u with
  | .framer => runFramer turns
  | .deframer => runDeframer turns

theorem runUnit_of_not_busy {u : Sequencer} {s : State} (hb : s.busy u = false) (turns : Nat) :
    runUnit u turns s = .next s := by
  cases u with
  | framer =>
    cases turns with
    | zero => rfl
    | succ n => exact runFramer_succ_of_not_busy (by simp [show s.fr.busy = false from hb]) n
  | deframer => exact runDeframer_of_not_busy hb turns

theorem runUnit_succ_of_busy {u : Sequencer} {s : State} (hb : s.busy u = true) (turns : Nat) :
    runUnit u (turns + 1) s = andThen (unitStep u s) (runUnit u turns) := by
  cases u with
  | framer =>
    rw [unitStep, perform_fetchStep_framer, if_pos (show s.fr.busy = true from hb)]
    exact runFramer_succ_of_busy hb turns
  | deframer =>
    rw [unitStep, perform_fetchStep_deframer]
    exact runDeframer_succ_of_busy hb turns

theorem unitStep_ignoresEvents (u : Sequencer) : IgnoresEvents (unitStep u) := by
  intro events s
  cases u with
  | framer =>
    simp only [unitStep, perform_fetchStep_framer]
    by_cases hb : s.fr.busy = true
    · rw [if_pos (show (s.withEvents events).fr.busy = true from hb), if_pos hb]
      exact exec_framer_ignores (i := .frFrame) (withEvents_spares_fr events) rfl s
    · rw [if_neg (show ¬ (s.withEvents events).fr.busy = true from hb), if_neg hb]
      rfl
  | deframer =>
    simp only [unitStep, perform_fetchStep_deframer]
    exact execDfSelected_ignores (withEvents_spares_df events) s

theorem step_run (u : Sequencer) (s : State) (rest : List Event) :
    step (s.withEvents (.act (.run u) :: rest)) =
      if s.busy u then unitStep u (s.withEvents (.act (.run u) :: rest)) else .next (s.withEvents rest) := by
  have hbusy : (s.withEvents (.act (.run u) :: rest)).busy u = s.busy u := by cases u <;> rfl
  rw [step_cons, fetchEvent, fetchAction, hbusy]
  split <;> rfl

/-- Waiting for a unit comes to its run where the run, if it answers, ends with the unit not busy. -/
theorem realises_run (u : Sequencer) (turns : Nat) :
    Realises (fun s => ∀ t, runUnit u turns s = .next t → t.busy u = false) [.run u] (runUnit u turns) := by
  intro s rest hend
  have hevents (s : State) (events : List Event) : (s.withEvents events).busy u = s.busy u := by cases u <;> rfl
  have hidle {s : State} (hb : s.busy u = false) (turns : Nat) :
      runSteps 1 (s.withEvents (.act (.run u) :: rest)) = runUnit u turns (s.withEvents rest) := by
    rw [runSteps_one, step_run, runUnit_of_not_busy ((hevents ..).trans hb)]
    exact if_neg (by simp [hb])
  induction turns generalizing s with
  | zero => exact ⟨1, hidle (hend s (by cases u <;> rfl)) 0⟩
  | succ n ih =>
    cases hb : s.busy u with
    | false => exact ⟨1, hidle hb _⟩
    | true =>
      have hfirst : step (s.withEvents (.act (.run u) :: rest)) =
          mapNext (·.withEvents (.act (.run u) :: rest)) (unitStep u s) := by
        rw [step_run, if_pos hb, unitStep_ignoresEvents u _ s]
      rw [runUnit_succ_of_busy ((hevents ..).trans hb), unitStep_ignoresEvents u rest s]
      cases hr : unitStep u s with
      | next t =>
        have hrest (v : State) (hv : runUnit u n t = .next v) : v.busy u = false :=
          hend v (by rw [runUnit_succ_of_busy hb, hr, andThen_next, hv])
        obtain ⟨m, hm⟩ := ih t hrest
        refine ⟨m + 1, ?_⟩
        change runSteps (m + 1) (s.withEvents (.act (.run u) :: rest)) = _
        rw [runSteps_succ, hfirst, hr]
        exact hm
      | fault e =>
        refine ⟨1, (runSteps_one _).trans (hfirst.trans ?_)⟩
        rw [hr]
        rfl
      | refused e =>
        refine ⟨1, (runSteps_one _).trans (hfirst.trans ?_)⟩
        rw [hr]
        rfl

/-! ## The five expansions -/

/-- The run of an encode ends with the framer not busy: in phase ERROR at once, else when its source is framed. -/
theorem encode_run_ends {bits : BitSeq} {c : Nat} {s t u : State}
    (ht : andThen (andThen (loadSrc bits s) (loadChunkSize c)) (exec .frStart) = .next t)
    (hu : runUnit .framer bits.length t = .next u) : u.busy .framer = false := by
  obtain ⟨v, hv, hstart⟩ := andThen_eq_next.mp ht
  obtain ⟨-, -, hfit, rfl⟩ := loadSrc_loadChunkSize_eq_next.mp hv
  obtain ⟨-, ⟨-, rfl⟩ | ⟨hsrc, hc, rfl⟩⟩ := execFrStart_eq_next.mp hstart
  · rw [runUnit_of_not_busy rfl] at hu
    obtain rfl := next_inj.mp hu
    rfl
  · have hbegin := s.fr.started_inEncode (bits := bits) (c := c) hsrc (Nat.one_le_iff_ne_zero.mpr hc)
    obtain ⟨-, rfl⟩ := (runFramer_eq_next hbegin (Framer.fits_started hfit)).mp hu
    have hdone := hbegin.afterRun_phase (turns := bits.length) (Nat.le_add_left ..)
    exact Framer.not_busy_iff.mpr (hdone.trans_ne (by decide))

/-- The run of a decode ends with the deframer not busy (R202). -/
theorem decode_run_ends {bits : BitSeq} {s t u : State} (ht : andThen (loadRx bits s) (exec .dfStart) = .next t)
    (hu : runUnit .deframer (2 * bits.length + 2) t = .next u) : u.busy .deframer = false := by
  have hcall : exec (.decode bits) s = .next u := by
    rw [exec_decode_expansion, ht]
    exact hu
  have hphase := decodeEndsInATerminalPhase bits s u hcall
  exact Deframer.not_busy_iff.mpr (.inr hphase)

theorem realises_crc16 (bits : BitSeq) : Realises (fun _ => True) (crc16Expansion bits) (exec (.crc16 bits)) := by
  have hinit : Realises (fun _ => True) [.word 0b000000#6] (exec .crcInit) := realises_word (by decide)
  have hbits := realises_feed (P := fun _ => True) (word := commandWord 0b000#3 0b01#2) (instr := .crcShift) (by decide)
    (fun b => exec_ignoresEvents _ nofun) bits
  have hflush : Realises (fun _ => True) [.word 0b000100#6] (exec .crcFlush) := realises_word (by decide)
  have hread : Realises (fun _ => True) [.word 0b000110#6] (exec .crcRead) := realises_word (by decide)
  have hinit' := exec_ignoresEvents .crcInit nofun
  have hbits' := hinit'.andThen (.feed (fun b => exec_ignoresEvents (.crcShift b) nofun) bits)
  have hwords := ((hinit.andThen hinit' hbits).andThen hbits' hflush).andThen
    (hbits'.andThen (exec_ignoresEvents _ nofun)) hread
  rwa [List.append_assoc _ [_] [_]] at hwords

theorem realises_stuff (bits : BitSeq) : Realises (fun _ => True) (stuffExpansion bits) (exec (.stuff bits)) := by
  have hrst : Realises (fun _ => True) [.word 0b001000#6] (exec .stuffRst) := realises_word (by decide)
  have hbits := realises_feed (P := fun _ => True) (word := commandWord 0b001#3 0b01#2) (instr := .stuffBit) (by decide)
    (fun b => exec_ignoresEvents _ nofun) bits
  exact hrst.andThen (exec_ignoresEvents _ nofun) hbits

theorem realises_destuff (bits : BitSeq) : Realises (fun _ => True) (destuffExpansion bits) (exec (.destuff bits)) := by
  have hrst : Realises (fun _ => True) [.word 0b010000#6] (exec .destuffRst) := realises_word (by decide)
  have hbits := realises_feed (P := fun _ => True) (word := commandWord 0b010#3 0b01#2) (instr := .destuffBit) (by decide)
    (fun b => exec_ignoresEvents _ nofun) bits
  have hend : Realises (fun _ => True) [.word 0b010100#6] (exec .destuffEnd) := realises_word (by decide)
  have hrst' := exec_ignoresEvents .destuffRst nofun
  have hbits' := hrst'.andThen (.feed (fun b => exec_ignoresEvents (.destuffBit b) nofun) bits)
  exact (hrst.andThen hrst' hbits).andThen hbits' hend

theorem realises_encode (bits : BitSeq) (c : Nat) :
    Realises (fun _ => True) (encodeExpansion bits c) (exec (.encode bits c)) := by
  have hsrc : Realises (fun _ => True) [.loadSrc bits] (loadSrc bits) := realises_of_step fun _ _ => step_loadSrc ..
  have hsize : Realises (fun _ => True) [.loadChunkSize c] (loadChunkSize c) :=
    realises_of_step fun _ _ => step_loadChunkSize ..
  have hloads := (loadSrc_ignoresEvents bits).andThen (loadChunkSize_ignoresEvents c)
  have hstart := (hsrc.andThen (loadSrc_ignoresEvents bits) hsize).andThen hloads
    (realises_word (i := .frStart) (w := 0b011000#6) (by decide))
  exact hstart.append (hloads.andThen (exec_ignoresEvents _ nofun)) (fun _ _ _ ht _ => encode_run_ends ht)
    (realises_run .framer bits.length)

theorem realises_decode (bits : BitSeq) : Realises (fun _ => True) (decodeExpansion bits) (exec (.decode bits)) := by
  have hrx : Realises (fun _ => True) [.loadRx bits] (loadRx bits) := realises_of_step fun _ _ => step_loadRx ..
  have hstart := hrx.andThen (loadRx_ignoresEvents bits) (realises_word (i := .dfStart) (w := 0b100000#6) (by decide))
  exact hstart.append ((loadRx_ignoresEvents bits).andThen (exec_ignoresEvents _ nofun))
    (fun _ _ _ ht _ => decode_run_ends ht) (realises_run .deframer (2 * bits.length + 2))

/-- Settles O54: only the five calls have an expansion, and each expansion comes to its call. -/
theorem expansionsRunAsTheOperation : Obligations.ExpansionsRunAsTheOperation := by
  intro i actions s rest h
  cases i with
  | crc16 bits => exact Encoding.expansion.inj h ▸ realises_crc16 bits s rest trivial
  | stuff bits => exact Encoding.expansion.inj h ▸ realises_stuff bits s rest trivial
  | destuff bits => exact Encoding.expansion.inj h ▸ realises_destuff bits s rest trivial
  | encode bits c => exact Encoding.expansion.inj h ▸ realises_encode bits c s rest trivial
  | decode bits => exact Encoding.expansion.inj h ▸ realises_decode bits s rest trivial
  | _ => cases h

end Sys2Proof.Machine
end

section
/-!
PROOFS. Whole encodes and decodes: the number of frames, two Flags in a row, and the round trip through both sequencers
(43_hdlc_framer.md section 3; 44_hdlc_deframer.md section 3).
-/

namespace Sys2Proof.Machine

/-! ## What an encode leaves -/

/-- The cursor goes past the end of the source by less than a chunk. -/
theorem Framer.InEncode.afterRun_k_lt {bits : BitSeq} {c : Nat} {f : Framer} (h : f.InEncode bits c)
    (hk : f.k < bits.length + c) (turns : Nat) : (f.afterRun turns).k < bits.length + c := by
  induction turns generalizing f with
  | zero => exact hk
  | succ n ih =>
    by_cases hb : f.busy = true
    · have hleft := h.busy_iff.mp hb
      have hnext : f.nextFrame.k = f.k + c := congrArg (f.k + ·) h.chunkSize
      rw [Framer.afterRun_succ_of_busy hb]
      exact ih h.nextFrame (by omega)
    · rwa [Framer.afterRun_succ_of_not_busy hb]

/-- An encode leaves as many frames as there are chunks, the last one counted when it is short. -/
theorem Framer.encoded_frameCount {bits : BitSeq} {c : Nat} (f : Framer) (hbits : bits ≠ []) (hc : 1 ≤ c) :
    (f.encoded bits c).frameCount = (bits.length + c - 1) / c := by
  have hbegin := f.started_inEncode hbits hc
  have hend := f.encoded_inEncode hbits hc
  have hphase := f.encoded_phase hbits hc
  have hlen : bits.length ≤ (f.encoded bits c).k := by
    by_contra hlt
    rw [hend.phase, if_neg hlt] at hphase
    cases hphase
  have hlt : (f.encoded bits c).k < bits.length + c := hbegin.afterRun_k_lt (Nat.add_pos_right _ hc) _
  rw [hend.k] at hlen hlt
  refine (Nat.div_eq_of_lt_le ?_ ?_).symm
  · omega
  · rw [Nat.succ_mul]
    omega

/-- Settles O23: of a source that is not empty the ceiling is at least 1. -/
theorem encodeFrameCountIsCeiling : Obligations.EncodeFrameCountIsCeiling := by
  intro bits c s t hbits hc h
  obtain ⟨-, -, -, rfl⟩ := (exec_encode_eq_next hbits hc).mp h
  have hcount := s.fr.encoded_frameCount hbits hc
  have hlen := List.length_pos_iff.mpr hbits
  refine ⟨hcount, ?_⟩
  rw [hcount, Nat.one_le_div_iff hc]
  omega

/-- The Frames of some chunks, one after the other. -/
def frames (chunks : List BitSeq) : BitSeq := (chunks.map Codec.frameBits).flatten

/-- What the framer has sent is the Frames of the chunks up to its cursor. -/
def Framer.Sent (bits : BitSeq) (f : Framer) : Prop :=
  ∃ chunks, f.tx = frames chunks ∧ chunks.flatten = bits.take f.k ∧ chunks.length = f.frameCount

theorem Framer.InEncode.sent_nextFrame {bits : BitSeq} {c : Nat} {f : Framer} (h : f.InEncode bits c) (hf : f.Sent bits) :
    f.nextFrame.Sent bits := by
  obtain ⟨chunks, htx, hflat, hcount⟩ := hf
  refine ⟨chunks ++ [slice f.src f.k f.chunkEnd], ?_, ?_, ?_⟩
  · simp [Framer.nextFrame, htx, frames]
  · have hk : f.nextFrame.k = f.k + f.chunkSize := rfl
    rw [List.flatten_append, hflat, hk, List.take_add, h.src, Framer.chunkEnd, h.src, List.flatten_singleton, slice]
    congr 1
    rw [List.take_eq_take_iff, List.length_drop]
    omega
  · simp [Framer.nextFrame, hcount]

theorem Framer.InEncode.sent_afterRun {bits : BitSeq} {c : Nat} {f : Framer} (h : f.InEncode bits c) (hf : f.Sent bits)
    (turns : Nat) : (f.afterRun turns).Sent bits := by
  induction turns generalizing f with
  | zero => exact hf
  | succ n ih =>
    by_cases hb : f.busy = true
    · rw [Framer.afterRun_succ_of_busy hb]
      exact ih h.nextFrame (h.sent_nextFrame hf)
    · rwa [Framer.afterRun_succ_of_not_busy hb]

/-- An encode sends the Frames of chunks that make up the source, and counts them. -/
theorem Framer.encoded_tx {bits : BitSeq} {c : Nat} (f : Framer) (hbits : bits ≠ []) (hc : 1 ≤ c) :
    ∃ chunks, (f.encoded bits c).tx = frames chunks ∧ chunks.flatten = bits ∧
      chunks.length = (f.encoded bits c).frameCount := by
  have hend := f.encoded_inEncode hbits hc
  have hphase := f.encoded_phase hbits hc
  obtain ⟨chunks, htx, hflat, hcount⟩ :=
    (f.started_inEncode hbits hc).sent_afterRun (f := (f.loaded bits c).started) ⟨[], rfl, rfl, rfl⟩ bits.length
  have hlen : bits.length ≤ (f.encoded bits c).k := by
    by_contra hlt
    rw [hend.phase, if_neg hlt] at hphase
    cases hphase
  exact ⟨chunks, htx, hflat.trans (List.take_of_length_le hlen), hcount⟩

/-! ## The rule's loop at a frame -/

section Loop

variable {bits : BitSeq}

/-- With turns enough, the inner loop stops at the first Flag. -/
theorem seekFlag_eq {turns i j : Nat} (hij : i ≤ j) (hin : j + 8 ≤ bits.length)
    (hmiss : ∀ p, i ≤ p → p < j → slice bits p (p + 8) ≠ Config.flag) (hflag : slice bits j (j + 8) = Config.flag)
    (hturns : j ≤ i + turns) : Reference.seekFlag bits turns i = j := by
  induction turns generalizing i with
  | zero => exact Nat.le_antisymm hij hturns
  | succ n ih =>
    unfold Reference.seekFlag
    by_cases hi : i = j
    · subst hi
      exact if_neg fun h => h.2 hflag
    · rw [if_pos ⟨by omega, hmiss i le_rfl (by omega)⟩]
      exact ih (by omega) (fun p hp => hmiss p (by omega)) (by omega)

/-- The outer loop skips the bits before the first Flag, a turn each. -/
theorem decodeLoop_skip {i n turns : Nat} (hin : i + n + 8 ≤ bits.length)
    (hmiss : ∀ p, i ≤ p → p < i + n → slice bits p (p + 8) ≠ Config.flag) (data : BitSeq) (ok failed : Nat) :
    Reference.decodeLoop bits (turns + n) i data ok failed = Reference.decodeLoop bits turns (i + n) data ok failed := by
  induction n generalizing i with
  | zero => rfl
  | succ n ih =>
    have hnext := ih (i := i + 1) (by omega) fun p hp hlt => hmiss p (by omega) (by omega)
    rw [← Nat.add_assoc, Reference.decodeLoop, if_pos (by omega), if_pos (hmiss i le_rfl (by omega)), hnext,
      show i + 1 + n = i + (n + 1) by omega]

/-- A turn of the outer loop at an opening Flag, with the closing Flag the first one after it. -/
theorem decodeLoop_frame {i j turns : Nat} (hij : i + 8 ≤ j) (hin : j + 8 ≤ bits.length)
    (hopening : slice bits i (i + 8) = Config.flag) (hclosing : slice bits j (j + 8) = Config.flag)
    (hmiss : ∀ p, i + 8 ≤ p → p < j → slice bits p (p + 8) ≠ Config.flag) (data : BitSeq) (ok failed : Nat) :
    let p := Codec.destuff (slice bits (i + 8) j)
    Reference.decodeLoop bits (turns + 1) i data ok failed =
      if p.length < 16 then ⟨data, ok, failed, true⟩
      else if Codec.crc16 (payloadData p) ≠ payloadCrc p then
        Reference.decodeLoop bits turns (j + 8) data ok (failed + 1)
      else Reference.decodeLoop bits turns (j + 8) (data ++ payloadData p) (ok + 1) failed := by
  have hseek : Reference.seekFlag bits bits.length (i + 8) = j := seekFlag_eq hij hin hmiss hclosing (by omega)
  rw [Reference.decodeLoop, if_pos (by omega), if_neg (not_not.mpr hopening)]
  dsimp only
  rw [hseek, if_neg (Nat.not_lt.mpr hin)]
  rfl

/-- After the last frame the outer loop returns. -/
theorem decodeLoop_end {i turns : Nat} (hend : bits.length < i + 8) (data : BitSeq) (ok failed : Nat) :
    Reference.decodeLoop bits turns i data ok failed = ⟨data, ok, failed, false⟩ := by
  cases turns with
  | zero => rfl
  | succ n => exact if_neg (Nat.not_le.mpr hend)

end Loop

/-- A turn of the outer loop at a Frame appends its chunk. -/
theorem decodeLoop_frameBits (pre chunk rest : BitSeq) (turns : Nat) (data : BitSeq) (ok failed : Nat) :
    Reference.decodeLoop (pre ++ (Codec.frameBits chunk ++ rest)) (turns + 1) pre.length data ok failed =
      Reference.decodeLoop (pre ++ (Codec.frameBits chunk ++ rest)) turns (pre.length + (Codec.frameBits chunk).length)
        (data ++ chunk) (ok + 1) failed := by
  have hlen := Codec.frameBits_length chunk
  set n := (Codec.stuff (Codec.frameBody chunk)).length with hn
  have hslice {a b : Nat} (hb : b ≤ (Codec.frameBits chunk).length) :
      slice (pre ++ (Codec.frameBits chunk ++ rest)) (pre.length + a) (pre.length + b) =
        slice (Codec.frameBits chunk) a b := by
    rw [slice_append_length_add, slice_append_of_le_length hb]
  have hopening := (hslice (a := 0) (b := 8) (by omega)).trans (Codec.flag_prefix_frameBits chunk)
  have hclosing := (hslice (a := 8 + n) (b := 8 + n + 8) (by omega)).trans (Codec.flag_suffix_frameBits chunk)
  have hmiss (p : Nat) (hp : pre.length + 8 ≤ p) (hlt : p < pre.length + (8 + n)) :
      slice (pre ++ (Codec.frameBits chunk ++ rest)) p (p + 8) ≠ Config.flag := by
    obtain ⟨a, rfl⟩ := Nat.exists_eq_add_of_le (show pre.length ≤ p by omega)
    rw [Nat.add_assoc, hslice (by omega)]
    intro hflag
    rcases Codec.flag_at_end_of_frameBits (by omega) hflag with h | h <;> omega
  have hpayload : Codec.destuff (slice (pre ++ (Codec.frameBits chunk ++ rest)) (pre.length + 8) (pre.length + (8 + n))) =
      Codec.frameBody chunk := by
    rw [hslice (by omega), Codec.slice_frameBits, Codec.destuff_stuff]
  have hlong : ¬ (Codec.frameBody chunk).length < 16 := by
    rw [Codec.frameBody_length]
    omega
  have hturn := decodeLoop_frame (i := pre.length) (turns := turns) (by omega) (by simp; omega) hopening hclosing
    hmiss data ok failed
  simp only [hpayload, Codec.payloadData_frameBody, Codec.payloadCrc_frameBody, ne_eq, not_true_eq_false, if_false,
    if_neg hlong] at hturn
  rw [hturn, hlen, show pre.length + (8 + n) + 8 = pre.length + (n + 16) by omega]

/-- The outer loop over the Frames of some chunks returns the chunks, each counted as ok. -/
theorem decodeLoop_frames (pre : BitSeq) (chunks : List BitSeq) {turns : Nat} (hturns : chunks.length ≤ turns)
    (data : BitSeq) (ok failed : Nat) :
    Reference.decodeLoop (pre ++ frames chunks) turns pre.length data ok failed =
      ⟨data ++ chunks.flatten, ok + chunks.length, failed, false⟩ := by
  induction chunks generalizing pre turns data ok with
  | nil =>
    rw [decodeLoop_end (by simp [frames])]
    simp
  | cons chunk chunks ih =>
    obtain ⟨turns, rfl⟩ : ∃ n, turns = n + 1 := Nat.exists_eq_add_one.mpr (Nat.lt_of_lt_of_le (Nat.succ_pos _) hturns)
    have hframes : frames (chunk :: chunks) = Codec.frameBits chunk ++ frames chunks := rfl
    rw [hframes, decodeLoop_frameBits, ← List.length_append, ← List.append_assoc,
      ih (pre ++ Codec.frameBits chunk) (Nat.le_of_succ_le_succ hturns)]
    simp only [List.flatten_cons, List.append_assoc, List.length_cons, Nat.add_assoc, Nat.add_comm 1]

theorem length_le_frames (chunks : List BitSeq) : chunks.length ≤ (frames chunks).length := by
  induction chunks with
  | nil => exact Nat.zero_le _
  | cons chunk chunks ih =>
    have hchunk := Codec.frameBits_length_ge chunk
    have hframes : frames (chunk :: chunks) = Codec.frameBits chunk ++ frames chunks := rfl
    rw [hframes, List.length_append, List.length_cons]
    omega

theorem decode_frames (chunks : List BitSeq) :
    Reference.decode (frames chunks) = ⟨chunks.flatten, chunks.length, 0, false⟩ := by
  have h := decodeLoop_frames [] chunks (turns := (frames chunks).length + 1)
    ((length_le_frames chunks).trans (Nat.le_succ _)) [] 0 0
  simpa [Reference.decode] using h

/-- Settles O34: the encode sends the Frames of the chunks of `D`, and the decode returns those chunks. -/
theorem roundTrip : Obligations.RoundTrip := by
  intro D c s hD hc hp hquiet
  obtain ⟨hfr, hdf⟩ := hquiet
  obtain ⟨chunks, htx, hflat, hcount⟩ := s.fr.encoded_tx hD hc
  have hencode := (exec_encode_eq_next hD hc).mpr ⟨hfr, by rw [hp]; rfl, by rw [hp]; rfl, rfl⟩
  have hdecode := exec_decode_eq_next (bits := (s.fr.encoded D c).tx) (s := { s with fr := s.fr.encoded D c }).mpr
    ⟨hdf, by rw [hp]; rfl, by rw [hp]; rfl, rfl⟩
  have hreturns := s.df.decoded_returns (s.fr.encoded D c).tx
  rw [htx, decode_frames, hflat, hcount, s.fr.encoded_frameCount hD hc, ← htx] at hreturns
  exact ⟨_, _, hencode, hdecode, hreturns.out, s.fr.encoded_frameCount hD hc, hreturns.framesOk, hreturns.framesFailed,
    hreturns.phase⟩

/-- After the bits before the first Flag, two Flags in a row delimit an empty payload, which aborts (R196). -/
theorem decode_adjacentFlags (garbage rest : BitSeq)
    (hmiss : ∀ p, p < garbage.length → slice (garbage ++ Config.flag) p (p + 8) ≠ Config.flag) :
    Reference.decode (garbage ++ Config.flag ++ Config.flag ++ rest) = ⟨[], 0, 0, true⟩ := by
  set bits := garbage ++ Config.flag ++ Config.flag ++ rest with hbits
  have hflag : Config.flag.length = 8 := rfl
  have hlen : garbage.length + 16 ≤ bits.length := by
    simp only [hbits, List.length_append, hflag]
    omega
  have hskip (p : Nat) (_ : 0 ≤ p) (hp : p < 0 + garbage.length) : slice bits p (p + 8) ≠ Config.flag := by
    rw [hbits, List.append_assoc, slice_append_of_le_length (by simp only [List.length_append, hflag]; omega)]
    exact hmiss p (by omega)
  have hopening : slice bits garbage.length (garbage.length + 8) = Config.flag := by
    rw [hbits, List.append_assoc, slice_append_of_le_length (by simp [hflag])]
    exact slice_append_length garbage Config.flag
  have hclosing : slice bits (garbage.length + 8) (garbage.length + 8 + 8) = Config.flag := by
    rw [hbits, slice_append_of_le_length (by simp [hflag])]
    have h := slice_append_length (garbage ++ Config.flag) Config.flag
    rwa [List.length_append] at h
  have hturns : bits.length + 1 = bits.length - garbage.length + 1 + garbage.length := by omega
  have hempty : slice bits (garbage.length + 8) (garbage.length + 8) = [] := by simp [slice]
  rw [Reference.decode, hturns, decodeLoop_skip (by omega) hskip, Nat.zero_add,
    decodeLoop_frame le_rfl (by omega) hopening hclosing (fun p hp hlt => by omega), hempty]
  rfl

/-- Settles O32. -/
theorem adjacentFlagsAbort : Obligations.AdjacentFlagsAbort := by
  intro garbage rest s t hmiss h
  obtain ⟨-, -, -, rfl⟩ := exec_decode_eq_next.mp h
  have hreturns := s.df.decoded_returns (garbage ++ Config.flag ++ Config.flag ++ rest)
  rw [decode_adjacentFlags garbage rest hmiss] at hreturns
  exact ⟨hreturns.phase, hreturns.out, hreturns.framesOk, hreturns.framesFailed⟩

end Sys2Proof.Machine
end

section
/-!
PROOFS. The streaming form of the deframer agrees with the cursor form (44_hdlc_deframer.md R211): when the cursor looks at the
eight bits from an index on, the scanner has the first seven of them in its window and takes the eighth.
-/

namespace Sys2Proof.Streaming

/-! ## One bit, case by case -/

/-- What the scanner has recorded. -/
def Scanner.result (s : Scanner) : Reference.Decoded := ⟨s.data, s.ok, s.failed, s.aborted⟩

/-- The scanner after the closing Flag of a frame. -/
def Scanner.closed (s : Scanner) (fbuf : BitSeq) : Scanner :=
  { closeFrame fbuf s with mode := .hunt, win := [], fbuf := fbuf }

section OnBit

variable {s : Scanner} {b : Bit}

theorem onBit_of_aborted (h : s.aborted = true) (b : Bit) : onBit s b = s := if_pos h

theorem foldl_onBit_of_aborted (h : s.aborted = true) (bits : BitSeq) : bits.foldl onBit s = s := by
  induction bits with
  | nil => rfl
  | cons b bits ih => rw [List.foldl_cons, onBit_of_aborted h, ih]

variable (hrun : s.aborted = false)
include hrun

theorem onBit_hunt_miss (hmode : s.mode = .hunt) (hmiss : keepLast 8 (s.win ++ [b]) ≠ Config.flag) :
    onBit s b = { s with win := keepLast 8 (s.win ++ [b]) } := by
  simp [onBit, hrun, hmode, hmiss]

theorem onBit_hunt_flag (hmode : s.mode = .hunt) (hflag : keepLast 8 (s.win ++ [b]) = Config.flag) :
    onBit s b = { s with mode := .inFrame, win := [], fbuf := [] } := by
  simp [onBit, hrun, hmode, hflag]

theorem onBit_frame_miss (hmode : s.mode = .inFrame) (hmiss : keepLast 8 (s.win ++ [b]) ≠ Config.flag) :
    onBit s b = { s with win := keepLast 8 (s.win ++ [b]), fbuf := s.fbuf ++ [b] } := by
  simp [onBit, hrun, hmode, hmiss]

theorem onBit_frame_flag (hmode : s.mode = .inFrame) (hflag : keepLast 8 (s.win ++ [b]) = Config.flag) :
    onBit s b = s.closed (s.fbuf ++ [b]) := by
  simp [onBit, hrun, hmode, hflag, Scanner.closed]

end OnBit

/-! ## The window -/

theorem keepLast_of_length_le {n : Nat} {s : BitSeq} (h : s.length ≤ n) : keepLast n s = s := by
  rw [keepLast, Nat.sub_eq_zero_of_le h, List.drop_zero]

/-- Eight bits with the last seven known before the eighth came. -/
theorem keepLast_append_singleton (n : Nat) (s : BitSeq) (b : Bit) : keepLast (n + 1) (s ++ [b]) = keepLast n s ++ [b] := by
  simp only [keepLast, List.length_append, List.length_singleton, Nat.add_sub_add_right]
  exact List.drop_append_of_le_length (Nat.sub_le ..)

/-- Fewer than eight bits are no Flag. -/
theorem ne_flag_of_short {s : BitSeq} (h : s.length < 8) : s ≠ Config.flag := fun e => by simp [e, Config.flag] at h

section Fresh

variable {s : Scanner} (hrun : s.aborted = false) (hwin : s.win = [])
include hrun hwin

/-- In mode HUNT with an empty window, up to seven bits fill the window. -/
theorem foldl_onBit_hunt (hmode : s.mode = .hunt) {w : BitSeq} (hw : w.length < 8) :
    w.foldl onBit s = { s with win := w } := by
  induction w using List.reverseRecOn with
  | nil =>
    change s = { s with win := [] }
    rw [← hwin]
  | append_singleton w b ih =>
    have hkeep : keepLast 8 (w ++ [b]) = w ++ [b] := keepLast_of_length_le hw.le
    rw [List.foldl_append, ih (by simp at hw; omega)]
    exact (onBit_hunt_miss (s := { s with win := w }) hrun hmode
      (by rw [hkeep]; exact ne_flag_of_short hw)).trans (by rw [hkeep])

/-- In mode IN_FRAME with nothing read yet, up to seven bits fill the window and the frame buffer. -/
theorem foldl_onBit_frame (hmode : s.mode = .inFrame) (hfbuf : s.fbuf = []) {w : BitSeq} (hw : w.length < 8) :
    w.foldl onBit s = { s with win := w, fbuf := w } := by
  induction w using List.reverseRecOn with
  | nil =>
    obtain ⟨mode, win, fbuf, data, ok, failed, aborted⟩ := s
    cases hwin
    cases hfbuf
    rfl
  | append_singleton w b ih =>
    have hkeep : keepLast 8 (w ++ [b]) = w ++ [b] := keepLast_of_length_le hw.le
    rw [List.foldl_append, ih (by simp at hw; omega)]
    exact (onBit_frame_miss (s := { s with win := w, fbuf := w }) hrun hmode (by rw [hkeep]; exact ne_flag_of_short hw)).trans
      (by rw [hkeep])

end Fresh

variable {bits : BitSeq}

/-- What the scanner has recorded when it has read the stream from an index to its end. -/
def Scanner.finish (s : Scanner) (bits : BitSeq) (n : Nat) : Reference.Decoded := ((bits.drop n).foldl onBit s).result

theorem Scanner.finish_of_length_le {s : Scanner} {n : Nat} (h : bits.length ≤ n) : s.finish bits n = s.result := by
  rw [finish, List.drop_eq_nil_of_le h, List.foldl_nil]

theorem Scanner.finish_succ {s : Scanner} {n : Nat} (h : n < bits.length) :
    s.finish bits n = (onBit s bits[n]).finish bits (n + 1) := by
  rw [finish, List.drop_eq_getElem_cons h, List.foldl_cons, finish]

theorem Scanner.finish_of_aborted {s : Scanner} (h : s.aborted = true) (n : Nat) : s.finish bits n = s.result := by
  rw [finish, foldl_onBit_of_aborted h]

/-- The stream from an index on begins with its next seven bits. -/
theorem drop_eq_slice_append (bits : BitSeq) (i : Nat) : bits.drop i = slice bits i (i + 7) ++ bits.drop (i + 7) := by
  rw [slice, Nat.add_sub_cancel_left, ← List.drop_drop, List.take_append_drop]

/-- Reading the next seven bits first. -/
theorem Scanner.finish_eq_slice (s : Scanner) (i : Nat) :
    s.finish bits i = ((slice bits i (i + 7)).foldl onBit s).finish bits (i + 7) := by
  rw [finish, drop_eq_slice_append, List.foldl_append, finish]

/-- The scanner runs, and its window holds the first seven of the eight bits the cursor looks at. -/
structure Scanner.Sees (s : Scanner) (bits : BitSeq) (i : Nat) : Prop where
  running : s.aborted = false
  inside : i + 7 ≤ bits.length
  window : keepLast 7 s.win = slice bits i (i + 7)

/-- A slice and the bit after it. -/
theorem slice_append_getElem {a b : Nat} (hab : a ≤ b) (hb : b < bits.length) :
    slice bits a b ++ [bits[b]] = slice bits a (b + 1) := by
  rw [slice, slice, Nat.succ_sub hab, List.take_add_one, List.getElem?_drop, Nat.add_sub_cancel' hab,
    List.getElem?_eq_getElem hb, Option.toList_some]

namespace Scanner.Sees

variable {s : Scanner} {i : Nat} (h : s.Sees bits i) (hin : i + 8 ≤ bits.length)
include h

/-- The next bit completes the eight bits that the cursor looks at. -/
theorem next_window : keepLast 8 (s.win ++ [bits[i + 7]]) = slice bits i (i + 8) := by
  rw [keepLast_append_singleton, h.window, slice_append_getElem (Nat.le_add_right ..)]

/-- If they are no Flag, the window is ready for the next index. -/
theorem succ {t : Scanner} (hrun : t.aborted = false) (hwin : t.win = keepLast 8 (s.win ++ [bits[i + 7]])) :
    t.Sees bits (i + 1) where
  running := hrun
  inside := by omega
  window := by
    have hlen : (slice bits i (i + 8)).length - 7 = 1 := by rw [Machine.slice_length hin, Nat.add_sub_cancel_left]
    rw [hwin, h.next_window hin, keepLast, hlen, slice, slice, List.drop_take, List.drop_drop]
    congr 1

end Scanner.Sees

/-- With fewer than eight bits left nothing more is recorded. -/
theorem Scanner.finish_of_end {s : Scanner} {i : Nat} (hend : bits.length < i + 8) : s.finish bits (i + 7) = s.result :=
  Scanner.finish_of_length_le (Nat.le_of_lt_succ hend)

/-! ## In a frame -/

/-- The record of a frame depends on its bits and on what was recorded before. -/
theorem Scanner.closed_with (s : Scanner) (mode : Mode) (win fbuf fbuf' : BitSeq) :
    ({ s with mode := mode, win := win, fbuf := fbuf } : Scanner).closed fbuf' = s.closed fbuf' := by
  unfold closed closeFrame
  dsimp only
  split_ifs <;> rfl

theorem seekFlag_of_miss {turns j : Nat} (hin : j + 8 ≤ bits.length) (hmiss : slice bits j (j + 8) ≠ Config.flag) :
    Reference.seekFlag bits (turns + 1) j = Reference.seekFlag bits turns (j + 1) := if_pos ⟨hin, hmiss⟩

theorem seekFlag_of_flag {turns j : Nat} (hflag : slice bits j (j + 8) = Config.flag) :
    Reference.seekFlag bits turns j = j := by
  cases turns with
  | zero => rfl
  | succ n => exact if_neg fun hmiss => hmiss.2 hflag

theorem seekFlag_of_end {turns j : Nat} (hend : bits.length < j + 8) : Reference.seekFlag bits turns j = j := by
  cases turns with
  | zero => rfl
  | succ n => exact if_neg fun hmiss => absurd hmiss.1 (Nat.not_le.mpr hend)

/-- In a frame the scanner reads on to the Flag at which the inner loop of the cursor form stops. -/
theorem finish_frame {s : Scanner} {turns start j : Nat} (h : s.Sees bits j) (hmode : s.mode = .inFrame)
    (hstart : start ≤ j) (hfbuf : s.fbuf = slice bits start (j + 7)) (hturns : bits.length < j + 8 + turns) :
    s.finish bits (j + 7) =
      if bits.length < Reference.seekFlag bits turns j + 8 then s.result
      else (s.closed (slice bits start (Reference.seekFlag bits turns j + 8))).finish bits
        (Reference.seekFlag bits turns j + 8) := by
  induction turns generalizing s j with
  | zero => rw [Reference.seekFlag, if_pos hturns, Scanner.finish_of_end hturns]
  | succ n ih =>
    by_cases hin : j + 8 ≤ bits.length
    · have hread : s.fbuf ++ [bits[j + 7]] = slice bits start (j + 8) := by
        rw [hfbuf, slice_append_getElem (by omega)]
      have hwindow := h.next_window hin
      rw [Scanner.finish_succ hin]
      by_cases hflag : slice bits j (j + 8) = Config.flag
      · rw [seekFlag_of_flag hflag, if_neg (Nat.not_lt.mpr hin),
          onBit_frame_flag h.running hmode (hwindow.trans hflag), hread]
      · rw [seekFlag_of_miss hin hflag, onBit_frame_miss h.running hmode (hwindow ▸ hflag), hread]
        have hrest := ih (h.succ (t := { s with win := keepLast 8 (s.win ++ [bits[j + 7]]), fbuf := slice bits start (j + 8) })
          hin h.running rfl) hmode (by omega) rfl (by omega)
        rw [s.closed_with s.mode] at hrest
        exact (congrArg _ (by omega)).trans hrest
    · rw [seekFlag_of_end (Nat.not_le.mp hin), if_pos (Nat.not_le.mp hin), Scanner.finish_of_end (Nat.not_le.mp hin)]

/-- The same from the opening Flag on. -/
theorem finish_frame_begin {s : Scanner} (hrun : s.aborted = false) (start : Nat) :
    ({ s with mode := .inFrame, win := [], fbuf := [] } : Scanner).finish bits start =
      if bits.length < Reference.seekFlag bits bits.length start + 8 then s.result
      else (s.closed (slice bits start (Reference.seekFlag bits bits.length start + 8))).finish bits
        (Reference.seekFlag bits bits.length start + 8) := by
  have hfill {w : BitSeq} (hw : w.length < 8) :
      w.foldl onBit { s with mode := .inFrame, win := [], fbuf := [] } = { s with mode := .inFrame, win := w, fbuf := w } :=
    foldl_onBit_frame (s := { s with mode := .inFrame, win := [], fbuf := [] }) hrun rfl rfl rfl hw
  rcases Nat.lt_or_ge bits.length (start + 7) with hshort | hlong
  · have hend : bits.length < start + 8 := Nat.lt_succ_of_lt hshort
    rw [seekFlag_of_end hend, if_pos hend, Scanner.finish, hfill (by rw [List.length_drop]; omega)]
    rfl
  · have hw : (slice bits start (start + 7)).length = 7 := by rw [Machine.slice_length hlong, Nat.add_sub_cancel_left]
    have hsees : ({ s with mode := .inFrame, win := slice bits start (start + 7), fbuf := slice bits start (start + 7) } :
        Scanner).Sees bits start := ⟨hrun, hlong, keepLast_of_length_le hw.le⟩
    rw [Scanner.finish_eq_slice, hfill (by omega), finish_frame (turns := bits.length) hsees rfl le_rfl rfl (by omega),
      s.closed_with]
    rfl

/-- The bits of a frame without its closing Flag are the payload. -/
theorem take_slice {start j : Nat} (hin : j + 8 ≤ bits.length) :
    (slice bits start (j + 8)).take ((slice bits start (j + 8)).length - 8) = slice bits start j := by
  rw [Machine.slice_length hin, slice, List.take_take, slice]
  congr 1
  omega

/-- What the scanner records at the end of a frame is what `decode`'s outer loop does. -/
theorem Scanner.closed_slice (s : Scanner) {start j : Nat} (hin : j + 8 ≤ bits.length) :
    let p := Codec.destuff (slice bits start j)
    let hunting := { s with mode := .hunt, win := [], fbuf := slice bits start (j + 8) }
    s.closed (slice bits start (j + 8)) =
      if p.length < 16 then { hunting with aborted := true }
      else if Codec.crc16 (Machine.payloadData p) ≠ Machine.payloadCrc p then { hunting with failed := s.failed + 1 }
      else { hunting with data := s.data ++ Machine.payloadData p, ok := s.ok + 1 } := by
  intro p hunting
  have hclose : closeFrame (slice bits start (j + 8)) s =
      if p.length < 16 then { s with aborted := true }
      else if Codec.crc16 (Machine.payloadData p) ≠ Machine.payloadCrc p then { s with failed := s.failed + 1 }
      else { s with data := s.data ++ Machine.payloadData p, ok := s.ok + 1 } := by
    rw [closeFrame, take_slice hin]
    rfl
  rw [closed, hclose]
  split_ifs <;> rfl

/-! ## Between frames -/

theorem Scanner.result_of_running {s : Scanner} (hrun : s.aborted = false) :
    s.result = ⟨s.data, s.ok, s.failed, false⟩ := by
  rw [result, hrun]

/-- The scanner that hunts with seven bits in its window agrees with the outer loop of `decode` at that index. -/
def HuntAgrees (bits : BitSeq) (turns : Nat) : Prop :=
  ∀ (i : Nat) (s : Scanner), s.Sees bits i → s.mode = .hunt → bits.length < i + turns →
    s.finish bits (i + 7) = Reference.decodeLoop bits turns i s.data s.ok s.failed

/-- So does the scanner that begins to hunt at an index. -/
theorem HuntAgrees.finish_begin {turns : Nat} (h : HuntAgrees bits turns) {s : Scanner} (hrun : s.aborted = false)
    (hmode : s.mode = .hunt) (hwin : s.win = []) {i : Nat} (hturns : bits.length < i + turns) :
    s.finish bits i = Reference.decodeLoop bits turns i s.data s.ok s.failed := by
  rcases Nat.lt_or_ge bits.length (i + 7) with hshort | hlong
  · rw [Machine.decodeLoop_end (by omega), Scanner.finish,
      foldl_onBit_hunt hrun hwin hmode (by rw [List.length_drop]; omega)]
    exact Scanner.result_of_running hrun
  · have hw : (slice bits i (i + 7)).length = 7 := by rw [Machine.slice_length hlong, Nat.add_sub_cancel_left]
    rw [Scanner.finish_eq_slice, foldl_onBit_hunt hrun hwin hmode (by omega)]
    exact h i { s with win := slice bits i (i + 7) } ⟨hrun, hlong, keepLast_of_length_le hw.le⟩ hmode hturns

/-- The turn of the outer loop at an opening Flag. -/
theorem decodeLoop_of_opening {i : Nat} (hin : i + 8 ≤ bits.length) (hflag : slice bits i (i + 8) = Config.flag)
    (turns : Nat) (data : BitSeq) (ok failed : Nat) :
    let j := Reference.seekFlag bits bits.length (i + 8)
    let p := Codec.destuff (slice bits (i + 8) j)
    Reference.decodeLoop bits (turns + 1) i data ok failed =
      if bits.length < j + 8 then ⟨data, ok, failed, false⟩
      else if p.length < 16 then ⟨data, ok, failed, true⟩
      else if Codec.crc16 (Machine.payloadData p) ≠ Machine.payloadCrc p then
        Reference.decodeLoop bits turns (j + 8) data ok (failed + 1)
      else Reference.decodeLoop bits turns (j + 8) (data ++ Machine.payloadData p) (ok + 1) failed := by
  rw [Reference.decodeLoop, if_pos hin, if_neg (not_not.mpr hflag)]
  rfl

theorem huntAgrees (bits : BitSeq) (turns : Nat) : HuntAgrees bits turns := by
  induction turns with
  | zero =>
    intro i s h _ hturns
    have := h.inside
    omega
  | succ n ih =>
    intro i s h hmode hturns
    by_cases hin : i + 8 ≤ bits.length
    · have hwindow := h.next_window hin
      rw [Scanner.finish_succ hin]
      by_cases hflag : slice bits i (i + 8) = Config.flag
      · rw [onBit_hunt_flag h.running hmode (hwindow.trans hflag), decodeLoop_of_opening hin hflag]
        rw [finish_frame_begin h.running (i + 8)]
        by_cases hend : bits.length < Reference.seekFlag bits bits.length (i + 8) + 8
        · rw [if_pos hend, if_pos hend]
          exact Scanner.result_of_running h.running
        · have hj := Machine.le_seekFlag bits bits.length (i + 8)
          rw [if_neg hend, if_neg hend, s.closed_slice (Nat.not_lt.mp hend)]
          split_ifs
          · exact Scanner.finish_of_aborted rfl _
          · exact ih.finish_begin (by exact h.running) rfl rfl (by omega)
          · exact ih.finish_begin (by exact h.running) rfl rfl (by omega)
      · have hnext := h.succ (t := { s with win := keepLast 8 (s.win ++ [bits[i + 7]]) }) hin h.running rfl
        rw [onBit_hunt_miss h.running hmode (hwindow ▸ hflag), Reference.decodeLoop, if_pos hin, if_pos hflag]
        exact (congrArg _ (by omega)).trans (ih (i + 1) _ hnext hmode (by omega))
    · rw [Scanner.finish_of_end (Nat.not_le.mp hin), Machine.decodeLoop_end (Nat.not_le.mp hin)]
      exact Scanner.result_of_running h.running

theorem decode_eq_reference (bits : BitSeq) : decode bits = Reference.decode bits :=
  (huntAgrees bits (bits.length + 1)).finish_begin (s := {}) (i := 0) rfl rfl rfl (by omega)

end Sys2Proof.Streaming

namespace Sys2Proof.Machine

/-- Settles O35: both forms return what the loop of `decode` does. -/
theorem streamingFormAgrees : Obligations.StreamingFormAgrees := by
  intro bits s t h
  obtain ⟨-, -, -, rfl⟩ := exec_decode_eq_next.mp h
  obtain ⟨hout, hok, hfailed, hphase⟩ := s.df.decoded_returns bits
  have habort : (s.df.decoded bits).abort = (Reference.decode bits).abort := by
    rw [Deframer.abort, hphase]
    cases (Reference.decode bits).abort <;> rfl
  rw [Streaming.decode_eq_reference, hout, hok, hfailed, habort]

end Sys2Proof.Machine
end
